-- ==== Sys2Proof/Word.lean ====
section
/-! DEFINITION. The engine's three widths of value (00_scope.md R6, R7): bytes of memory, 32-bit register
values and memory addresses, and 64-bit state words. Every value is unsigned (R7, R95). -/

namespace Sys2Proof

/-- One byte of the memory space (20_memory.md R46). -/
abbrev Byte := BitVec 8

/-- A register value, a command word or a memory address as a register holds it (00_scope.md R6). -/
abbrev Word32 := BitVec 32

/-- A state word `S[i]` (10_state.md R17), and the advance counter (10_state.md R35). -/
abbrev Word64 := BitVec 64

end Sys2Proof
end

