-- ==== Sys2Proof/Config.lean ====
section
/-! DEFINITION. What one implementation fixes (00_scope.md R6) and the free values, which the spec leaves open
(93_implementation_defined.md). The free values have no body: nothing can be proved of one of them alone. The
platform's answers `MemOk` are data of the state, not a constant here (notes/assumptions/2.md). -/

namespace Sys2Proof

/-- The size of the memory space: byte addresses `0 .. 2^32 - 1` (00_scope.md R6, `AW = 32`; 20_memory.md R46). -/
def Config.addressLimit : Nat := 4294967296

/-- The value `ID` always reads (10_state.md R27): the bytes "XOSH". -/
def Config.idValue : Word32 := 0x584F5348#32

/-- `REG_BASE`, the platform address of the register window (10_state.md R22): an OPEN parameter, on whose value
no rule depends (93_implementation_defined.md U12). -/
opaque Config.regBase : Nat

/-- The number of draws the sampler tries before the model says that the command never completes: `2^512`, the
number of states of the 512-bit family. It is no cap (42_sampler.md R112): the draws depend on the state words
alone, so a loop that has rejected as many draws as there are states has come back to a state it was in, and
rejects for ever (notes/assumptions/6.md). -/
def Config.drawFuel : Nat := 2 ^ 256 * 2 ^ 256

/-- FREE VALUE. What a register read returns where 10_state.md R41 leaves it unspecified
(93_implementation_defined.md U4); applied to the state's counter `fresh`, which the read advances. -/
opaque Config.freeWord : Nat → Word32

/-- FREE VALUE. What a byte of memory holds where the spec leaves it unspecified: after a write that took a bus
error (93_implementation_defined.md U7, U10) and after a reset of a busy command (U8). Applied to the state's
counter `fresh`, which advances by one for each such byte. -/
opaque Config.freeByte : Nat → Byte

end Sys2Proof
end

