-- ==== Sys2Proof/Syntax.lean ====
section
/-! DEFINITION. The command set: one constructor for each row of spec/opcode_table.json (30_encoding.md R72 to
R74). The variant of CREATE and the lane width of SHUFFLE are part of the command word, so each has a row, and a
constructor, of its own; every other operand comes from a latched argument register (30_encoding.md R75), so no
constructor has an argument. -/

namespace Sys2Proof

/-- A legal command. `p`, `pp` and `ss` stand for the scramblers `+`, `++` and `**`. -/
inductive Instr where
  /-- NOP (41_generator.md R97). -/
  | nop
  /-- CREATE.256+ (41_generator.md R98). -/
  | create256p
  /-- CREATE.256++ (41_generator.md R98). -/
  | create256pp
  /-- CREATE.256** (41_generator.md R98). -/
  | create256ss
  /-- CREATE.512+ (41_generator.md R98). -/
  | create512p
  /-- CREATE.512++ (41_generator.md R98). -/
  | create512pp
  /-- CREATE.512** (41_generator.md R98). -/
  | create512ss
  /-- RELEASE (41_generator.md R102). -/
  | release
  /-- ROLL (42_sampler.md R115). -/
  | roll
  /-- GET_STATE (41_generator.md R103). -/
  | getState
  /-- SET_STATE (41_generator.md R105). -/
  | setState
  /-- SHUFFLE.8 (43_shuffle.md R123). -/
  | shuffle8
  /-- SHUFFLE.16 (43_shuffle.md R123). -/
  | shuffle16
  /-- SHUFFLE.32 (43_shuffle.md R123). -/
  | shuffle32
  /-- SHUFFLE.64 (43_shuffle.md R123). -/
  | shuffle64
  /-- SHUF_INIT (43_shuffle.md R120). -/
  | shufInit
  /-- SHUF_STEP (43_shuffle.md R121). -/
  | shufStep
deriving DecidableEq, Repr

end Sys2Proof
end

