-- ==== Sys2Proof/WellFormed.lean ====
section
/-! DEFINITION. The four fields of a command word (30_encoding.md R70, R71) and the six checks that make them the
fields of a legal command (R72 to R77), each with a name of its own. An `Instr` has no operand, so its own
well-formedness is that of the fields it is encoded with (Sys2Proof/Decode.lean, `Instr.wellFormed`). -/

namespace Sys2Proof

/-- The fields of a command word (30_encoding.md R70). -/
structure CommandFields where
  /-- `OPC`, bits 3:0. -/
  opc : BitVec 4
  /-- `ALG`, bits 7:4. -/
  alg : BitVec 4
  /-- `WCODE`, bits 11:8. -/
  wcode : BitVec 4
  /-- `RSV`, bits 31:12. -/
  rsv : BitVec 20
deriving DecidableEq, Repr

/-- `RSV` must be 0 (30_encoding.md R70). -/
def CommandFields.reservedZero (f : CommandFields) : Bool := f.rsv == 0#20

/-- `OPC` is one of the nine defined codes (30_encoding.md R72). -/
def CommandFields.opcDefined (f : CommandFields) : Bool := f.opc < 0x9#4

/-- `ALG` is 0 on a command other than CREATE (30_encoding.md R77). -/
def CommandFields.algUnused (f : CommandFields) : Bool := f.opc == 0x1#4 || f.alg == 0#4

/-- `WCODE` is 0 on a command other than SHUFFLE (30_encoding.md R77). -/
def CommandFields.wcodeUnused (f : CommandFields) : Bool := f.opc == 0x6#4 || f.wcode == 0#4

/-- The `ALG` of a CREATE is one of the six codes (30_encoding.md R73). -/
def CommandFields.algDefined (f : CommandFields) : Bool :=
  f.opc != 0x1#4 || [0x0#4, 0x1#4, 0x2#4, 0x4#4, 0x5#4, 0x6#4].contains f.alg

/-- The `WCODE` of a SHUFFLE is one of the four codes (30_encoding.md R74). -/
def CommandFields.wcodeDefined (f : CommandFields) : Bool := f.opc != 0x6#4 || f.wcode < 0x4#4

/-- The fields are those of a legal command (30_encoding.md R77). -/
def CommandFields.wellFormed (f : CommandFields) : Bool :=
  f.reservedZero && f.opcDefined && f.algUnused && f.wcodeUnused && f.algDefined && f.wcodeDefined

end Sys2Proof
end

