-- ==== Sys2Proof/Decode.lean ====
section
/-! DEFINITION. The decoder of command words, total on every 32-bit word and rejecting by name (30_encoding.md R71
to R77), and after it the encoder, written from the same tables. -/

namespace Sys2Proof

/-- Why a word is no legal command (30_encoding.md R77). -/
inductive Reject where
  /-- `RSV`, `OPC`, or an unused `ALG` or `WCODE` is wrong: ILLEGAL_COMMAND. -/
  | illegalCommand
  /-- A CREATE whose `ALG` is reserved: the command's own rule raises UNKNOWN_ALGORITHM. -/
  | reservedAlg
  /-- A SHUFFLE whose `WCODE` is reserved: the command's own rule raises INVALID_INPUT, after its handle check. -/
  | reservedWidth
deriving DecidableEq, Repr

/-- Field extraction (30_encoding.md R71). -/
def fieldsOf (c : Word32) : CommandFields :=
  { opc := c.extractLsb' 0 4, alg := c.extractLsb' 4 4, wcode := c.extractLsb' 8 4, rsv := c.extractLsb' 12 20 }

/-- The CREATE of an algorithm code (30_encoding.md R73). -/
def decodeCreate (alg : BitVec 4) : Except Reject Instr :=
  match alg with
  | 0x0#4 => .ok .create256p
  | 0x1#4 => .ok .create256pp
  | 0x2#4 => .ok .create256ss
  | 0x4#4 => .ok .create512p
  | 0x5#4 => .ok .create512pp
  | 0x6#4 => .ok .create512ss
  | _ => .error .reservedAlg

/-- The SHUFFLE of an element-width code (30_encoding.md R74). -/
def decodeShuffle (wcode : BitVec 4) : Except Reject Instr :=
  match wcode with
  | 0x0#4 => .ok .shuffle8
  | 0x1#4 => .ok .shuffle16
  | 0x2#4 => .ok .shuffle32
  | 0x3#4 => .ok .shuffle64
  | _ => .error .reservedWidth

/-- The command of an operation code (30_encoding.md R72), the other fields being checked before. -/
def decodeCommand (f : CommandFields) : Except Reject Instr :=
  match f.opc with
  | 0x0#4 => .ok .nop
  | 0x1#4 => decodeCreate f.alg
  | 0x2#4 => .ok .release
  | 0x3#4 => .ok .roll
  | 0x4#4 => .ok .getState
  | 0x5#4 => .ok .setState
  | 0x6#4 => decodeShuffle f.wcode
  | 0x7#4 => .ok .shufInit
  | 0x8#4 => .ok .shufStep
  | _ => .error .illegalCommand

/-- Decoding, its checks in the order of 30_encoding.md R76. -/
def decodeFields (f : CommandFields) : Except Reject Instr :=
  if f.rsv ≠ 0#20 then .error .illegalCommand
  else if 0x9#4 ≤ f.opc then .error .illegalCommand
  else if f.opc ≠ 0x1#4 ∧ f.alg ≠ 0#4 then .error .illegalCommand
  else if f.opc ≠ 0x6#4 ∧ f.wcode ≠ 0#4 then .error .illegalCommand
  else decodeCommand f

/-- The decoder of a latched command word (30_encoding.md R76). -/
def decode (c : Word32) : Except Reject Instr := decodeFields (fieldsOf c)

/-- The instruction the decoder reads from a word whose bits are numbered as spec/opcode_table.json numbers
them: the table's words are the 32-bit command words themselves (30_encoding.md R70). -/
def decodeTableWord (nbits w : Nat) : Option Instr :=
  if w % 2 ^ nbits < 4294967296 then
    match decode (BitVec.ofNat 32 (w % 2 ^ nbits)) with
    | .ok i => some i
    | .error _ => none
  else none

/-- The fields each command is encoded with (30_encoding.md R72 to R74). -/
def instrFields (i : Instr) : CommandFields :=
  match i with
  | .nop => ⟨0x0, 0x0, 0x0, 0⟩
  | .create256p => ⟨0x1, 0x0, 0x0, 0⟩
  | .create256pp => ⟨0x1, 0x1, 0x0, 0⟩
  | .create256ss => ⟨0x1, 0x2, 0x0, 0⟩
  | .create512p => ⟨0x1, 0x4, 0x0, 0⟩
  | .create512pp => ⟨0x1, 0x5, 0x0, 0⟩
  | .create512ss => ⟨0x1, 0x6, 0x0, 0⟩
  | .release => ⟨0x2, 0x0, 0x0, 0⟩
  | .roll => ⟨0x3, 0x0, 0x0, 0⟩
  | .getState => ⟨0x4, 0x0, 0x0, 0⟩
  | .setState => ⟨0x5, 0x0, 0x0, 0⟩
  | .shuffle8 => ⟨0x6, 0x0, 0x0, 0⟩
  | .shuffle16 => ⟨0x6, 0x0, 0x1, 0⟩
  | .shuffle32 => ⟨0x6, 0x0, 0x2, 0⟩
  | .shuffle64 => ⟨0x6, 0x0, 0x3, 0⟩
  | .shufInit => ⟨0x7, 0x0, 0x0, 0⟩
  | .shufStep => ⟨0x8, 0x0, 0x0, 0⟩

/-- The word of four fields (30_encoding.md R70). -/
def wordOfFields (f : CommandFields) : Word32 := f.rsv ++ f.wcode ++ f.alg ++ f.opc

/-- The encoder: the command word of an instruction (30_encoding.md section 2). -/
def encode (i : Instr) : Word32 := wordOfFields (instrFields i)

/-- An instruction is well formed when the fields it is encoded with are those of a legal command. -/
def Instr.wellFormed (i : Instr) : Bool := (instrFields i).wellFormed

end Sys2Proof
end

