-- ==== Sys2Proof/Machine/State.lean ====
section
/-! DEFINITION. The state of the machine as plain data: the engine's registers and hidden latches (10_state.md),
the memory space (20_memory.md R46), the platform's answers to memory accesses (00_scope.md R6), and the moves
the agents will make, which let plain data say who moves next (10_state.md R14, R15). The reasons a step may stop,
and the state right after reset (10_state.md R42). -/

namespace Sys2Proof.Machine

/-- The output scrambler of a variant: bits 1:0 of its `ALG` code (30_encoding.md R73). -/
inductive Scrambler where
  /-- `+`, code 00. -/
  | plus
  /-- `++`, code 01. -/
  | plusPlus
  /-- `**`, code 10. -/
  | starStar
deriving DecidableEq, Repr

/-- The family of a variant: bit 2 of its `ALG` code (30_encoding.md R73). -/
inductive Family where
  /-- The 256-bit family, `WC = 4`. -/
  | f256
  /-- The 512-bit family, `WC = 8`. -/
  | f512
deriving DecidableEq, Repr

/-- `ALG`: one of the six variants (00_scope.md R2, 30_encoding.md R73). -/
structure Alg where
  family : Family
  scrambler : Scrambler
deriving DecidableEq, Repr

/-- The state words `S[0..3]` of a 256-bit variant; `S[4..7]` do not exist (10_state.md R17). -/
structure S256 where
  s0 : Word64
  s1 : Word64
  s2 : Word64
  s3 : Word64
deriving DecidableEq, Repr

/-- The state words `S[0..7]` of a 512-bit variant (10_state.md R17). -/
structure S512 where
  s0 : Word64
  s1 : Word64
  s2 : Word64
  s3 : Word64
  s4 : Word64
  s5 : Word64
  s6 : Word64
  s7 : Word64
deriving DecidableEq, Repr

/-- A generator context: the variant and as many state words as its `word_count` says (10_state.md R16, R17). -/
inductive Ctx where
  /-- A handle of the 256-bit family. -/
  | c256 (scrambler : Scrambler) (s : S256)
  /-- A handle of the 512-bit family. -/
  | c512 (scrambler : Scrambler) (s : S512)
deriving DecidableEq, Repr

/-- `ERRCODE` of a command that ended with an error: the seven codes that are ever produced (60_exceptions.md
R129; 93_implementation_defined.md U15). -/
inductive ErrCode where
  | unknownAlgorithm
  | insufficientSeed
  | invalidInput
  | noHandle
  | illegalCommand
  | range
  | bus
deriving DecidableEq, Repr

/-- The command word and the arguments latched when a command was accepted (10_state.md R39, R43). -/
structure Latched where
  /-- `lat.CMD`. -/
  cmd : Word32
  /-- `lat.ARG_K`. -/
  argK : Word32
  /-- `lat.ADDR`. -/
  addr : Word32
  /-- `lat.LEN`. -/
  len : Word32
deriving DecidableEq, Repr

/-- The direction of a memory access (00_scope.md R6). -/
inductive Dir where
  | read
  | write
deriving DecidableEq, Repr

/-- A memory access the platform answers with a bus error (00_scope.md R6, R11). -/
inductive BusError where
  /-- The access of `n` bytes that starts at `addr`, in direction `dir`. -/
  | access (addr n : Nat) (dir : Dir)
  /-- Every access in direction `dir` that touches one of the `size` bytes from `base`. -/
  | region (base size : Nat) (dir : Dir)
deriving DecidableEq, Repr

/-- The `size` bytes of the memory space from `base`. -/
structure Region where
  base : Nat
  size : Nat
deriving DecidableEq, Repr

/-- One move: of a host, of the platform, or a turn given to the engine (10_state.md R14, R15). -/
inductive Move where
  /-- A host register read of `width` bytes at `offset` in the register window (R15 (a)). -/
  | read (offset : BitVec 8) (width : Nat)
  /-- A host register write of `width` bytes at `offset` in the register window (R15 (b)). -/
  | write (offset : BitVec 8) (width : Nat) (value : Word32)
  /-- A host read of one byte of memory (20_memory.md R64). -/
  | load (addr : Word32)
  /-- A host write of one byte of memory (20_memory.md R61, R64). -/
  | store (addr : Word32) (value : Byte)
  /-- The engine's turn: it completes the accepted command (R15 (c)). -/
  | engine
  /-- The host polls `STATUS` until `BUSY = 0` (30_encoding.md R79, `WAIT`). -/
  | wait
  /-- The platform asserts reset (R15 (d)). -/
  | reset
deriving DecidableEq, Repr

/-- What a host read returned. -/
inductive Seen where
  /-- The value a register read at `offset` returned. -/
  | reg (offset : BitVec 8) (value : Word32)
  /-- The byte a memory read at `addr` returned. -/
  | byte (addr : Word32) (value : Byte)
deriving DecidableEq, Repr

/-- Reasons the machine stops with a fault: there is none. The engine reports every error of a command in `STATUS`
and goes on (60_exceptions.md R134, R136), and a command that never completes leaves the machine running with
`BUSY = 1` (42_sampler.md R112). -/
inductive Fault where
deriving DecidableEq, Repr

/-- Reasons the model has no next state (93_implementation_defined.md, treatment `refuse`). -/
inductive Refusal where
  /-- Raised by an arm of `exec` whose instruction has no meaning yet: none is left. Safe. -/
  | notModelled (mnemonic : String)
  /-- Raised by a host register access that is not an aligned 32-bit access (10_state.md R23, U3). Safe. -/
  | registerAccess
  /-- Raised by a host access to a byte of the busy command's range (20_memory.md R64, U6). Safe. -/
  | busyRange
  /-- Raised by a command whose accessed range covers a device with side effects, and by a host access to a byte
  of one (20_memory.md R48, U5). Safe. -/
  | deviceRange
deriving DecidableEq, Repr

/-- The machine's state. -/
structure State where
  /-- The generator context: `VALID` says that there is one; `ALG`, `WC` and `S` are its own (10_state.md R16 to
  R18). -/
  ctx : Option Ctx
  /-- `CTRL.IE` (10_state.md R24). -/
  ie : Bool
  /-- `STATUS.DONE` (10_state.md R25). -/
  done : Bool
  /-- `STATUS.OVR` (10_state.md R25). -/
  ovr : Bool
  /-- `STATUS.SWP` (10_state.md R25). -/
  swp : Bool
  /-- `STATUS.ERR` (there is a code) and `STATUS.ERRCODE` (10_state.md R25). -/
  err : Option ErrCode
  /-- The latched command: `STATUS.BUSY` says that there is one (10_state.md R25, R39, R43). -/
  lat : Option Latched
  /-- `ARG_K` (10_state.md R29). -/
  argK : Word32
  /-- `ADDR` (10_state.md R30). -/
  addr : Word32
  /-- `LEN` (10_state.md R31). -/
  len : Word32
  /-- `OUT` (10_state.md R32). -/
  out : Word32
  /-- `OUT_J` (10_state.md R33). -/
  outJ : Word32
  /-- `SH_LEN` (10_state.md R34). -/
  shLen : Word32
  /-- `FAULT_ADDR` (10_state.md R36). -/
  faultAddr : Word32
  /-- `ADV_COUNT`, read as `ADV_LO` and `ADV_HI` (10_state.md R35). -/
  adv : Word64
  /-- The memory space (20_memory.md R46): its bytes that are not 0, by rising address. -/
  mem : List Host.Cell
  /-- `MemOk`: the accesses the platform answers with a bus error (00_scope.md R6). No step changes it. -/
  busErrors : List BusError
  /-- Where the platform's devices with side effects lie (20_memory.md R48). No step changes it. -/
  devices : List Region
  /-- The moves to come, the next one first (10_state.md R20: a program is what the host does). -/
  script : List Move
  /-- MODEL'S OWN: what the host's reads have returned, the latest first. -/
  seen : List Seen
  /-- MODEL'S OWN: how many free values have been taken (Sys2Proof/Config.lean). -/
  fresh : Nat
deriving DecidableEq, Repr

/-- The machine right after reset (10_state.md R42), with nothing placed in memory, a platform that answers every
access, and no move to come. -/
def State.reset : State :=
  { ctx := none, ie := false, done := false, ovr := false, swp := false, err := none, lat := none,
    argK := 0#32, addr := 0#32, len := 0#32, out := 0#32, outJ := 0#32, shLen := 0#32, faultAddr := 0#32,
    adv := 0#64, mem := [], busErrors := [], devices := [], script := [], seen := [], fresh := 0 }

end Sys2Proof.Machine
end

