-- ==== Sys2Proof/Machine/Operands.lean ====
section
/-! DEFINITION. The operands of the commands (30_encoding.md R75): the latched arguments, the variant of CREATE, the
lane width of SHUFFLE, the element addresses, and the memory range of a command (20_memory.md R49, R64). -/

namespace Sys2Proof.Machine

/-- `word_count` of a variant (10_state.md R16). -/
def Alg.wc (a : Alg) : Nat :=
  match a.family with
  | .f256 => 4
  | .f512 => 8

/-- The `ALG` code of a variant (30_encoding.md R73). -/
def Alg.code (a : Alg) : BitVec 4 :=
  match a.family, a.scrambler with
  | .f256, .plus => 0x0#4
  | .f256, .plusPlus => 0x1#4
  | .f256, .starStar => 0x2#4
  | .f512, .plus => 0x4#4
  | .f512, .plusPlus => 0x5#4
  | .f512, .starStar => 0x6#4

/-- The variant of a context (10_state.md R16). -/
def Ctx.alg (c : Ctx) : Alg :=
  match c with
  | .c256 scr _ => ⟨.f256, scr⟩
  | .c512 scr _ => ⟨.f512, scr⟩

/-- The state words in index order (10_state.md R17). -/
def Ctx.words (c : Ctx) : List Word64 :=
  match c with
  | .c256 _ s => [s.s0, s.s1, s.s2, s.s3]
  | .c512 _ s => [s.s0, s.s1, s.s2, s.s3, s.s4, s.s5, s.s6, s.s7]

/-- The seed and state length in bytes, `WC * 8` (00_scope.md R6). -/
def Alg.stateBytes (a : Alg) : Nat := a.wc * 8

/-- What acceptance latches beside the command word (10_state.md R43). -/
def State.latch (s : State) (c : Word32) : Latched := ⟨c, s.argK, s.addr, s.len⟩

/-- `lat.*` (00_scope.md R10). In a state with no latched command, which only a direct use of `exec` can ask about,
they are what acceptance would latch now. DESIGN CHOICE, safe (notes/assumptions/7.md). -/
def State.args (s : State) : Latched := s.lat.getD (s.latch 0#32)

/-- Element `m`'s address in a sequence of `w`-byte elements from `base` (43_shuffle.md R123). -/
def elementAddress (base w : Nat) (m : Word32) : Nat := base + m.toNat * w

/-- The range check, in unbounded integers (20_memory.md R49). -/
def fitsSpace (base n : Nat) : Bool := base + n ≤ Config.addressLimit

/-- The variant a CREATE command word names (30_encoding.md R73). -/
def createAlg (i : Instr) : Option Alg :=
  match i with
  | .create256p => some ⟨.f256, .plus⟩
  | .create256pp => some ⟨.f256, .plusPlus⟩
  | .create256ss => some ⟨.f256, .starStar⟩
  | .create512p => some ⟨.f512, .plus⟩
  | .create512pp => some ⟨.f512, .plusPlus⟩
  | .create512ss => some ⟨.f512, .starStar⟩
  | .nop | .release | .roll | .getState | .setState | .shuffle8 | .shuffle16 | .shuffle32 | .shuffle64
  | .shufInit | .shufStep => none

/-- The element width in bytes a SHUFFLE command word names, `2^WCODE` (30_encoding.md R74). -/
def shuffleWidth (i : Instr) : Option Nat :=
  match i with
  | .shuffle8 => some 1
  | .shuffle16 => some 2
  | .shuffle32 => some 4
  | .shuffle64 => some 8
  | .nop | .create256p | .create256pp | .create256ss | .create512p | .create512pp | .create512ss | .release
  | .roll | .getState | .setState | .shufInit | .shufStep => none

/-- The first address and the size of the range a command writes: GET_STATE's image and SHUFFLE's buffer
(20_memory.md R47, R64). A GET_STATE with no handle, whose `WC` holds no value (10_state.md R18), has none: DESIGN
CHOICE for what the host must not touch (log entry 22), DEDUCED for what a reset leaves unspecified (log entry 10). -/
def State.writtenRange (s : State) (i : Instr) : Option (Nat × Nat) :=
  match i with
  | .getState => s.ctx.map fun c => (s.args.addr.toNat, c.alg.stateBytes)
  | .shuffle8 | .shuffle16 | .shuffle32 | .shuffle64 =>
    (shuffleWidth i).map fun w => (s.args.addr.toNat, s.args.len.toNat * w)
  | .nop | .create256p | .create256pp | .create256ss | .create512p | .create512pp | .create512ss | .release
  | .roll | .setState | .shufInit | .shufStep => none

/-- The first address and the size of the range a command reads only: CREATE's seed and SET_STATE's image
(20_memory.md R47, R64). DESIGN CHOICE (log entry 22): a SET_STATE with no handle, whose `WC` holds no value
(10_state.md R18), has none. -/
def State.readRange (s : State) (i : Instr) : Option (Nat × Nat) :=
  match i with
  | .setState => s.ctx.map fun c => (s.args.addr.toNat, c.alg.stateBytes)
  | .create256p | .create256pp | .create256ss | .create512p | .create512pp | .create512ss =>
    (createAlg i).map fun a => (s.args.addr.toNat, a.stateBytes)
  | .nop | .release | .roll | .getState | .shuffle8 | .shuffle16 | .shuffle32 | .shuffle64 | .shufInit
  | .shufStep => none

/-- The range of the busy command that reset leaves unspecified (70_reset_and_hazards.md R145). DEDUCED (log entry 10):
a command with no `WC` or no `W`, and a word that is no legal command, has none. -/
def State.busyWrittenRange (s : State) : Option (Nat × Nat) :=
  match s.lat with
  | none => none
  | some l =>
    match decode l.cmd with
    | .error _ => none
    | .ok i => s.writtenRange i

/-- The range of the busy command, which the host must not touch (20_memory.md R64). DESIGN CHOICE (log entry 22;
unsafe): where R64 states no range, no byte is excluded. That is so for a GET_STATE or SET_STATE with no handle,
whose `WC` holds no value (10_state.md R18), for a SHUFFLE or CREATE with a reserved `WCODE` or `ALG`, and for a word
that is no legal command. -/
def State.busyRange (s : State) : Option (Nat × Nat) :=
  match s.lat with
  | none => none
  | some l =>
    match decode l.cmd with
    | .error _ => none
    | .ok i => (s.writtenRange i).or (s.readRange i)

/-- The address is in the range. -/
def inRange (r : Option (Nat × Nat)) (a : Nat) : Bool :=
  match r with
  | none => false
  | some (base, size) => base ≤ a && a < base + size

end Sys2Proof.Machine
end

