-- ==== Sys2Proof/Machine/Ops.lean ====
section
/-! DEFINITION. The named operations over memory and registers: one byte and byte strings of memory, the platform's
answer to an access, the engine's `MemRead` and `MemWrite` (00_scope.md R11), the byte order of a state word (R12),
the acceptance of a command (10_state.md R43), and how a command ends (10_state.md R45): `complete`, or taking an
error, the one shared operation of 60_exceptions.md R134. -/

namespace Sys2Proof.Machine

/-! ### Memory as data -/

/-- The byte at an address; a byte that is not listed reads 0. DESIGN CHOICE, unsafe (notes/assumptions/1.md). -/
def readByte (mem : List Host.Cell) (a : Nat) : Byte :=
  match mem with
  | [] => 0#8
  | (a', b) :: rest => if a = a' then b else readByte rest a

/-- Memory with one byte written, in canonical form: addresses rise and no listed byte is 0. -/
def writeByte (mem : List Host.Cell) (a : Nat) (b : Byte) : List Host.Cell :=
  match mem with
  | [] => if b = 0#8 then [] else [(a, b)]
  | (a', b') :: rest =>
    if a < a' then (if b = 0#8 then (a', b') :: rest else (a, b) :: (a', b') :: rest)
    else if a = a' then (if b = 0#8 then rest else (a, b) :: rest)
    else (a', b') :: writeByte rest a b

/-- The `n` bytes from an address, the lowest address first (00_scope.md R11). -/
def readBytes (mem : List Host.Cell) (a n : Nat) : List Byte :=
  match n with
  | 0 => []
  | k + 1 => readByte mem a :: readBytes mem (a + 1) k

/-- Memory with a byte string written, byte `i` at `a + i` (00_scope.md R11). -/
def writeBytes (mem : List Host.Cell) (a : Nat) (bs : List Byte) : List Host.Cell :=
  match bs with
  | [] => mem
  | b :: rest => writeBytes (writeByte mem a b) (a + 1) rest

/-- Every listed address is above `lo`, they rise, and no listed byte is 0. -/
def memWfFrom (lo : Nat) (mem : List Host.Cell) : Bool :=
  match mem with
  | [] => true
  | (a, b) :: rest => lo ≤ a && b != 0#8 && memWfFrom (a + 1) rest

/-- The canonical form of memory: addresses strictly rising, no entry equal to what an unlisted byte reads as. -/
def memWf (mem : List Host.Cell) : Bool := memWfFrom 0 mem

/-- Every listed address is in the memory space (20_memory.md R46). -/
def memInSpace (mem : List Host.Cell) : Bool := mem.all fun c => c.1 < Config.addressLimit

/-! ### The platform -/

/-- Two byte ranges have a byte in common. -/
def overlaps (a n b m : Nat) : Bool := a < b + m && b < a + n

/-- The entry makes the platform answer this access with a bus error. -/
def denies (e : BusError) (a n : Nat) (d : Dir) : Bool :=
  match e with
  | .access a' n' d' => a == a' && n == n' && d == d'
  | .region base size d' => overlaps a n base size && d == d'

/-- `MemOk(addr, n, dir)` (00_scope.md R6). -/
def State.memOk (s : State) (a n : Nat) (d : Dir) : Bool := !(s.busErrors.any fun e => denies e a n d)

/-- The range covers a byte of a device with side effects (20_memory.md R48). -/
def State.coversDevice (s : State) (a n : Nat) : Bool := s.devices.any fun r => overlaps a n r.base r.size

/-! ### Byte order -/

/-- `BE64`: byte 0 most significant (00_scope.md R12, 20_memory.md R50). -/
def be64 (bs : List Byte) : Word64 := bs.foldl (fun acc b => acc * 256#64 + b.setWidth 64) 0#64

/-- `BEbytes` (00_scope.md R12, 20_memory.md R51). -/
def beBytes (w : Word64) : List Byte :=
  [w.extractLsb' 56 8, w.extractLsb' 48 8, w.extractLsb' 40 8, w.extractLsb' 32 8, w.extractLsb' 24 8,
    w.extractLsb' 16 8, w.extractLsb' 8 8, w.extractLsb' 0 8]

/-! ### How a command ends -/

/-- An error a command raises, with its info (00_scope.md R13, 60_exceptions.md R129). -/
inductive Err where
  | unknownAlgorithm
  | insufficientSeed
  | invalidInput
  | noHandle
  | illegalCommand
  | range (a : Word32)
  | bus (a : Word32)
deriving DecidableEq, Repr

/-- What an error leaves in `STATUS.ERRCODE` (60_exceptions.md R129). -/
def errCodeOf (e : Err) : ErrCode :=
  match e with
  | .unknownAlgorithm => .unknownAlgorithm
  | .insufficientSeed => .insufficientSeed
  | .invalidInput => .invalidInput
  | .noHandle => .noHandle
  | .illegalCommand => .illegalCommand
  | .range _ => .range
  | .bus _ => .bus

/-- What an error leaves in `FAULT_ADDR`: RANGE and BUS write it, no other error does (60_exceptions.md R134). -/
def faultAddrOf (e : Err) (old : Word32) : Word32 :=
  match e with
  | .range a => a
  | .bus a => a
  | .unknownAlgorithm => old
  | .insufficientSeed => old
  | .invalidInput => old
  | .noHandle => old
  | .illegalCommand => old

/-- How a command's rule ends (00_scope.md R13, 10_state.md R45). -/
inductive Ending where
  /-- `complete`, with the command's effects in the state. -/
  | complete (s : State)
  /-- `raise E(info)`, with the effects that stay. -/
  | raise (e : Err) (s : State)
  /-- The rejection loop never accepts a draw (42_sampler.md R112). -/
  | never
  /-- The model has no transition. -/
  | refuse (r : Refusal)

/-- Completion without error (10_state.md R45): `BUSY` falls and `DONE` rises; no error is reported. -/
def State.completed (s : State) : State := { s with lat := none, done := true, err := none }

/-- TAKING AN ERROR (10_state.md R45, 60_exceptions.md R134): `BUSY` falls, `DONE` and `ERR` rise, `ERRCODE` is the
error's, and `FAULT_ADDR` its address where it has one. -/
def State.raised (s : State) (e : Err) : State :=
  { s with lat := none, done := true, err := some (errCodeOf e), faultAddr := faultAddrOf e s.faultAddr }

/-- The outcome of a completion step whose rule ended so. A rule that never ends leaves the engine busy, and the
state as it is, for ever (42_sampler.md R112; notes/assumptions/6.md). -/
def finish (s : State) (e : Ending) : Host.Outcome State Fault Refusal :=
  match e with
  | .complete t => .next t.completed
  | .raise err t => .next (t.raised err)
  | .never => .next s
  | .refuse r => .refused r

/-- `STATUS.BUSY` (10_state.md R25): a command is latched. -/
def State.busy (s : State) : Bool := s.lat.isSome

/-- Acceptance of a command word by an idle engine (10_state.md R43). -/
def State.accept (s : State) (c : Word32) : State :=
  { s with lat := some (s.latch c), done := false, err := none }

/-! ### The engine's memory port -/

/-- The `n` bytes from `a` become free values (93_implementation_defined.md U7, U8, U10). -/
def State.scramble (s : State) (a n : Nat) : State :=
  match n with
  | 0 => s
  | k + 1 =>
    State.scramble { s with mem := writeByte s.mem a (Config.freeByte s.fresh), fresh := s.fresh + 1 } (a + 1) k

/-- `MemRead` (00_scope.md R11): the bytes, or a bus error at the access's first address. -/
def State.memRead (s : State) (a n : Nat) : Except Err (List Byte) :=
  if s.memOk a n .read then .ok (readBytes s.mem a n) else .error (.bus (BitVec.ofNat 32 a))

/-- `MemWrite` (00_scope.md R11): the state with the bytes written, or a bus error at the access's first address
with those bytes left unspecified (93_implementation_defined.md U7, U10). -/
def State.memWrite (s : State) (a : Nat) (bs : List Byte) : Except (Err × State) State :=
  if s.memOk a bs.length .write then .ok { s with mem := writeBytes s.mem a bs }
  else .error (.bus (BitVec.ofNat 32 a), s.scramble a bs.length)

/-- State words read from memory into the shadow buffer, in ascending address order; the first bus error ends it
(20_memory.md R50, R56; 41_generator.md R98, R105). -/
def State.readWords (s : State) (a n : Nat) : Except Err (List Word64) :=
  match n with
  | 0 => .ok []
  | k + 1 =>
    match s.memRead a 8 with
    | .error e => .error e
    | .ok bs =>
      match State.readWords s (a + 8) k with
      | .error e => .error e
      | .ok ws => .ok (be64 bs :: ws)

/-- The context of a variant and its `WC` state words (10_state.md R16, R17). -/
def ctxOfWords (alg : Alg) (ws : List Word64) : Ctx :=
  match alg.family with
  | .f256 => .c256 alg.scrambler ⟨ws.getD 0 0, ws.getD 1 0, ws.getD 2 0, ws.getD 3 0⟩
  | .f512 => .c512 alg.scrambler
      ⟨ws.getD 0 0, ws.getD 1 0, ws.getD 2 0, ws.getD 3 0, ws.getD 4 0, ws.getD 5 0, ws.getD 6 0, ws.getD 7 0⟩

/-- State words written to memory in ascending address order (20_memory.md R51, R56); a bus error ends it with the
words before it written, its own bytes unspecified and the words after it not written (41_generator.md R104). -/
def State.writeWords (s : State) (a : Nat) (ws : List Word64) : Except (Err × State) State :=
  match ws with
  | [] => .ok s
  | w :: rest =>
    match s.memWrite a (beBytes w) with
    | .ok t => State.writeWords t (a + 8) rest
    | .error e => .error e

end Sys2Proof.Machine
end

