-- ==== Sys2Proof/Machine/Context.lean ====
section
/-! DEFINITION. The generator context commands (41_generator.md): NOP, the six CREATE, RELEASE, GET_STATE and
SET_STATE. -/

namespace Sys2Proof.Machine

/-- NOP (41_generator.md R97). -/
def execNop (s : State) : Host.Outcome State Fault Refusal := finish s (.complete s)

/-- CREATE of a defined variant (41_generator.md R98), its checks in the order of 60_exceptions.md R133; nothing
changes before every read has succeeded (R99). -/
def create (alg : Alg) (s : State) : Ending :=
  if s.args.len.toNat < alg.stateBytes then .raise .insufficientSeed s
  else if !fitsSpace s.args.addr.toNat alg.stateBytes then .raise (.range s.args.addr) s
  else if s.coversDevice s.args.addr.toNat alg.stateBytes then .refuse .deviceRange
  else
    match s.readWords s.args.addr.toNat alg.wc with
    | .error e => .raise e s
    | .ok ws => .complete { s with ctx := some (ctxOfWords alg ws), adv := 0#64, shLen := 0#32, swp := false }

/-- CREATE.256+ (41_generator.md R98). -/
def execCreate256p (s : State) : Host.Outcome State Fault Refusal := finish s (create ⟨.f256, .plus⟩ s)

/-- CREATE.256++ (41_generator.md R98). -/
def execCreate256pp (s : State) : Host.Outcome State Fault Refusal := finish s (create ⟨.f256, .plusPlus⟩ s)

/-- CREATE.256** (41_generator.md R98). -/
def execCreate256ss (s : State) : Host.Outcome State Fault Refusal := finish s (create ⟨.f256, .starStar⟩ s)

/-- CREATE.512+ (41_generator.md R98). -/
def execCreate512p (s : State) : Host.Outcome State Fault Refusal := finish s (create ⟨.f512, .plus⟩ s)

/-- CREATE.512++ (41_generator.md R98). -/
def execCreate512pp (s : State) : Host.Outcome State Fault Refusal := finish s (create ⟨.f512, .plusPlus⟩ s)

/-- CREATE.512** (41_generator.md R98). -/
def execCreate512ss (s : State) : Host.Outcome State Fault Refusal := finish s (create ⟨.f512, .starStar⟩ s)

/-- RELEASE's rule (41_generator.md R102). -/
def release (s : State) : Ending :=
  match s.ctx with
  | none => .raise .noHandle s
  | some _ => .complete { s with ctx := none, shLen := 0#32, swp := false }

/-- RELEASE (41_generator.md R102). -/
def execRelease (s : State) : Host.Outcome State Fault Refusal := finish s (release s)

/-- GET_STATE's rule (41_generator.md R103, R104). -/
def getState (s : State) : Ending :=
  match s.ctx with
  | none => .raise .noHandle s
  | some c =>
    if !fitsSpace s.args.addr.toNat c.alg.stateBytes then .raise (.range s.args.addr) s
    else if s.coversDevice s.args.addr.toNat c.alg.stateBytes then .refuse .deviceRange
    else
      match s.writeWords s.args.addr.toNat c.words with
      | .error (e, t) => .raise e t
      | .ok t => .complete t

/-- GET_STATE (41_generator.md R103). -/
def execGetState (s : State) : Host.Outcome State Fault Refusal := finish s (getState s)

/-- SET_STATE's rule (41_generator.md R105): `S` changes when every read has succeeded, and nothing else does. -/
def setState (s : State) : Ending :=
  match s.ctx with
  | none => .raise .noHandle s
  | some c =>
    if s.args.len.toNat < c.alg.stateBytes then .raise .insufficientSeed s
    else if !fitsSpace s.args.addr.toNat c.alg.stateBytes then .raise (.range s.args.addr) s
    else if s.coversDevice s.args.addr.toNat c.alg.stateBytes then .refuse .deviceRange
    else
      match s.readWords s.args.addr.toNat c.alg.wc with
      | .error e => .raise e s
      | .ok ws => .complete { s with ctx := some (ctxOfWords c.alg ws) }

/-- SET_STATE (41_generator.md R105). -/
def execSetState (s : State) : Host.Outcome State Fault Refusal := finish s (setState s)

end Sys2Proof.Machine
end

