-- ==== Sys2Proof/Machine/Mixing.lean ====
section
/-! DEFINITION. The state-mixing engine (40_mixing.md): the two state updates, the six output functions, and the
mixing step. -/

namespace Sys2Proof.Machine

/-- `rotl(x, n)` for `0 < n < 64` (00_scope.md R8). -/
def rotl (x : Word64) (n : Nat) : Word64 := (x <<< n) ||| (x >>> (64 - n))

/-- `low32` (00_scope.md R9, 40_mixing.md R92). -/
def low32 (v : Word64) : Word32 := v.setWidth 32

/-- `Upd256`, its statements in the order of 40_mixing.md R83; each name is a word's value after its last
assignment so far. -/
def upd256 (s : S256) : S256 :=
  let t := s.s1 <<< 17
  let s2 := s.s2 ^^^ s.s0
  let s3 := s.s3 ^^^ s.s1
  let s1 := s.s1 ^^^ s2
  let s0 := s.s0 ^^^ s3
  let s2 := s2 ^^^ t
  let s3 := rotl s3 45
  ⟨s0, s1, s2, s3⟩

/-- `Upd512`, its statements in the order of 40_mixing.md R84. -/
def upd512 (s : S512) : S512 :=
  let t := s.s1 <<< 11
  let s2 := s.s2 ^^^ s.s0
  let s5 := s.s5 ^^^ s.s1
  let s1 := s.s1 ^^^ s2
  let s7 := s.s7 ^^^ s.s3
  let s3 := s.s3 ^^^ s.s4
  let s4 := s.s4 ^^^ s5
  let s0 := s.s0 ^^^ s.s6
  let s6 := s.s6 ^^^ s7
  let s6 := s6 ^^^ t
  let s7 := rotl s7 21
  ⟨s0, s1, s2, s3, s4, s5, s6, s7⟩

/-- The output functions of the 256-bit family (40_mixing.md R86 to R88), of the words before the update (R82). -/
def out256 (scr : Scrambler) (s : S256) : Word64 :=
  match scr with
  | .plus => s.s0 + s.s3
  | .plusPlus => rotl (s.s0 + s.s3) 23 + s.s0
  | .starStar => rotl (s.s1 * 5#64) 7 * 9#64

/-- The output functions of the 512-bit family (40_mixing.md R89 to R91), of the words before the update (R82). -/
def out512 (scr : Scrambler) (s : S512) : Word64 :=
  match scr with
  | .plus => s.s0 + s.s2
  | .plusPlus => rotl (s.s0 + s.s2) 17 + s.s2
  | .starStar => rotl (s.s1 * 5#64) 7 * 9#64

/-- `Out_ALG(S)` (40_mixing.md R81). -/
def Ctx.output (c : Ctx) : Word64 :=
  match c with
  | .c256 scr s => out256 scr s
  | .c512 scr s => out512 scr s

/-- `Upd_family(ALG)(S)` (40_mixing.md R81, R85). -/
def Ctx.update (c : Ctx) : Ctx :=
  match c with
  | .c256 scr s => .c256 scr (upd256 s)
  | .c512 scr s => .c512 scr (upd512 s)

/-- What the mixing step reads and writes: the context and `ADV_COUNT` (40_mixing.md R81). -/
structure Gen where
  ctx : Ctx
  adv : Word64
deriving DecidableEq, Repr

/-- The raw output of the next mixing step (40_mixing.md R81, R92). -/
def Gen.raw (g : Gen) : Word32 := low32 g.ctx.output

/-- The generator after one mixing step (40_mixing.md R81). -/
def Gen.advance (g : Gen) : Gen := ⟨g.ctx.update, g.adv + 1#64⟩

/-- The mixing step `Mix()` (40_mixing.md R81). -/
def mix (g : Gen) : Word32 × Gen := (g.raw, g.advance)

end Sys2Proof.Machine
end

