-- ==== Sys2Proof/Machine/Sampler.lean ====
section
/-! DEFINITION. The bounded rejection sampler and ROLL (42_sampler.md). -/

namespace Sys2Proof.Machine

/-- `bound = 2^32 - (2^32 mod k)`, exact (42_sampler.md R110). -/
def rollBound (k : Word32) : Nat := 4294967296 - 4294967296 % k.toNat

/-- The rejection loop for `k > 0` (42_sampler.md R108), trying at most `fuel` draws; `none` is "no completion",
never a value (R112). -/
def rollLoop (fuel : Nat) (k : Word32) (g : Gen) : Option (Word32 × Gen) :=
  match fuel with
  | 0 => none
  | n + 1 =>
    if g.raw.toNat < rollBound k then some (g.raw % k, g.advance) else rollLoop n k g.advance

/-- `Roll(k)` (42_sampler.md R108, R109); `none` when no draw is ever accepted (R112). -/
def roll (k : Word32) (g : Gen) : Option (Word32 × Gen) :=
  if k = 0#32 then some (mix g) else rollLoop Config.drawFuel k g

/-- ROLL's rule (42_sampler.md R115). -/
def rollCommand (s : State) : Ending :=
  match s.ctx with
  | none => .raise .noHandle s
  | some c =>
    match roll s.args.argK ⟨c, s.adv⟩ with
    | none => .never
    | some (r, g) => .complete { s with out := r, ctx := some g.ctx, adv := g.adv }

/-- ROLL (42_sampler.md R115); with `k = 0` it is the pseudo-instruction ADVANCE (R117). -/
def execRoll (s : State) : Host.Outcome State Fault Refusal := finish s (rollCommand s)

end Sys2Proof.Machine
end

