-- ==== Sys2Proof/Machine/Shuffle.lean ====
section
/-! DEFINITION. The Fisher–Yates shuffle controller (43_shuffle.md): the shuffle step, stream mode (SHUF_INIT,
SHUF_STEP) and memory mode (SHUFFLE). -/

namespace Sys2Proof.Machine

/-- `ShufStep()` (43_shuffle.md R119), for `SH_LEN >= 2`; `r` and `j` are then `OUT` and `OUT_J`. `none` when its
`Roll` never ends. `SH_LEN` is the caller's to decrement. -/
def shufStep (c : Ctx) (s : State) : Option (Ctx × State) :=
  match roll s.shLen ⟨c, s.adv⟩ with
  | none => none
  | some (r, g) =>
    some (g.ctx, { s with
      ctx := some g.ctx, adv := g.adv, out := r, outJ := s.shLen - 1#32, swp := r != s.shLen - 1#32 })

/-- SHUF_INIT's rule (43_shuffle.md R120). -/
def shufInit (s : State) : Ending :=
  match s.ctx with
  | none => .raise .noHandle s
  | some _ => .complete { s with shLen := s.args.len, swp := false }

/-- SHUF_INIT (43_shuffle.md R120). -/
def execShufInit (s : State) : Host.Outcome State Fault Refusal := finish s (shufInit s)

/-- SHUF_STEP's rule (43_shuffle.md R121). -/
def shufStepCommand (s : State) : Ending :=
  match s.ctx with
  | none => .raise .noHandle s
  | some c =>
    if s.shLen < 2#32 then .complete { s with swp := false }
    else
      match shufStep c s with
      | none => .never
      | some (_, t) => .complete { t with shLen := t.outJ }

/-- SHUF_STEP (43_shuffle.md R121). -/
def execShufStep (s : State) : Host.Outcome State Fault Refusal := finish s (shufStepCommand s)

/-- `Swap(Ar, Aj, W)`: two reads, then two writes (43_shuffle.md R124). -/
def swap (s : State) (ar aj w : Nat) : Except (Err × State) State :=
  match s.memRead ar w with
  | .error e => .error (e, s)
  | .ok a =>
    match s.memRead aj w with
    | .error e => .error (e, s)
    | .ok b =>
      match s.memWrite ar b with
      | .error e => .error e
      | .ok t => t.memWrite aj a

/-- The loop of SHUFFLE (43_shuffle.md R123) over a buffer at `base` of `w`-byte elements: `while SH_LEN >= 2`.
Every round decrements `SH_LEN`, so `SH_LEN` rounds are enough. A bus error leaves `SH_LEN` as it is (R125). -/
def shuffleLoop (base w : Nat) (rounds : Nat) (c : Ctx) (s : State) : Ending :=
  match rounds with
  | 0 => .complete s
  | n + 1 =>
    if s.shLen < 2#32 then .complete s
    else
      match shufStep c s with
      | none => .never
      | some (c', t) =>
        if t.out = t.outJ then shuffleLoop base w n c' { t with shLen := t.outJ }
        else
          match swap t (elementAddress base w t.out) (elementAddress base w t.outJ) w with
          | .error (e, u) => .raise e u
          | .ok u => shuffleLoop base w n c' { u with shLen := t.outJ }

/-- SHUFFLE's rule for a defined lane width of `w` bytes (43_shuffle.md R123). A buffer of fewer than two elements
is not accessed, so no device can be in the way of one (notes/assumptions/3.md). -/
def shuffle (w : Nat) (s : State) : Ending :=
  match s.ctx with
  | none => .raise .noHandle s
  | some c =>
    if !fitsSpace s.args.addr.toNat (s.args.len.toNat * w) then .raise (.range s.args.addr) s
    else if 2#32 ≤ s.args.len && s.coversDevice s.args.addr.toNat (s.args.len.toNat * w) then
      .refuse .deviceRange
    else
      shuffleLoop s.args.addr.toNat w s.args.len.toNat c { s with shLen := s.args.len, swp := false }

/-- SHUFFLE.8 (43_shuffle.md R123). -/
def execShuffle8 (s : State) : Host.Outcome State Fault Refusal := finish s (shuffle 1 s)

/-- SHUFFLE.16 (43_shuffle.md R123). -/
def execShuffle16 (s : State) : Host.Outcome State Fault Refusal := finish s (shuffle 2 s)

/-- SHUFFLE.32 (43_shuffle.md R123). -/
def execShuffle32 (s : State) : Host.Outcome State Fault Refusal := finish s (shuffle 4 s)

/-- SHUFFLE.64 (43_shuffle.md R123). -/
def execShuffle64 (s : State) : Host.Outcome State Fault Refusal := finish s (shuffle 8 s)

end Sys2Proof.Machine
end

