-- ==== Sys2Proof/Machine/Dispatch.lean ====
section
/-! DEFINITION. The meaning of each command: one arm per constructor (10_state.md R45). -/

namespace Sys2Proof.Machine

def exec (i : Instr) (s : State) : Host.Outcome State Fault Refusal :=
  match i with
  | .nop => Sys2Proof.Machine.execNop s
  | .create256p => Sys2Proof.Machine.execCreate256p s
  | .create256pp => Sys2Proof.Machine.execCreate256pp s
  | .create256ss => Sys2Proof.Machine.execCreate256ss s
  | .create512p => Sys2Proof.Machine.execCreate512p s
  | .create512pp => Sys2Proof.Machine.execCreate512pp s
  | .create512ss => Sys2Proof.Machine.execCreate512ss s
  | .release => Sys2Proof.Machine.execRelease s
  | .roll => Sys2Proof.Machine.execRoll s
  | .getState => Sys2Proof.Machine.execGetState s
  | .setState => Sys2Proof.Machine.execSetState s
  | .shuffle8 => Sys2Proof.Machine.execShuffle8 s
  | .shuffle16 => Sys2Proof.Machine.execShuffle16 s
  | .shuffle32 => Sys2Proof.Machine.execShuffle32 s
  | .shuffle64 => Sys2Proof.Machine.execShuffle64 s
  | .shufInit => Sys2Proof.Machine.execShufInit s
  | .shufStep => Sys2Proof.Machine.execShufStep s

end Sys2Proof.Machine
end

