-- ==== Sys2Proof/Machine/Engine.lean ====
section
/-! DEFINITION. The engine's turn: it decodes the latched word and completes the command (10_state.md R45), the
words the decoder rejects among them (30_encoding.md R77). -/

namespace Sys2Proof.Machine

/-- The completion of a word that is no legal command (30_encoding.md R77): a reserved lane width is reported after
the handle check SHUFFLE makes first (43_shuffle.md R123, 60_exceptions.md R133). -/
def rejected (r : Reject) (s : State) : Ending :=
  match r with
  | .illegalCommand => .raise .illegalCommand s
  | .reservedAlg => .raise .unknownAlgorithm s
  | .reservedWidth =>
    match s.ctx with
    | none => .raise .noHandle s
    | some _ => .raise .invalidInput s

/-- The engine's turn (10_state.md R15 (c), R45): a busy engine completes its command; an idle one rests
(60_exceptions.md R143). -/
def engineTurn (s : State) : Host.Outcome State Fault Refusal :=
  match s.lat with
  | none => .next s
  | some l =>
    match decode l.cmd with
    | .ok i => exec i s
    | .error r => finish s (rejected r s)

end Sys2Proof.Machine
end

