-- ==== Sys2Proof/Machine/Flags.lean ====
section
/-! DEFINITION. The flags and the status words (10_state.md R24 to R26, R37, R38), the interrupt line
(60_exceptions.md R132) and the fields a host write to `STATUS` clears. The engine has no arithmetic condition
codes (R38). -/

namespace Sys2Proof.Machine

/-- The number of an error code (60_exceptions.md R129). -/
def ErrCode.code (e : ErrCode) : BitVec 4 :=
  match e with
  | .unknownAlgorithm => 1#4
  | .insufficientSeed => 2#4
  | .invalidInput => 3#4
  | .noHandle => 4#4
  | .illegalCommand => 5#4
  | .range => 6#4
  | .bus => 7#4

/-- `STATUS.SEQ_END`, derived from `SH_LEN` at every read (10_state.md R37). -/
def State.seqEnd (s : State) : Bool := s.shLen < 2#32

/-- `STATUS.ERRCODE`, 0 when there is no error (10_state.md R25). -/
def State.errCode (s : State) : BitVec 4 :=
  match s.err with
  | none => 0#4
  | some e => e.code

/-- The layout of `STATUS` (10_state.md R25). -/
def statusLayout (code : BitVec 4) (seqEnd swp ovr err done busy : Bool) : Word32 :=
  0#20 ++ code ++ 0#2 ++ BitVec.ofBool seqEnd ++ BitVec.ofBool swp ++ BitVec.ofBool ovr ++ BitVec.ofBool err
    ++ BitVec.ofBool done ++ BitVec.ofBool busy

/-- `STATUS` as an idle engine shows it (10_state.md R25). -/
def State.status (s : State) : Word32 :=
  statusLayout s.errCode s.seqEnd s.swp s.ovr s.err.isSome s.done s.busy

/-- `STATUS` as a busy engine shows it: `SWP` and `SEQ_END` are bits 4 and 5 of a free value (10_state.md R41). -/
def State.busyStatus (s : State) (free : Word32) : Word32 :=
  statusLayout s.errCode (free.getLsbD 5) (free.getLsbD 4) s.ovr s.err.isSome s.done s.busy

/-- `CTRL` (10_state.md R24). -/
def State.ctrl (s : State) : Word32 := 0#31 ++ BitVec.ofBool s.ie

/-- `HANDLE` (10_state.md R26). -/
def State.handle (s : State) : Word32 :=
  match s.ctx with
  | none => 0#32
  | some c => 0#20 ++ BitVec.ofNat 4 c.alg.wc ++ c.alg.code ++ 0#3 ++ 1#1

/-- A host write to `CTRL` (10_state.md R24). -/
def State.writeCtrl (s : State) (v : Word32) : State := { s with ie := v.getLsbD 0 }

/-- A host write to `STATUS`: a 1 clears `DONE` or `OVR`, the W1C fields (10_state.md R23, R25). -/
def State.writeStatus (s : State) (v : Word32) : State :=
  { s with done := s.done && !v.getLsbD 1, ovr := s.ovr && !v.getLsbD 3 }

/-- The interrupt line `irq` (60_exceptions.md R132). -/
def State.irq (s : State) : Bool := s.ie && s.done

end Sys2Proof.Machine
end

