-- ==== Sys2Proof/Machine/HostPort.lean ====
section
/-! DEFINITION. The register window as the host reads and writes it (10_state.md R22 to R36, R41), the host's
accesses to memory (20_memory.md R64), reset (70_reset_and_hazards.md R144, R145), and the next agent's turn
(10_state.md R15). -/

namespace Sys2Proof.Machine

/-- The offset in the register window of a platform address, where it is one of the window's 0x100 bytes
(10_state.md R22). -/
def windowOffset (a : Nat) : Option (BitVec 8) :=
  if Config.regBase ≤ a ∧ a < Config.regBase + 256 then some (BitVec.ofNat 8 (a - Config.regBase)) else none

/-- A register access is an aligned 32-bit access (10_state.md R23). -/
def alignedAccess (off : BitVec 8) (width : Nat) : Bool := width == 4 && off.toNat % 4 == 0

/-- The value of the register at an offset of the window (10_state.md R22); `CMD` and reserved space read 0 (R23). -/
def State.regValue (s : State) (off : BitVec 8) : Word32 :=
  match off with
  | 0x00#8 => Config.idValue
  | 0x04#8 => s.ctrl
  | 0x08#8 => s.status
  | 0x0C#8 => s.handle
  | 0x14#8 => s.argK
  | 0x18#8 => s.addr
  | 0x1C#8 => s.len
  | 0x20#8 => s.out
  | 0x24#8 => s.outJ
  | 0x28#8 => s.shLen
  | 0x2C#8 => s.faultAddr
  | 0x30#8 => s.adv.extractLsb' 0 32
  | 0x34#8 => s.adv.extractLsb' 32 32
  | _ => 0#32

/-- The registers whose value is unspecified while the engine is busy (10_state.md R41): `HANDLE`, `OUT`, `OUT_J`,
`SH_LEN`, `FAULT_ADDR`, `ADV_LO`, `ADV_HI`. -/
def resultRegister (off : BitVec 8) : Bool :=
  [0x0C#8, 0x20#8, 0x24#8, 0x28#8, 0x2C#8, 0x30#8, 0x34#8].contains off

/-- The host's record of a register read. -/
def State.sawReg (s : State) (off : BitVec 8) (v : Word32) : State := { s with seen := .reg off v :: s.seen }

/-- The next free value is taken. -/
def State.tookFree (s : State) : State := { s with fresh := s.fresh + 1 }

/-- A register read (10_state.md R15 (a), R23, R41): it returns a value and changes nothing in the engine. -/
def State.hostRead (s : State) (off : BitVec 8) : State :=
  if s.busy && resultRegister off then s.tookFree.sawReg off (Config.freeWord s.fresh)
  else if s.busy && off == 0x08#8 then s.tookFree.sawReg off (s.busyStatus (Config.freeWord s.fresh))
  else s.sawReg off (s.regValue off)

/-- A host write to `CMD` (10_state.md R28, R43): accepted by an idle engine, rejected by a busy one. -/
def State.writeCmd (s : State) (c : Word32) : State :=
  if s.busy then { s with ovr := true } else s.accept c

/-- A register write (10_state.md R15 (b)); read-only registers and reserved space ignore it (R23). -/
def State.hostWrite (s : State) (off : BitVec 8) (v : Word32) : State :=
  match off with
  | 0x04#8 => s.writeCtrl v
  | 0x08#8 => s.writeStatus v
  | 0x10#8 => s.writeCmd v
  | 0x14#8 => { s with argK := v }
  | 0x18#8 => { s with addr := v }
  | 0x1C#8 => { s with len := v }
  | _ => s

/-- Why the model gives the host no access to this byte of memory, if so: it is in the busy command's range
(20_memory.md R64; log entry 22 where R64 states no range), or a device's (R48). -/
def State.hostMemoryRefusal (s : State) (a : Word32) : Option Refusal :=
  if inRange s.busyRange a.toNat then some .busyRange
  else if s.coversDevice a.toNat 1 then some .deviceRange
  else none

/-- Memory as a reset leaves it: the range a busy GET_STATE or SHUFFLE writes becomes free values, so far as it
lies in the memory space (70_reset_and_hazards.md R145). -/
def State.abandon (s : State) : State :=
  match s.busyWrittenRange with
  | none => s
  | some (base, size) => s.scramble base (min size (Config.addressLimit - base))

/-- Reset (70_reset_and_hazards.md R144, R145): every register takes its reset value; memory, the platform and the
host keep theirs. -/
def State.afterReset (s : State) : State :=
  { State.reset with
    mem := s.abandon.mem, fresh := s.abandon.fresh, busErrors := s.busErrors, devices := s.devices,
    script := s.script, seen := s.seen }

/-- The state with these moves to come. -/
def State.withScript (s : State) (moves : List Move) : State := { s with script := moves }

/-- One move made in a state whose `script` already holds the moves after it. -/
def makeMove (m : Move) (s : State) : Host.Outcome State Fault Refusal :=
  match m with
  | .read off width => if alignedAccess off width then .next (s.hostRead off) else .refused .registerAccess
  | .write off width v => if alignedAccess off width then .next (s.hostWrite off v) else .refused .registerAccess
  | .load a =>
    match s.hostMemoryRefusal a with
    | some r => .refused r
    | none => .next { s with seen := .byte a (readByte s.mem a.toNat) :: s.seen }
  | .store a b =>
    match s.hostMemoryRefusal a with
    | some r => .refused r
    | none => .next { s with mem := writeByte s.mem a.toNat b }
  | .engine => engineTurn s
  | .wait => .next s
  | .reset => .next s.afterReset

/-- The next agent's turn (10_state.md R15). With no move to come only the engine can move. While the engine is busy
a `wait` stays at the head of the script and the engine moves; once it is idle the wait is over. -/
def takeTurn (s : State) : Host.Outcome State Fault Refusal :=
  match s.script with
  | [] => engineTurn s
  | .wait :: rest => if s.busy then engineTurn s else .next (s.withScript rest)
  | m :: rest => makeMove m (s.withScript rest)

end Sys2Proof.Machine
end

