-- ==== Sys2Proof/Machine/Step.lean ====
section
/-! DEFINITION. One step of the machine, and how the host of this project places a command to be the next one run. -/

namespace Sys2Proof.Machine

/-- One step: the next agent's turn (10_state.md R15). -/
def step (s : State) : Host.Outcome State Fault Refusal := takeTurn s

/-- The state with a command word accepted (10_state.md R43) and the engine's turn next, so that `step` completes
exactly that command. Commands arrive as `CMD` writes, never from memory (20_memory.md R68), so this stands for the
write (notes/assumptions/4.md). -/
def State.withFetchWord (s : State) (nbits w : Nat) : State :=
  { s.accept (BitVec.ofNat 32 (w % 2 ^ nbits)) with script := .engine :: s.script }

end Sys2Proof.Machine
end

