-- ==== Sys2Proof/Safety.lean ====
section
/-! DEFINITION. The vocabulary of the claims: the invariant of the machine, the draws a generator will make, the
first accepted one, and the Fisher–Yates shuffle of a sequence as 43_shuffle.md R118 states it, in which no fuel and
no memory appear. -/

namespace Sys2Proof.Machine

/-- The step went on. -/
def wentOn (o : Host.Outcome State Fault Refusal) : Bool :=
  match o with
  | .next _ => true
  | .fault _ => false
  | .refused _ => false

/-- The invariant: memory is in canonical form and in the memory space, and a busy engine shows no completion and
no error (10_state.md R41, R43). -/
def State.inv (s : State) : Bool :=
  memWf s.mem && memInSpace s.mem && (!s.busy || (!s.done && s.err.isNone))

/-- The generator after `n` mixing steps (40_mixing.md R81). -/
def Gen.after (n : Nat) (g : Gen) : Gen :=
  match n with
  | 0 => g
  | m + 1 => Gen.after m g.advance

/-- `Roll(k)` accepts the next draw of this generator (42_sampler.md R108, R109). -/
def accepts (k : Word32) (g : Gen) : Prop := k = 0#32 ∨ g.raw.toNat < 4294967296 - 4294967296 % k.toNat

/-- What `Roll(k)` returns for the next draw of this generator, if accepted (42_sampler.md R108, R109). -/
def sample (k : Word32) (g : Gen) : Word32 := if k = 0#32 then g.raw else BitVec.ofNat 32 (g.raw.toNat % k.toNat)

/-- `Roll(k)` rejects `n` draws and accepts the one after them (42_sampler.md R111). -/
def firstAccepted (k : Word32) (g : Gen) (n : Nat) : Prop :=
  (∀ m, m < n → ¬ accepts k (g.after m)) ∧ accepts k (g.after n)

/-- Two elements of a sequence exchanged. -/
def exchange {α : Type} (q : List α) (i j : Nat) : List α :=
  match q[i]?, q[j]? with
  | some x, some y => (q.set i y).set j x
  | some _, none => q
  | none, some _ => q
  | none, none => q

/-- The shuffle of a sequence (43_shuffle.md R118): `shuffled length stop g q g' q'` says that the steps at `length`,
`length - 1`, ..., `stop + 1`, with the draws of `g`, make `q'` of the sequence `q` and `g'` of the generator. The whole
shuffle of `n` elements stops at `min n 1`. -/
inductive shuffled {α : Type} : Nat → Nat → Gen → List α → Gen → List α → Prop where
  /-- Nothing is drawn once the length is that of the stop. -/
  | done (length : Nat) (g : Gen) (q : List α) : shuffled length length g q g q
  /-- One step: draw `r`, exchange elements `r` and `length - 1`, go on with `length - 1`. -/
  | step (length stop n : Nat) (g g' : Gen) (q q' : List α) (h : 2 ≤ length)
      (draw : firstAccepted (BitVec.ofNat 32 length) g n)
      (rest : shuffled (length - 1) stop (g.after (n + 1))
        (exchange q (sample (BitVec.ofNat 32 length) (g.after n)).toNat (length - 1)) g' q') :
      shuffled length stop g q g' q'

/-- The `n` elements of `w` bytes from `base` (43_shuffle.md R123). -/
def elements (mem : List Host.Cell) (base w n : Nat) : List (List Byte) :=
  match n with
  | 0 => []
  | m + 1 => elements mem base w m ++ [readBytes mem (base + m * w) w]

/-- A swap of the elements `r` and `j` of the sequence `q`, the `n` elements of `w` bytes from `base`, that takes a bus
error at address `a` and leaves memory `mem` (43_shuffle.md R124): at one of the two reads nothing is written; at the
write of `r` only that element may hold anything; at the write of `j` element `r` holds what `j` held, and element `j`
may hold anything. -/
def failedSwap (s : State) (base w n : Nat) (q : List (List Byte)) (r j a : Nat) (mem : List Host.Cell) : Prop :=
  (s.memOk (base + r * w) w .read = false ∧ a = base + r * w ∧ elements mem base w n = q) ∨
  (s.memOk (base + r * w) w .read = true ∧ s.memOk (base + j * w) w .read = false ∧ a = base + j * w ∧
    elements mem base w n = q) ∨
  (s.memOk (base + r * w) w .read = true ∧ s.memOk (base + j * w) w .read = true ∧
    s.memOk (base + r * w) w .write = false ∧ a = base + r * w ∧
    ∀ m, m ≠ r → (elements mem base w n)[m]? = q[m]?) ∨
  (s.memOk (base + r * w) w .read = true ∧ s.memOk (base + j * w) w .read = true ∧
    s.memOk (base + r * w) w .write = true ∧ s.memOk (base + j * w) w .write = false ∧ a = base + j * w ∧
    (elements mem base w n)[r]? = q[j]? ∧ ∀ m, m ≠ r → m ≠ j → (elements mem base w n)[m]? = q[m]?)

end Sys2Proof.Machine
end

