-- ==== Sys2Proof/Certificates/Slice0/Obligations.lean ====
section
/-! DEFINITION. The statements for the provers. Each formalises rules of spec/ that say what a command, a register
access or the machine does; OBLIGATIONS.json names the rules. In a statement about `exec`, `l` is what acceptance
latched (10_state.md R43), so the operands are `lat.*`; where a statement is about a whole step, the state's `script`
says whose turn it is (10_state.md R15). -/

open Sys2Proof Sys2Proof.Machine

/-! ### Encoding (30_encoding.md) -/

/-- 30_encoding.md section 2: the decoder accepts exactly the encoder's words, and reads each as its command. -/
def Obligations.DecodeAcceptsExactlyTheEncodedWords : Prop :=
  ∀ (c : Word32) (i : Instr), decode c = .ok i ↔ c = encode i

/-- The word table of 30_encoding.md section 2, word by word. -/
def Obligations.CommandWordsOfTheTableDecode : Prop :=
  decode 0x00000000#32 = .ok .nop ∧ decode 0x00000001#32 = .ok .create256p ∧
  decode 0x00000011#32 = .ok .create256pp ∧ decode 0x00000021#32 = .ok .create256ss ∧
  decode 0x00000041#32 = .ok .create512p ∧ decode 0x00000051#32 = .ok .create512pp ∧
  decode 0x00000061#32 = .ok .create512ss ∧ decode 0x00000002#32 = .ok .release ∧
  decode 0x00000003#32 = .ok .roll ∧ decode 0x00000004#32 = .ok .getState ∧
  decode 0x00000005#32 = .ok .setState ∧ decode 0x00000006#32 = .ok .shuffle8 ∧
  decode 0x00000106#32 = .ok .shuffle16 ∧ decode 0x00000206#32 = .ok .shuffle32 ∧
  decode 0x00000306#32 = .ok .shuffle64 ∧ decode 0x00000007#32 = .ok .shufInit ∧
  decode 0x00000008#32 = .ok .shufStep

/-- 30_encoding.md R76: the words whose decoding is ILLEGAL_COMMAND. -/
def Obligations.IllegalWordsAreExactlyThoseOfTheDecoder : Prop :=
  ∀ c : Word32, decode c = .error .illegalCommand ↔
    (c.extractLsb' 12 20 ≠ 0#20 ∨ 9 ≤ (c.extractLsb' 0 4).toNat ∨
      (c.extractLsb' 0 4 ≠ 1#4 ∧ c.extractLsb' 4 4 ≠ 0#4) ∨ (c.extractLsb' 0 4 ≠ 6#4 ∧ c.extractLsb' 8 4 ≠ 0#4))

/-- 30_encoding.md R73, R74, R76: the CREATE and SHUFFLE words with a reserved code, which the decoder leaves to the
command's own rule. -/
def Obligations.ReservedCodesAreExactlyTheseWords : Prop :=
  ∀ c : Word32,
    (decode c = .error .reservedAlg ↔
      c ∈ [0x31#32, 0x71#32, 0x81#32, 0x91#32, 0xA1#32, 0xB1#32, 0xC1#32, 0xD1#32, 0xE1#32, 0xF1#32]) ∧
    (decode c = .error .reservedWidth ↔
      c ∈ [0x406#32, 0x506#32, 0x606#32, 0x706#32, 0x806#32, 0x906#32, 0xA06#32, 0xB06#32, 0xC06#32, 0xD06#32,
        0xE06#32, 0xF06#32])

/-- 30_encoding.md R77, with the order of 60_exceptions.md R133 and 43_shuffle.md R123 for a reserved lane width: how the
engine completes, on any turn of its own, a word that is no legal command, with no other effect. -/
def Obligations.RejectedWordsCompleteWithTheirError : Prop :=
  ∀ (s u : State) (l : Latched) (rest : List Move), s.lat = some l →
    (s.script = [] ∧ u = s) ∨ (s.script = .engine :: rest ∧ u = { s with script := rest }) ∨
      (s.script = .wait :: rest ∧ u = s) →
    ((l.cmd.extractLsb' 12 20 ≠ 0#20 ∨ 9 ≤ (l.cmd.extractLsb' 0 4).toNat ∨
        (l.cmd.extractLsb' 0 4 ≠ 1#4 ∧ l.cmd.extractLsb' 4 4 ≠ 0#4) ∨
        (l.cmd.extractLsb' 0 4 ≠ 6#4 ∧ l.cmd.extractLsb' 8 4 ≠ 0#4) →
      step s = .next { u with lat := none, done := true, err := some .illegalCommand }) ∧
    (l.cmd ∈ [0x31#32, 0x71#32, 0x81#32, 0x91#32, 0xA1#32, 0xB1#32, 0xC1#32, 0xD1#32, 0xE1#32, 0xF1#32] →
      step s = .next { u with lat := none, done := true, err := some .unknownAlgorithm }) ∧
    (l.cmd ∈ [0x406#32, 0x506#32, 0x606#32, 0x706#32, 0x806#32, 0x906#32, 0xA06#32, 0xB06#32, 0xC06#32, 0xD06#32,
        0xE06#32, 0xF06#32] →
      step s = .next { u with
        lat := none, done := true, err := some (if s.ctx = none then .noHandle else .invalidInput) }))

/-! ### Steps (10_state.md R15, R43, R45) -/

/-- 10_state.md R45: on the engine's turn a busy engine completes the command it latched. The turn is the engine's
when no move is left, when the script gives it, and while the host waits. An idle engine's turn changes nothing, and a
wait of an idle engine is over (60_exceptions.md R143, 30_encoding.md R79). -/
def Obligations.StepRunsTheDecodedCommand : Prop :=
  ∀ (s : State) (rest : List Move),
    (∀ l i, s.lat = some l → decode l.cmd = .ok i →
      (s.script = [] → step s = exec i s) ∧
      (s.script = .engine :: rest → step s = exec i { s with script := rest }) ∧
      (s.script = .wait :: rest → step s = exec i s)) ∧
    (s.lat = none →
      (s.script = [] → step s = .next s) ∧
      (s.script = .engine :: rest → step s = .next { s with script := rest }) ∧
      (s.script = .wait :: rest → step s = .next { s with script := rest }))

/-- The model's own (notes/assumptions/4.md): a command placed to run next is the one completed, with the argument
registers as they are. -/
def Obligations.PlacedCommandIsTheOneCompleted : Prop :=
  ∀ (s : State) (i : Instr), step (s.withFetchWord 32 (encode i).toNat) =
    exec i { s with lat := some ⟨encode i, s.argK, s.addr, s.len⟩, done := false, err := none }

/-- 10_state.md R43, 60_exceptions.md R131: a `CMD` write is accepted by an idle engine and rejected by a busy one,
and a later write of an argument register leaves the latched command as it is. -/
def Obligations.CommandWriteIsAcceptedOrRejected : Prop :=
  ∀ (s : State) (v : Word32) (rest : List Move),
    (s.script = .write 0x10#8 4 v :: rest →
      step s = .next (if s.lat.isSome then { s with script := rest, ovr := true }
        else { s with
          script := rest, lat := some ⟨v, s.argK, s.addr, s.len⟩, done := false, err := none })) ∧
    (s.script = .write 0x14#8 4 v :: rest → step s = .next { s with script := rest, argK := v }) ∧
    (s.script = .write 0x18#8 4 v :: rest → step s = .next { s with script := rest, addr := v }) ∧
    (s.script = .write 0x1C#8 4 v :: rest → step s = .next { s with script := rest, len := v })

/-- 10_state.md R23 to R25: what a register write other than that of `CMD` does, at every offset of the window; a W1C
bit is cleared by a 1, and read-only registers and reserved space ignore the write. -/
def Obligations.RegisterWritesReachTheWritableFields : Prop :=
  ∀ (s : State) (off : BitVec 8) (v : Word32) (rest : List Move),
    s.script = .write off 4 v :: rest → off.toNat % 4 = 0 → off ≠ 0x10#8 →
    step s = .next { s with
      script := rest
      ie := if off = 0x04#8 then v.getLsbD 0 else s.ie
      done := if off = 0x08#8 then s.done && !v.getLsbD 1 else s.done
      ovr := if off = 0x08#8 then s.ovr && !v.getLsbD 3 else s.ovr
      argK := if off = 0x14#8 then v else s.argK
      addr := if off = 0x18#8 then v else s.addr
      len := if off = 0x1C#8 then v else s.len }

/-- 10_state.md R22, R23, R27 to R36: what a register read returns while the engine is idle, at every offset of the
window, and that it changes nothing else. -/
def Obligations.IdleReadsReturnTheRegisters : Prop :=
  ∀ (s : State) (off : BitVec 8) (rest : List Move),
    s.script = .read off 4 :: rest → off.toNat % 4 = 0 → s.lat = none →
    step s = .next { s with
      script := rest
      seen := .reg off
        (if off = 0x00#8 then 0x584F5348#32
        else if off = 0x04#8 then (if s.ie then 1#32 else 0#32)
        else if off = 0x08#8 then s.status
        else if off = 0x0C#8 then s.handle
        else if off = 0x14#8 then s.argK
        else if off = 0x18#8 then s.addr
        else if off = 0x1C#8 then s.len
        else if off = 0x20#8 then s.out
        else if off = 0x24#8 then s.outJ
        else if off = 0x28#8 then s.shLen
        else if off = 0x2C#8 then s.faultAddr
        else if off = 0x30#8 then BitVec.ofNat 32 (s.adv.toNat % 4294967296)
        else if off = 0x34#8 then BitVec.ofNat 32 (s.adv.toNat / 4294967296)
        else 0#32) :: s.seen }

/-- 10_state.md R41: while the engine is busy a read of a result register returns some value, a read of `STATUS` is
defined in every bit but `SWP` and `SEQ_END`, the other registers read their defined values, and no read changes the
engine. `fresh` is the model's own count of free values. -/
def Obligations.BusyReadsAreDefinedOrFree : Prop :=
  ∀ (s : State) (l : Latched) (off : BitVec 8) (rest : List Move),
    s.lat = some l → s.script = .read off 4 :: rest → off.toNat % 4 = 0 →
    ∃ (v : Word32) (n : Nat),
      step s = .next { s with script := rest, seen := .reg off v :: s.seen, fresh := n } ∧
      (off = 0x08#8 →
        v.getLsbD 0 = true ∧ v.getLsbD 1 = s.done ∧ v.getLsbD 2 = s.err.isSome ∧ v.getLsbD 3 = s.ovr ∧
        v.extractLsb' 6 2 = 0#2 ∧ v.extractLsb' 8 4 = s.status.extractLsb' 8 4 ∧ v.extractLsb' 12 20 = 0#20) ∧
      (off = 0x00#8 → v = 0x584F5348#32) ∧
      (off = 0x04#8 → v = if s.ie then 1#32 else 0#32) ∧
      (off = 0x10#8 → v = 0#32) ∧ (off = 0x14#8 → v = s.argK) ∧ (off = 0x18#8 → v = s.addr) ∧
      (off = 0x1C#8 → v = s.len) ∧ (0x38 ≤ off.toNat → v = 0#32)

/-- 10_state.md R25, R37: the fields of `STATUS`, bit by bit; `SEQ_END` is derived from `SH_LEN`. -/
def Obligations.StatusFieldsStandWhereTheLayoutSays : Prop :=
  ∀ s : State,
    s.status.getLsbD 0 = s.lat.isSome ∧ s.status.getLsbD 1 = s.done ∧ s.status.getLsbD 2 = s.err.isSome ∧
    s.status.getLsbD 3 = s.ovr ∧ s.status.getLsbD 4 = s.swp ∧
    (s.status.getLsbD 5 = true ↔ s.shLen.toNat < 2) ∧ s.status.extractLsb' 6 2 = 0#2 ∧
    s.status.extractLsb' 8 4 = (match s.err with
      | none => 0#4
      | some .unknownAlgorithm => 1#4
      | some .insufficientSeed => 2#4
      | some .invalidInput => 3#4
      | some .noHandle => 4#4
      | some .illegalCommand => 5#4
      | some .range => 6#4
      | some .bus => 7#4) ∧
    s.status.extractLsb' 12 20 = 0#20

/-- 10_state.md R26, R16 and the codes of 30_encoding.md R73: the fields of `HANDLE`. -/
def Obligations.HandleFieldsStandWhereTheLayoutSays : Prop :=
  ∀ s : State,
    (s.ctx = none → s.handle = 0#32) ∧
    (∀ c, s.ctx = some c →
      s.handle.getLsbD 0 = true ∧ s.handle.extractLsb' 1 3 = 0#3 ∧
      s.handle.extractLsb' 4 4 = (match c.alg.family, c.alg.scrambler with
        | .f256, .plus => 0#4
        | .f256, .plusPlus => 1#4
        | .f256, .starStar => 2#4
        | .f512, .plus => 4#4
        | .f512, .plusPlus => 5#4
        | .f512, .starStar => 6#4) ∧
      s.handle.extractLsb' 8 4 = (match c.alg.family with
        | .f256 => 4#4
        | .f512 => 8#4) ∧
      s.handle.extractLsb' 12 20 = 0#20)

/-- 10_state.md R27: `ID` always reads the same, whether the engine is busy or not. -/
def Obligations.IdAlwaysReadsItsConstant : Prop :=
  ∀ (s : State) (rest : List Move), s.script = .read 0x00#8 4 :: rest →
    step s = .next { s with script := rest, seen := .reg 0x00#8 0x584F5348#32 :: s.seen }

/-- 10_state.md R23: an access that is not an aligned 32-bit access is refused. -/
def Obligations.UnalignedRegisterAccessIsRefused : Prop :=
  ∀ (s : State) (off : BitVec 8) (width : Nat) (v : Word32) (rest : List Move),
    width ≠ 4 ∨ off.toNat % 4 ≠ 0 →
    (s.script = .read off width :: rest → step s = .refused .registerAccess) ∧
    (s.script = .write off width v :: rest → step s = .refused .registerAccess)

/-- 20_memory.md R64: the model gives the host no access to a byte of the busy command's range, whose size is
`WC * 8` for CREATE, SET_STATE and GET_STATE and `lat.LEN * W` for SHUFFLE. -/
def Obligations.HostAccessToTheBusyRangeIsRefused : Prop :=
  ∀ (s : State) (l : Latched) (i : Instr) (size : Nat) (a : Word32) (b : Byte) (rest : List Move),
    s.lat = some l → decode l.cmd = .ok i →
    ((∃ alg, createAlg i = some alg ∧ size = alg.wc * 8) ∨
      (i ∈ [Instr.getState, Instr.setState] ∧ ∃ c, s.ctx = some c ∧ size = c.alg.wc * 8) ∨
      (∃ w, shuffleWidth i = some w ∧ size = l.len.toNat * w)) →
    l.addr.toNat ≤ a.toNat → a.toNat < l.addr.toNat + size →
    (s.script = .load a :: rest → step s = .refused .busyRange) ∧
    (s.script = .store a b :: rest → step s = .refused .busyRange)

/-- 20_memory.md R48, R64: a host access to a byte of plain memory that is not in a busy command's range: a read returns
the byte last written, a write changes that byte and no other, and neither changes the engine. That a busy command for
which R64 states no range (no `WC` or no `W`, or no legal command) excludes no byte is the model's choice (log entry
22). -/
def Obligations.HostMemoryAccessIsThatOfPlainMemory : Prop :=
  ∀ (s : State) (a : Word32) (b : Byte) (rest : List Move),
    memWf s.mem = true → inRange s.busyRange a.toNat = false → s.coversDevice a.toNat 1 = false →
    (s.script = .load a :: rest →
      step s = .next { s with script := rest, seen := .byte a (readByte s.mem a.toNat) :: s.seen }) ∧
    (s.script = .store a b :: rest →
      ∃ m, step s = .next { s with script := rest, mem := m } ∧ readByte m a.toNat = b ∧
        ∀ x, x ≠ a.toNat → readByte m x = readByte s.mem x)

/-- 20_memory.md R48: the model refuses a command whose accessed range covers a device with side effects, once the checks
that come before its accesses (60_exceptions.md R133) pass. -/
def Obligations.CommandsOverADeviceAreRefused : Prop :=
  ∀ (s : State) (l : Latched) (i : Instr) (size : Nat), s.lat = some l →
    ((∃ alg, createAlg i = some alg ∧ size = alg.wc * 8 ∧ size ≤ l.len.toNat) ∨
      (i = .setState ∧ ∃ c, s.ctx = some c ∧ size = c.alg.wc * 8 ∧ size ≤ l.len.toNat) ∨
      (i = .getState ∧ ∃ c, s.ctx = some c ∧ size = c.alg.wc * 8) ∨
      (∃ w, shuffleWidth i = some w ∧ s.ctx ≠ none ∧ 2 ≤ l.len.toNat ∧ size = l.len.toNat * w)) →
    l.addr.toNat + size ≤ 4294967296 → s.coversDevice l.addr.toNat size = true →
    exec i s = .refused .deviceRange

/-- 60_exceptions.md R132: `irq = CTRL.IE AND STATUS.DONE`, which every completion raises, and which a W1C of `DONE`,
an acceptance, a write of `CTRL.IE = 0` and a reset drop; a rejected `CMD` write, which sets `OVR`, leaves it. -/
def Obligations.InterruptFollowsDoneAndEnable : Prop :=
  ∀ (s t : State) (v : Word32) (rest : List Move), step s = .next t →
    t.irq = (t.ie && t.done) ∧
    (s.lat.isSome = true → s.script = [] ∨ s.script = .engine :: rest ∨ s.script = .wait :: rest → t.lat = none →
      t.irq = s.ie) ∧
    (s.script = .write 0x10#8 4 v :: rest → s.lat = none → t.irq = false) ∧
    (s.script = .write 0x10#8 4 v :: rest → s.lat.isSome = true → t.irq = s.irq) ∧
    (s.script = .write 0x08#8 4 v :: rest → t.irq = (s.irq && !v.getLsbD 1)) ∧
    (s.script = .write 0x04#8 4 v :: rest → t.irq = (v.getLsbD 0 && s.done)) ∧
    (s.script = .reset :: rest → t.irq = false)

/-! ### Reset (10_state.md R42, 70_reset_and_hazards.md R144, R145) -/

/-- 10_state.md R42: the values after reset. -/
def Obligations.ResetLeavesTheResetValues : Prop :=
  State.reset.ctrl = 0#32 ∧ State.reset.status = 0x00000020#32 ∧ State.reset.handle = 0#32 ∧
  State.reset.ctx = none ∧ State.reset.argK = 0#32 ∧ State.reset.addr = 0#32 ∧ State.reset.len = 0#32 ∧
  State.reset.out = 0#32 ∧ State.reset.outJ = 0#32 ∧ State.reset.shLen = 0#32 ∧ State.reset.faultAddr = 0#32 ∧
  State.reset.adv = 0#64 ∧ State.reset.lat = none ∧ State.reset.regValue 0x00#8 = 0x584F5348#32

/-- 70_reset_and_hazards.md R144: a reset, at any time, gives every register its reset value, and `irq` is low. The
model's own: what is not the engine's is kept, which is memory (but for the bytes of R145; notes/assumptions/10.md), the
platform (notes/assumptions/2.md, 3.md), the script (notes/assumptions/17.md), the host's record (notes/assumptions/16.md), and, where no command
was busy, the count of free values (notes/assumptions/8.md). -/
def Obligations.ResetGivesEveryRegisterItsResetValue : Prop :=
  ∀ (s : State) (rest : List Move), s.script = .reset :: rest →
    ∃ m n t, step s = .next t ∧ t.irq = false ∧
      t = { State.reset with
        mem := m, fresh := n, busErrors := s.busErrors, devices := s.devices, script := rest, seen := s.seen } ∧
      (s.lat = none → m = s.mem ∧ n = s.fresh)

/-- 70_reset_and_hazards.md R145: a reset aborts a busy command, which never completes; every register takes its reset
value; the memory range of a GET_STATE or SHUFFLE may hold anything, and all other memory is unchanged. The model's own:
a GET_STATE with no handle has no range, and a word that is no legal command has none (notes/assumptions/10.md); the
host's record is kept (notes/assumptions/16.md), and the count of free values moves with such a range only
(notes/assumptions/9.md). -/
def Obligations.ResetWhileBusyKeepsTheRestOfMemory : Prop :=
  ∀ (s : State) (l : Latched) (rest : List Move), s.lat = some l → s.script = .reset :: rest →
    ∃ m n t, step s = .next t ∧ t.lat = none ∧ t.done = false ∧ t.irq = false ∧
      t = { State.reset with
        mem := m, fresh := n, busErrors := s.busErrors, devices := s.devices, script := rest, seen := s.seen } ∧
      (∀ r, decode l.cmd = .error r → m = s.mem ∧ n = s.fresh) ∧
      (∀ i, decode l.cmd = .ok i →
        (i ≠ .getState → shuffleWidth i = none → m = s.mem ∧ n = s.fresh) ∧
        (∀ x, (∀ c, i = .getState → s.ctx = some c → x < l.addr.toNat ∨ l.addr.toNat + c.alg.wc * 8 ≤ x) →
          (∀ w, shuffleWidth i = some w → x < l.addr.toNat ∨ l.addr.toNat + l.len.toNat * w ≤ x) →
          readByte m x = readByte s.mem x))

/-! ### The mixing step (40_mixing.md) -/

/-- 40_mixing.md R81, R83, R86 to R88, R92: the mixing step of the 256-bit family, in closed form. That the output is
that of the words before the update is R82, whose ground is general knowledge (PRESUMED, notes/assumptions/18.md). -/
def Obligations.MixingStepOfTheSmallFamily : Prop :=
  ∀ (scr : Scrambler) (s0 s1 s2 s3 adv : Word64),
    mix ⟨.c256 scr ⟨s0, s1, s2, s3⟩, adv⟩ =
      (BitVec.setWidth 32 (match scr with
        | .plus => s0 + s3
        | .plusPlus => (s0 + s3).rotateLeft 23 + s0
        | .starStar => (s1 * 5#64).rotateLeft 7 * 9#64),
      ⟨.c256 scr ⟨s0 ^^^ (s3 ^^^ s1), s1 ^^^ (s2 ^^^ s0), s2 ^^^ s0 ^^^ (s1 <<< 17), (s3 ^^^ s1).rotateLeft 45⟩,
        adv + 1#64⟩)

/-- 40_mixing.md R81, R84, R89 to R92: the mixing step of the 512-bit family, in closed form. That the output is that
of the words before the update is R82, whose ground is general knowledge (PRESUMED, notes/assumptions/18.md). -/
def Obligations.MixingStepOfTheLargeFamily : Prop :=
  ∀ (scr : Scrambler) (s0 s1 s2 s3 s4 s5 s6 s7 adv : Word64),
    mix ⟨.c512 scr ⟨s0, s1, s2, s3, s4, s5, s6, s7⟩, adv⟩ =
      (BitVec.setWidth 32 (match scr with
        | .plus => s0 + s2
        | .plusPlus => (s0 + s2).rotateLeft 17 + s2
        | .starStar => (s1 * 5#64).rotateLeft 7 * 9#64),
      ⟨.c512 scr ⟨s0 ^^^ s6, s1 ^^^ (s2 ^^^ s0), s2 ^^^ s0, s3 ^^^ s4, s4 ^^^ (s5 ^^^ s1), s5 ^^^ s1,
        s6 ^^^ (s7 ^^^ s3) ^^^ (s1 <<< 11), (s7 ^^^ s3).rotateLeft 21⟩, adv + 1#64⟩)

/-- 40_mixing.md R94: the all-zero state is a fixed point, every raw output from it is 0, and the counter counts. -/
def Obligations.ZeroStateIsAFixedPoint : Prop :=
  ∀ (c : Ctx) (adv : Word64) (n : Nat), (∀ w ∈ c.words, w = 0#64) →
    (Gen.after n ⟨c, adv⟩).ctx = c ∧ c.output = 0#64 ∧ (Gen.after n ⟨c, adv⟩).raw = 0#32 ∧
    (Gen.after n ⟨c, adv⟩).adv = adv + BitVec.ofNat 64 n

/-- 40_mixing.md R85: the variants of one family pass through the same states. -/
def Obligations.VariantsOfAFamilyPassThroughTheSameStates : Prop :=
  ∀ (c c' : Ctx) (adv : Word64) (n : Nat), c.alg.family = c'.alg.family → c.words = c'.words →
    (Gen.after n ⟨c, adv⟩).ctx.words = (Gen.after n ⟨c', adv⟩).ctx.words

/-! ### The sampler and ROLL (42_sampler.md) -/

/-- 42_sampler.md R110: the bound is the largest multiple of `k` not exceeding `2^32`; no power of two rejects a draw,
and above `2^31` the bound is `k`. -/
def Obligations.RollBoundIsTheLargestMultiple : Prop :=
  ∀ k : Word32, k ≠ 0#32 →
    k.toNat ∣ rollBound k ∧ rollBound k ≤ 4294967296 ∧ 2147483649 ≤ rollBound k ∧
    (∀ m, k.toNat ∣ m → m ≤ 4294967296 → m ≤ rollBound k) ∧
    (∀ j, k.toNat = 2 ^ j → rollBound k = 4294967296) ∧
    (2147483648 < k.toNat → rollBound k = k.toNat)

/-- 42_sampler.md R108, R111, R115: ROLL completes with its first accepted draw, however many it rejects before it,
and counts every draw; without a handle it ends with NO_HANDLE. -/
def Obligations.RollCompletesAtItsFirstAcceptedDraw : Prop :=
  ∀ (s : State) (l : Latched), s.lat = some l →
    (s.ctx = none → exec .roll s = .next { s with lat := none, done := true, err := some .noHandle }) ∧
    (∀ c n, s.ctx = some c → firstAccepted l.argK ⟨c, s.adv⟩ n →
      exec .roll s = .next { s with
        lat := none
        done := true
        err := none
        out := sample l.argK (Gen.after n ⟨c, s.adv⟩)
        ctx := some (Gen.after (n + 1) ⟨c, s.adv⟩).ctx
        adv := s.adv + BitVec.ofNat 64 (n + 1) })

/-- 42_sampler.md R112: ROLL and SHUF_STEP complete, or no draw is ever accepted and the engine's turn leaves the command
busy, with no value and no error; and a loop that has run out of draws has no value, never one. -/
def Obligations.RollCompletesOrNeverAccepts : Prop :=
  (∀ (s : State) (l : Latched) (c : Ctx), s.lat = some l → s.ctx = some c →
    ((∃ n t, firstAccepted l.argK ⟨c, s.adv⟩ n ∧ exec .roll s = .next t ∧ t.lat = none ∧ t.err = none) ∨
      ((∀ n, ¬ accepts l.argK (Gen.after n ⟨c, s.adv⟩)) ∧ exec .roll s = .next s)) ∧
    (2 ≤ s.shLen.toNat →
      (∃ n t, firstAccepted s.shLen ⟨c, s.adv⟩ n ∧ exec .shufStep s = .next t ∧ t.lat = none ∧ t.err = none) ∨
      ((∀ n, ¬ accepts s.shLen (Gen.after n ⟨c, s.adv⟩)) ∧ exec .shufStep s = .next s))) ∧
  (∀ (fuel : Nat) (k : Word32) (g : Gen), k ≠ 0#32 →
    (rollLoop fuel k g = none ↔ ∀ n, n < fuel → ¬ accepts k (g.after n)))

/-- 42_sampler.md R113: the results of a ROLL that completes: below `k`; for a power of two the low bits of the first
draw (0 for `k = 1`); above `2^31` the accepted draw itself; and 0 from the all-zero state. -/
def Obligations.RollResultsLieBelowTheBound : Prop :=
  ∀ (s : State) (l : Latched) (c : Ctx), s.lat = some l → s.ctx = some c →
    (∀ t, exec .roll s = .next t → t.lat = none → l.argK ≠ 0#32 → t.out.toNat < l.argK.toNat) ∧
    (∀ j, l.argK.toNat = 2 ^ j →
      ∃ t, exec .roll s = .next t ∧ t.lat = none ∧ t.adv = s.adv + 1#64 ∧
        t.out.toNat = (Gen.raw ⟨c, s.adv⟩).toNat % 2 ^ j) ∧
    (∀ t, exec .roll s = .next t → t.lat = none → 2147483648 < l.argK.toNat →
      ∃ n, firstAccepted l.argK ⟨c, s.adv⟩ n ∧ t.out = (Gen.after n ⟨c, s.adv⟩).raw) ∧
    ((∀ w ∈ c.words, w = 0#64) →
      ∃ t, exec .roll s = .next t ∧ t.lat = none ∧ t.adv = s.adv + 1#64 ∧ t.out = 0#32)

/-! ### Commands of the generator context (41_generator.md) -/

/-- 60_exceptions.md R129 (the row NO_HANDLE) and 10_state.md R18: without a handle every command that needs one ends
with NO_HANDLE and no other effect. -/
def Obligations.CommandsThatNeedAHandleReportItsAbsence : Prop :=
  ∀ (s : State) (i : Instr), s.ctx = none →
    i ∈ [Instr.release, .roll, .getState, .setState, .shuffle8, .shuffle16, .shuffle32, .shuffle64, .shufInit,
      .shufStep] →
    exec i s = .next { s with lat := none, done := true, err := some .noHandle }

/-- 41_generator.md R97: NOP completes and has no other effect, with or without a handle. -/
def Obligations.NopOnlyCompletes : Prop :=
  ∀ s : State, exec .nop s = .next { s with lat := none, done := true, err := none }

/-- 41_generator.md R98, R100, R101, 20_memory.md R50: a CREATE whose checks pass makes the context of its variant from
the big-endian seed words, whatever handle there was and whatever the seed; bytes past `WC * 8` do not matter. -/
def Obligations.CreateMakesTheContextOfItsSeed : Prop :=
  ∀ (s : State) (l : Latched) (i : Instr) (alg : Alg), s.lat = some l → createAlg i = some alg →
    alg.wc * 8 ≤ l.len.toNat → l.addr.toNat + alg.wc * 8 ≤ 4294967296 →
    s.coversDevice l.addr.toNat (alg.wc * 8) = false →
    (∀ j, j < alg.wc → s.memOk (l.addr.toNat + 8 * j) 8 .read = true) →
    ∃ c, exec i s = .next { s with
        lat := none, done := true, err := none, ctx := some c, adv := 0#64, shLen := 0#32, swp := false } ∧
      c.alg = alg ∧
      ∀ j, j < alg.wc → ∃ word, c.words[j]? = some word ∧
        word.toNat = ∑ p ∈ Finset.range 8, (readByte s.mem (l.addr.toNat + 8 * j + p)).toNat * 2 ^ (8 * (7 - p))

/-- 41_generator.md R98, R99, 60_exceptions.md R133: a CREATE that fails reports the first error in order and leaves
everything else, a valid handle among it. -/
def Obligations.FailedCreateLeavesTheOldHandle : Prop :=
  ∀ (s : State) (l : Latched) (i : Instr) (alg : Alg), s.lat = some l → createAlg i = some alg →
    (l.len.toNat < alg.wc * 8 →
      exec i s = .next { s with lat := none, done := true, err := some .insufficientSeed }) ∧
    (alg.wc * 8 ≤ l.len.toNat → 4294967296 < l.addr.toNat + alg.wc * 8 →
      exec i s = .next { s with lat := none, done := true, err := some .range, faultAddr := l.addr }) ∧
    (alg.wc * 8 ≤ l.len.toNat → l.addr.toNat + alg.wc * 8 ≤ 4294967296 →
      s.coversDevice l.addr.toNat (alg.wc * 8) = false →
      ∀ j, j < alg.wc → (∀ m, m < j → s.memOk (l.addr.toNat + 8 * m) 8 .read = true) →
        s.memOk (l.addr.toNat + 8 * j) 8 .read = false →
        exec i s = .next { s with
          lat := none, done := true, err := some .bus, faultAddr := BitVec.ofNat 32 (l.addr.toNat + 8 * j) })

/-- 41_generator.md R102: RELEASE ends the handle and the shuffle, keeps the counter and the results, and is an error
where there is no handle. -/
def Obligations.ReleaseEndsTheHandle : Prop :=
  ∀ s : State,
    (∀ c, s.ctx = some c → exec .release s = .next { s with
      lat := none, done := true, err := none, ctx := none, shLen := 0#32, swp := false }) ∧
    (s.ctx = none → exec .release s = .next { s with lat := none, done := true, err := some .noHandle })

/-- 41_generator.md R103, 20_memory.md R51: a GET_STATE whose checks and writes pass writes the big-endian image of the
state words, changes no other byte and nothing else. -/
def Obligations.GetStateWritesTheStateImage : Prop :=
  ∀ (s : State) (l : Latched) (c : Ctx), s.lat = some l → s.ctx = some c → memWf s.mem = true →
    l.addr.toNat + c.alg.wc * 8 ≤ 4294967296 → s.coversDevice l.addr.toNat (c.alg.wc * 8) = false →
    (∀ j, j < c.alg.wc → s.memOk (l.addr.toNat + 8 * j) 8 .write = true) →
    ∃ m, exec .getState s = .next { s with lat := none, done := true, err := none, mem := m } ∧
      (∀ j word p, c.words[j]? = some word → p < 8 →
        (readByte m (l.addr.toNat + 8 * j + p)).toNat = word.toNat / 2 ^ (8 * (7 - p)) % 256) ∧
      (∀ x, x < l.addr.toNat ∨ l.addr.toNat + c.alg.wc * 8 ≤ x → readByte m x = readByte s.mem x)

/-- 41_generator.md R104: GET_STATE on a bus error at word `j`: the words before it are written, its own bytes may hold
anything, the words after it are not written, and the context is unchanged. -/
def Obligations.GetStateBusErrorLeavesTheEarlierWords : Prop :=
  ∀ (s : State) (l : Latched) (c : Ctx) (j : Nat), s.lat = some l → s.ctx = some c → memWf s.mem = true →
    l.addr.toNat + c.alg.wc * 8 ≤ 4294967296 → s.coversDevice l.addr.toNat (c.alg.wc * 8) = false →
    j < c.alg.wc → (∀ m, m < j → s.memOk (l.addr.toNat + 8 * m) 8 .write = true) →
    s.memOk (l.addr.toNat + 8 * j) 8 .write = false →
    ∃ m n, exec .getState s = .next { s with
        lat := none, done := true, err := some .bus, faultAddr := BitVec.ofNat 32 (l.addr.toNat + 8 * j),
        mem := m, fresh := n } ∧
      (∀ k word p, k < j → c.words[k]? = some word → p < 8 →
        (readByte m (l.addr.toNat + 8 * k + p)).toNat = word.toNat / 2 ^ (8 * (7 - p)) % 256) ∧
      (∀ x, x < l.addr.toNat ∨ l.addr.toNat + 8 * j + 8 ≤ x → readByte m x = readByte s.mem x)

/-- 41_generator.md R105, 20_memory.md R50: a SET_STATE whose checks and reads pass overwrites the state words with the
big-endian image, and keeps the variant and everything else. -/
def Obligations.SetStateOverwritesTheStateWords : Prop :=
  ∀ (s : State) (l : Latched) (c : Ctx), s.lat = some l → s.ctx = some c →
    c.alg.wc * 8 ≤ l.len.toNat → l.addr.toNat + c.alg.wc * 8 ≤ 4294967296 →
    s.coversDevice l.addr.toNat (c.alg.wc * 8) = false →
    (∀ j, j < c.alg.wc → s.memOk (l.addr.toNat + 8 * j) 8 .read = true) →
    ∃ c', exec .setState s = .next { s with lat := none, done := true, err := none, ctx := some c' } ∧
      c'.alg = c.alg ∧
      ∀ j, j < c.alg.wc → ∃ word, c'.words[j]? = some word ∧
        word.toNat = ∑ p ∈ Finset.range 8, (readByte s.mem (l.addr.toNat + 8 * j + p)).toNat * 2 ^ (8 * (7 - p))

/-- 41_generator.md R105, 60_exceptions.md R133: a SET_STATE that fails reports the first error in order and leaves
`S` and everything else. -/
def Obligations.FailedSetStateLeavesTheState : Prop :=
  ∀ (s : State) (l : Latched) (c : Ctx), s.lat = some l → s.ctx = some c →
    (l.len.toNat < c.alg.wc * 8 →
      exec .setState s = .next { s with lat := none, done := true, err := some .insufficientSeed }) ∧
    (c.alg.wc * 8 ≤ l.len.toNat → 4294967296 < l.addr.toNat + c.alg.wc * 8 →
      exec .setState s = .next { s with lat := none, done := true, err := some .range, faultAddr := l.addr }) ∧
    (c.alg.wc * 8 ≤ l.len.toNat → l.addr.toNat + c.alg.wc * 8 ≤ 4294967296 →
      s.coversDevice l.addr.toNat (c.alg.wc * 8) = false →
      ∀ j, j < c.alg.wc → (∀ m, m < j → s.memOk (l.addr.toNat + 8 * m) 8 .read = true) →
        s.memOk (l.addr.toNat + 8 * j) 8 .read = false →
        exec .setState s = .next { s with
          lat := none, done := true, err := some .bus, faultAddr := BitVec.ofNat 32 (l.addr.toNat + 8 * j) })

/-- 20_memory.md R49: a command whose range passes the top of the memory space ends with RANGE at `lat.ADDR`, before
any other effect, once the checks that come before it (60_exceptions.md R133) pass. -/
def Obligations.RangePastTheTopIsReportedBeforeAnyEffect : Prop :=
  ∀ (s : State) (l : Latched) (i : Instr) (size : Nat), s.lat = some l →
    ((∃ alg, createAlg i = some alg ∧ size = alg.wc * 8 ∧ size ≤ l.len.toNat) ∨
      (i = .setState ∧ ∃ c, s.ctx = some c ∧ size = c.alg.wc * 8 ∧ size ≤ l.len.toNat) ∨
      (i = .getState ∧ ∃ c, s.ctx = some c ∧ size = c.alg.wc * 8) ∨
      (∃ w, shuffleWidth i = some w ∧ s.ctx ≠ none ∧ size = l.len.toNat * w)) →
    4294967296 < l.addr.toNat + size →
    exec i s = .next { s with lat := none, done := true, err := some .range, faultAddr := l.addr }

/-- 41_generator.md R106: GET_STATE after CREATE writes the seed back, and SET_STATE from what GET_STATE wrote leaves
the context as it was. -/
def Obligations.StateImagesRoundTrip : Prop :=
  (∀ (s t t' : State) (l l' : Latched) (i : Instr) (alg : Alg), memWf s.mem = true →
    s.lat = some l → createAlg i = some alg → exec i s = .next t → t.err = none →
    exec .getState { t with lat := some l' } = .next t' → t'.err = none →
    readBytes t'.mem l'.addr.toNat (alg.wc * 8) = readBytes s.mem l.addr.toNat (alg.wc * 8)) ∧
  (∀ (s t t' : State) (l l' : Latched), memWf s.mem = true →
    s.lat = some l → exec .getState s = .next t → t.err = none → l'.addr = l.addr →
    exec .setState { t with lat := some l' } = .next t' → t'.err = none → t'.ctx = s.ctx)

/-! ### The shuffle controller (43_shuffle.md) -/

/-- 43_shuffle.md R120: SHUF_INIT loads `SH_LEN` and clears `SWP`, drawing nothing. -/
def Obligations.ShufInitLoadsTheLength : Prop :=
  ∀ (s : State) (l : Latched), s.lat = some l →
    (∀ c, s.ctx = some c →
      exec .shufInit s = .next { s with lat := none, done := true, err := none, shLen := l.len, swp := false }) ∧
    (s.ctx = none → exec .shufInit s = .next { s with lat := none, done := true, err := some .noHandle })

/-- 43_shuffle.md R119, R121: SHUF_STEP at a length of at least 2 draws `r`, reports `r` and `j` and whether to swap,
and decrements the length; below 2 it only clears `SWP`; without a handle it ends with NO_HANDLE. -/
def Obligations.ShufStepReportsItsSwap : Prop :=
  ∀ s : State,
    (s.ctx = none → exec .shufStep s = .next { s with lat := none, done := true, err := some .noHandle }) ∧
    (∀ c, s.ctx = some c → s.shLen.toNat < 2 →
      exec .shufStep s = .next { s with lat := none, done := true, err := none, swp := false }) ∧
    (∀ c n, s.ctx = some c → 2 ≤ s.shLen.toNat → firstAccepted s.shLen ⟨c, s.adv⟩ n →
      exec .shufStep s = .next { s with
        lat := none
        done := true
        err := none
        ctx := some (Gen.after (n + 1) ⟨c, s.adv⟩).ctx
        adv := s.adv + BitVec.ofNat 64 (n + 1)
        out := sample s.shLen (Gen.after n ⟨c, s.adv⟩)
        outJ := s.shLen - 1#32
        swp := decide (sample s.shLen (Gen.after n ⟨c, s.adv⟩) ≠ s.shLen - 1#32)
        shLen := s.shLen - 1#32 })

/-- 43_shuffle.md R123, its corner cases: a SHUFFLE of no element or one draws nothing and touches no memory. -/
def Obligations.ShortShuffleDrawsNothing : Prop :=
  ∀ (s : State) (l : Latched) (c : Ctx) (i : Instr) (w : Nat), s.lat = some l → s.ctx = some c →
    shuffleWidth i = some w → l.len.toNat < 2 → l.addr.toNat + l.len.toNat * w ≤ 4294967296 →
    exec i s = .next { s with lat := none, done := true, err := none, shLen := l.len, swp := false }

/-- 43_shuffle.md R118, R123, R126: a SHUFFLE whose checks and accesses pass leaves its buffer as the Fisher–Yates
shuffle of its elements does, a permutation of them, and no other byte changed; it ends with `SH_LEN = min(n, 1)`, and
with `OUT`, `OUT_J` and `SWP` those of the step at length 2, the last one (R119; 10_state.md R32, R33). -/
def Obligations.ShuffleIsFisherYatesOnItsElements : Prop :=
  ∀ (s : State) (l : Latched) (c : Ctx) (i : Instr) (w : Nat) (g : Gen) (q : List (List Byte)),
    s.lat = some l → s.ctx = some c → memWf s.mem = true → shuffleWidth i = some w →
    l.addr.toNat + l.len.toNat * w ≤ 4294967296 →
    s.coversDevice l.addr.toNat (l.len.toNat * w) = false →
    (∀ m d, m < l.len.toNat → s.memOk (l.addr.toNat + m * w) w d = true) →
    shuffled l.len.toNat (min l.len.toNat 1) ⟨c, s.adv⟩ (elements s.mem l.addr.toNat w l.len.toNat) g q →
    ∃ t, exec i s = .next t ∧ t.lat = none ∧ t.done = true ∧ t.err = none ∧
      t.ctx = some g.ctx ∧ t.adv = g.adv ∧ t.shLen.toNat = min l.len.toNat 1 ∧
      elements t.mem l.addr.toNat w l.len.toNat = q ∧
      q.Perm (elements s.mem l.addr.toNat w l.len.toNat) ∧
      (∀ x, x < l.addr.toNat ∨ l.addr.toNat + l.len.toNat * w ≤ x → readByte t.mem x = readByte s.mem x) ∧
      (l.len.toNat < 2 → t.out = s.out ∧ t.outJ = s.outJ ∧ t.swp = false) ∧
      (2 ≤ l.len.toNat → ∃ g₂ q₂ n,
        shuffled l.len.toNat 2 ⟨c, s.adv⟩ (elements s.mem l.addr.toNat w l.len.toNat) g₂ q₂ ∧
        firstAccepted 2#32 g₂ n ∧ t.out = sample 2#32 (g₂.after n) ∧ t.outJ = 1#32 ∧ t.swp = decide (t.out ≠ 1#32))

/-- 43_shuffle.md R124, R125: a SHUFFLE that ends with BUS has completed every step before the one it failed in; that
step's draw is made, and its `r` and `j` stand in `OUT` and `OUT_J`; `SWP` is 1; `SH_LEN` is that step's length, not
decremented; the buffer is as the failed swap leaves it, no other byte changed; `FAULT_ADDR` is the failing address. -/
def Obligations.ShuffleBusErrorShowsItsStep : Prop :=
  ∀ (s t : State) (l : Latched) (c : Ctx) (i : Instr) (w : Nat), s.lat = some l → s.ctx = some c →
    memWf s.mem = true → shuffleWidth i = some w → exec i s = .next t → t.lat = none → t.err = some .bus →
    ∃ g q n a,
      2 ≤ t.shLen.toNat ∧ t.shLen.toNat ≤ l.len.toNat ∧
      shuffled l.len.toNat t.shLen.toNat ⟨c, s.adv⟩ (elements s.mem l.addr.toNat w l.len.toNat) g q ∧
      firstAccepted t.shLen g n ∧ t.ctx = some (g.after (n + 1)).ctx ∧ t.adv = (g.after (n + 1)).adv ∧
      t.out = sample t.shLen (g.after n) ∧ t.outJ = t.shLen - 1#32 ∧ t.out.toNat < t.outJ.toNat ∧ t.swp = true ∧
      t.faultAddr = BitVec.ofNat 32 a ∧
      failedSwap s l.addr.toNat w l.len.toNat q t.out.toNat t.outJ.toNat a t.mem ∧
      ∀ x, x < l.addr.toNat ∨ l.addr.toNat + l.len.toNat * w ≤ x → readByte t.mem x = readByte s.mem x

/-- 43_shuffle.md R127: two SHUFFLEs of one length from one generator make the same draws and report the same, whatever
their widths, addresses and elements. -/
def Obligations.ShufflesOfTwoWidthsDrawAlike : Prop :=
  ∀ (s s' t t' : State) (l l' : Latched) (i i' : Instr) (w w' : Nat), s.lat = some l → s'.lat = some l' →
    s.ctx = s'.ctx → s.adv = s'.adv → s.out = s'.out → s.outJ = s'.outJ → l.len = l'.len →
    shuffleWidth i = some w → shuffleWidth i' = some w' →
    exec i s = .next t → exec i' s' = .next t' → t.lat = none → t'.lat = none → t.err = none → t'.err = none →
    t.ctx = t'.ctx ∧ t.adv = t'.adv ∧ t.out = t'.out ∧ t.outJ = t'.outJ ∧ t.swp = t'.swp ∧ t.shLen = t'.shLen

/-! ### Errors (60_exceptions.md) -/

/-- 60_exceptions.md R134, 10_state.md R36: a command that ends with an error leaves the engine idle with the error
reported; `FAULT_ADDR` is `lat.ADDR` for RANGE, the start of the command's own access that the platform refused for BUS
(the first in the order of 20_memory.md R56 for CREATE, SET_STATE and GET_STATE; one of the two elements of the failed
step for SHUFFLE), and unchanged for every other error; the arguments and `HANDLE` stay as they were. -/
def Obligations.ErrorsAreReportedInTheirRegisters : Prop :=
  ∀ (s t : State) (l : Latched) (i : Instr) (e : ErrCode), s.lat = some l → exec i s = .next t → t.lat = none →
    t.err = some e →
    t.done = true ∧ t.argK = s.argK ∧ t.addr = s.addr ∧ t.len = s.len ∧ t.handle = s.handle ∧
    (e = .range → t.faultAddr = l.addr) ∧
    (e = .bus →
      (∃ wc j d, ((∃ alg, createAlg i = some alg ∧ wc = alg.wc ∧ d = .read) ∨
          (i = .setState ∧ ∃ c, s.ctx = some c ∧ wc = c.alg.wc ∧ d = .read) ∨
          (i = .getState ∧ ∃ c, s.ctx = some c ∧ wc = c.alg.wc ∧ d = .write)) ∧
        j < wc ∧ (∀ m, m < j → s.memOk (l.addr.toNat + 8 * m) 8 d = true) ∧
        s.memOk (l.addr.toNat + 8 * j) 8 d = false ∧ t.faultAddr = BitVec.ofNat 32 (l.addr.toNat + 8 * j)) ∨
      (∃ w m d, shuffleWidth i = some w ∧ (m = t.out ∨ m = t.outJ) ∧ m.toNat < l.len.toNat ∧
        s.memOk (l.addr.toNat + m.toNat * w) w d = false ∧
        t.faultAddr = BitVec.ofNat 32 (l.addr.toNat + m.toNat * w))) ∧
    (e ≠ .range → e ≠ .bus → t.faultAddr = s.faultAddr)

/-- 60_exceptions.md R135: an error other than BUS, and BUS of CREATE and SET_STATE, has no effect besides its report. -/
def Obligations.ErrorsArePrecise : Prop :=
  ∀ (s t : State) (l : Latched) (i : Instr) (e : ErrCode), s.lat = some l → exec i s = .next t → t.lat = none →
    t.err = some e → (e ≠ .bus ∨ i = .setState ∨ (createAlg i).isSome = true) →
    t = { s with lat := none, done := true, err := some e, faultAddr := t.faultAddr }

/-! ### Whole-machine rules -/

/-- 10_state.md R19: the context changes only by a reset and by the completion of a command that writes it: CREATE,
SET_STATE, the mixing step's ROLL, SHUFFLE and SHUF_STEP, and RELEASE. -/
def Obligations.OnlyTheseEventsWriteTheContext : Prop :=
  ∀ s t : State, step s = .next t → t.ctx ≠ s.ctx →
    (∃ rest, s.script = .reset :: rest) ∨
    (∃ l i, s.lat = some l ∧ decode l.cmd = .ok i ∧ t.lat = none ∧ i ∉ [Instr.nop, .getState, .shufInit])

/-- The platform's answers and devices are no state of the engine's: no step changes them (00_scope.md R6). -/
def Obligations.NoStepChangesThePlatform : Prop :=
  ∀ s t : State, step s = .next t → t.busErrors = s.busErrors ∧ t.devices = s.devices

/-- 60_exceptions.md R136: on the engine's turn the machine goes on, whatever word is latched and whatever the
operands, where no device with side effects lies in memory. -/
def Obligations.EngineTurnNeverStopsTheMachine : Prop :=
  ∀ (s : State) (rest : List Move), s.devices = [] → s.script = [] ∨ s.script = .engine :: rest ∨ s.script = .wait :: rest →
    ∃ t, step s = .next t

/-- The model's own: the canonical form, 20_memory.md R46 and 10_state.md R41 are kept by every step: memory stays
canonical and in the memory space, and a busy engine shows no completion and no error. -/
def Obligations.EveryStepKeepsTheInvariant : Prop :=
  ∀ s t : State, s.inv = true → step s = .next t → t.inv = true

/-- The invariant holds after reset. -/
def Obligations.ResetMeetsTheInvariant : Prop := State.reset.inv = true

/-- The model's own: in canonical form, memories with the same bytes are equal. -/
def Obligations.CanonicalMemoryIsItsBytes : Prop :=
  ∀ m m' : List Host.Cell, memWf m = true → memWf m' = true → (∀ x, readByte m x = readByte m' x) → m = m'

/-! ### Frames -/

/-- 20_memory.md R47 and the rules R97, R102, R115, R120, R121: what NOP, RELEASE, ROLL, SHUF_INIT and SHUF_STEP leave
unchanged: all memory, the host's registers and `FAULT_ADDR`, and what each does not name. -/
def Obligations.RegisterOnlyCommandsFrame : Prop :=
  ∀ (s t : State) (i : Instr), i ∈ [Instr.nop, .release, .roll, .shufInit, .shufStep] → exec i s = .next t →
    (t.mem = s.mem ∧ t.ie = s.ie ∧ t.ovr = s.ovr ∧ t.argK = s.argK ∧ t.addr = s.addr ∧ t.len = s.len ∧
      t.faultAddr = s.faultAddr ∧ t.busErrors = s.busErrors ∧ t.devices = s.devices ∧ t.script = s.script ∧
      t.seen = s.seen ∧ t.fresh = s.fresh) ∧
    (i = .nop → t.ctx = s.ctx ∧ t.adv = s.adv ∧ t.out = s.out ∧ t.outJ = s.outJ ∧ t.shLen = s.shLen ∧ t.swp = s.swp) ∧
    (i = .release → t.adv = s.adv ∧ t.out = s.out ∧ t.outJ = s.outJ) ∧
    (i = .roll → t.ctx.map Ctx.alg = s.ctx.map Ctx.alg ∧ t.outJ = s.outJ ∧ t.shLen = s.shLen ∧ t.swp = s.swp) ∧
    (i = .shufInit → t.ctx = s.ctx ∧ t.adv = s.adv ∧ t.out = s.out ∧ t.outJ = s.outJ) ∧
    (i = .shufStep → t.ctx.map Ctx.alg = s.ctx.map Ctx.alg)

/-- 41_generator.md R98, R105: what the six CREATE and SET_STATE leave unchanged: all memory, the results, the host's
registers, and for SET_STATE the variant, the counter and the shuffle. -/
def Obligations.CreateAndSetStateFrame : Prop :=
  ∀ (s t : State) (i : Instr), i = .setState ∨ (createAlg i).isSome = true → exec i s = .next t →
    (t.mem = s.mem ∧ t.ie = s.ie ∧ t.ovr = s.ovr ∧ t.argK = s.argK ∧ t.addr = s.addr ∧ t.len = s.len ∧
      t.out = s.out ∧ t.outJ = s.outJ ∧ t.busErrors = s.busErrors ∧ t.devices = s.devices ∧ t.script = s.script ∧
      t.seen = s.seen ∧ t.fresh = s.fresh ∧ (t.err = none → t.faultAddr = s.faultAddr)) ∧
    (i = .setState → t.ctx.map Ctx.alg = s.ctx.map Ctx.alg ∧ t.adv = s.adv ∧ t.shLen = s.shLen ∧ t.swp = s.swp)

/-- 41_generator.md R103, R104: what GET_STATE leaves unchanged: every register but those of its completion, and every
byte outside the `WC * 8` bytes from `lat.ADDR`. -/
def Obligations.GetStateFrame : Prop :=
  ∀ (s t : State) (l : Latched), s.lat = some l → exec .getState s = .next t →
    t.ctx = s.ctx ∧ t.adv = s.adv ∧ t.out = s.out ∧ t.outJ = s.outJ ∧ t.shLen = s.shLen ∧ t.swp = s.swp ∧
    t.ie = s.ie ∧ t.ovr = s.ovr ∧ t.argK = s.argK ∧ t.addr = s.addr ∧ t.len = s.len ∧
    t.busErrors = s.busErrors ∧ t.devices = s.devices ∧ t.script = s.script ∧ t.seen = s.seen ∧
    (t.err = none → t.faultAddr = s.faultAddr ∧ t.fresh = s.fresh) ∧
    ∀ x, (∀ c, s.ctx = some c → x < l.addr.toNat ∨ l.addr.toNat + c.alg.wc * 8 ≤ x) →
      readByte t.mem x = readByte s.mem x

/-- 43_shuffle.md R123 to R125: what the four SHUFFLE leave unchanged: the variant, the host's registers, and every
byte outside the `lat.LEN * W` bytes from `lat.ADDR`. -/
def Obligations.ShuffleFrame : Prop :=
  ∀ (s t : State) (l : Latched) (i : Instr) (w : Nat), s.lat = some l → shuffleWidth i = some w →
    exec i s = .next t →
    t.ctx.map Ctx.alg = s.ctx.map Ctx.alg ∧ t.ie = s.ie ∧ t.ovr = s.ovr ∧ t.argK = s.argK ∧ t.addr = s.addr ∧
    t.len = s.len ∧ t.busErrors = s.busErrors ∧ t.devices = s.devices ∧ t.script = s.script ∧ t.seen = s.seen ∧
    (t.err = none → t.faultAddr = s.faultAddr ∧ t.fresh = s.fresh) ∧
    ∀ x, x < l.addr.toNat ∨ l.addr.toNat + l.len.toNat * w ≤ x → readByte t.mem x = readByte s.mem x
end

