-- ==== Sys2Proof/Laws/Bytes.lean ====
section
/-! SUPPORT. The byte order of a state word: the two conversions are inverse (00_scope.md R12). -/

namespace Sys2Proof.Machine

theorem beBytes_length (w : Word64) : (beBytes w).length = 8 := rfl

theorem be64_cons8 (b0 b1 b2 b3 b4 b5 b6 b7 : Byte) :
    (be64 [b0, b1, b2, b3, b4, b5, b6, b7]).toNat =
      b0.toNat * 72057594037927936 + b1.toNat * 281474976710656 + b2.toNat * 1099511627776 + b3.toNat * 4294967296
        + b4.toNat * 16777216 + b5.toNat * 65536 + b6.toNat * 256 + b7.toNat := by
  have h0 := b0.isLt
  have h1 := b1.isLt
  have h2 := b2.isLt
  have h3 := b3.isLt
  have h4 := b4.isLt
  have h5 := b5.isLt
  have h6 := b6.isLt
  have h7 := b7.isLt
  simp only [be64, List.foldl, BitVec.toNat_add, BitVec.toNat_mul, BitVec.toNat_setWidth, BitVec.toNat_ofNat]
  omega

/-- `BE64(BEbytes(w)) = w` (00_scope.md R12). -/
theorem be64_beBytes (w : Word64) : be64 (beBytes w) = w := by
  apply BitVec.eq_of_toNat_eq
  have h := w.isLt
  simp only [beBytes]
  rw [be64_cons8]
  simp only [BitVec.extractLsb'_toNat, Nat.shiftRight_eq_div_pow]
  omega

/-- `BEbytes(BE64(b)) = b` (00_scope.md R12). -/
theorem beBytes_be64 {bs : List Byte} (h : bs.length = 8) : beBytes (be64 bs) = bs := by
  match bs, h with
  | [b0, b1, b2, b3, b4, b5, b6, b7], _ =>
    have h0 := b0.isLt
    have h1 := b1.isLt
    have h2 := b2.isLt
    have h3 := b3.isLt
    have h4 := b4.isLt
    have h5 := b5.isLt
    have h6 := b6.isLt
    have h7 := b7.isLt
    simp only [beBytes, List.cons.injEq, and_true]
    refine ⟨?_, ?_, ?_, ?_, ?_, ?_, ?_, ?_⟩ <;>
    · apply BitVec.eq_of_toNat_eq
      simp only [BitVec.extractLsb'_toNat, Nat.shiftRight_eq_div_pow]
      rw [be64_cons8]
      omega

/-- `BE64` of eight bytes of memory as a sum: byte 0 most significant (00_scope.md R12). -/
theorem be64_toNat (mem : List Host.Cell) (a : Nat) :
    (be64 (readBytes mem a 8)).toNat = ∑ p ∈ Finset.range 8, (readByte mem (a + p)).toNat * 2 ^ (8 * (7 - p)) := by
  simp only [readBytes]
  rw [be64_cons8]
  simp [Finset.sum_range_succ]

/-- Byte `p` of `BEbytes(w)` is bits `63 - 8p` down to `56 - 8p` of `w` (00_scope.md R12). -/
theorem readByte_of_beBytes {mem : List Host.Cell} {a p : Nat} {w : Word64} (h : readBytes mem a 8 = beBytes w)
    (hp : p < 8) : (readByte mem (a + p)).toNat = w.toNat / 2 ^ (8 * (7 - p)) % 256 := by
  simp only [readBytes, beBytes, List.cons.injEq, and_true] at h
  obtain ⟨h0, h1, h2, h3, h4, h5, h6, h7⟩ := h
  interval_cases p <;> simp [*, Nat.shiftRight_eq_div_pow]

end Sys2Proof.Machine
end

