-- ==== Sys2Proof/Laws/Memory.lean ====
section
/-! SUPPORT. Memory as data: a read after a write, the canonical form and its uniqueness, and byte
strings. -/

namespace Sys2Proof.Machine

/-! ### One byte -/

theorem readByte_writeByte_ne (mem : List Host.Cell) (b : Byte) {a x : Nat} (h : x ≠ a) :
    readByte (writeByte mem a b) x = readByte mem x := by
  induction mem with
  | nil => simp only [writeByte]; split <;> simp [readByte, h]
  | cons c rest ih =>
    obtain ⟨a', b'⟩ := c
    simp only [writeByte]
    split
    · split <;> simp [readByte, h]
    · split
      · subst a'; split <;> simp [readByte, h]
      · simp [readByte, ih]

theorem readByte_below {mem : List Host.Cell} {lo x : Nat} (h : memWfFrom lo mem = true) (hx : x < lo) :
    readByte mem x = 0#8 := by
  induction mem generalizing lo with
  | nil => rfl
  | cons c rest ih =>
    obtain ⟨a', b'⟩ := c
    simp only [memWfFrom, Bool.and_eq_true, decide_eq_true_eq] at h
    have hne : x ≠ a' := by omega
    simp only [readByte, hne, if_false]
    exact ih h.2 (by omega)

theorem memWfFrom_mono {mem : List Host.Cell} {lo lo' : Nat} (h : memWfFrom lo mem = true) (hle : lo' ≤ lo) :
    memWfFrom lo' mem = true := by
  cases mem with
  | nil => rfl
  | cons c rest =>
    simp only [memWfFrom, Bool.and_eq_true, decide_eq_true_eq] at h ⊢
    exact ⟨⟨by omega, h.1.2⟩, h.2⟩

theorem readByte_writeByte_same {mem : List Host.Cell} {lo : Nat} (h : memWfFrom lo mem = true) (a : Nat) (b : Byte) :
    readByte (writeByte mem a b) a = b := by
  induction mem generalizing lo with
  | nil =>
    simp only [writeByte]
    split
    · simp_all [readByte]
    · simp [readByte]
  | cons c rest ih =>
    obtain ⟨a', b'⟩ := c
    simp only [memWfFrom, Bool.and_eq_true, decide_eq_true_eq] at h
    simp only [writeByte]
    split
    · split
      · next hlt hb =>
        have hne : a ≠ a' := by omega
        simp only [readByte, hne, if_false]
        rw [readByte_below h.2 (by omega), hb]
      · simp [readByte]
    · split
      · subst a'
        split
        · next hb => rw [readByte_below h.2 (by omega), hb]
        · simp [readByte]
      · next hne => simp only [readByte, hne, if_false]; exact ih h.2

theorem memWfFrom_writeByte {mem : List Host.Cell} {lo a : Nat} (h : memWfFrom lo mem = true) (ha : lo ≤ a) (b : Byte) :
    memWfFrom lo (writeByte mem a b) = true := by
  induction mem generalizing lo with
  | nil =>
    simp only [writeByte]
    split
    · rfl
    · simp_all [memWfFrom]
  | cons c rest ih =>
    obtain ⟨a', b'⟩ := c
    have h' := h
    simp only [memWfFrom, Bool.and_eq_true, decide_eq_true_eq, bne_iff_ne, ne_eq] at h
    simp only [writeByte]
    split
    · split
      · exact h'
      · next hlt hb =>
        simp only [memWfFrom, Bool.and_eq_true, decide_eq_true_eq, bne_iff_ne, ne_eq]
        exact ⟨⟨ha, hb⟩, ⟨by omega, h.1.2⟩, h.2⟩
    · split
      · subst a'
        split
        · exact memWfFrom_mono h.2 (by omega)
        · next hb =>
          simp only [memWfFrom, Bool.and_eq_true, decide_eq_true_eq, bne_iff_ne, ne_eq]
          exact ⟨⟨ha, hb⟩, h.2⟩
      · simp only [memWfFrom, Bool.and_eq_true, decide_eq_true_eq, bne_iff_ne, ne_eq]
        exact ⟨h.1, ih h.2 (by omega)⟩

/-- A write keeps the canonical form. -/
theorem memWf_writeByte {mem : List Host.Cell} (h : memWf mem = true) (a : Nat) (b : Byte) :
    memWf (writeByte mem a b) = true := memWfFrom_writeByte h (Nat.zero_le a) b

/-- A write in the memory space keeps every entry in it. -/
theorem memInSpace_writeByte {mem : List Host.Cell} (h : memInSpace mem = true) {a : Nat}
    (ha : a < Config.addressLimit) (b : Byte) : memInSpace (writeByte mem a b) = true := by
  simp only [memInSpace] at h ⊢
  induction mem with
  | nil =>
    simp only [writeByte]
    split <;> simp [ha]
  | cons c rest ih =>
    obtain ⟨a', b'⟩ := c
    simp only [List.all_cons, Bool.and_eq_true, decide_eq_true_eq] at h
    have hr := ih h.2
    simp only [writeByte]
    split
    · split <;> simp only [List.all_cons, Bool.and_eq_true, decide_eq_true_eq]
      · exact h
      · exact ⟨ha, h⟩
    · split
      · split
        · exact h.2
        · simp only [List.all_cons, Bool.and_eq_true, decide_eq_true_eq]; exact ⟨ha, h.2⟩
      · simp only [List.all_cons, Bool.and_eq_true, decide_eq_true_eq]; exact ⟨h.1, hr⟩

/-! ### Byte strings -/

theorem readBytes_length (mem : List Host.Cell) (a n : Nat) : (readBytes mem a n).length = n := by
  induction n generalizing a with
  | zero => rfl
  | succ k ih => simp [readBytes, ih]

theorem readBytes_congr {m m' : List Host.Cell} {a n : Nat}
    (h : ∀ x, a ≤ x → x < a + n → readByte m x = readByte m' x) : readBytes m a n = readBytes m' a n := by
  induction n generalizing a with
  | zero => rfl
  | succ k ih =>
    simp only [readBytes]
    rw [h a (by omega) (by omega), ih (fun x h1 h2 => h x (by omega) (by omega))]

/-- A byte string written leaves every byte outside it. -/
theorem readByte_writeBytes_out (mem : List Host.Cell) (bs : List Byte) {a x : Nat}
    (h : x < a ∨ a + bs.length ≤ x) : readByte (writeBytes mem a bs) x = readByte mem x := by
  induction bs generalizing mem a with
  | nil => rfl
  | cons b rest ih =>
    simp only [List.length_cons] at h
    simp only [writeBytes]
    rw [ih _ (by omega), readByte_writeByte_ne _ _ (by omega)]

theorem memWf_writeBytes {mem : List Host.Cell} (h : memWf mem = true) (a : Nat) (bs : List Byte) :
    memWf (writeBytes mem a bs) = true := by
  induction bs generalizing mem a with
  | nil => exact h
  | cons b rest ih => exact ih (memWf_writeByte h a b) (a + 1)

theorem memInSpace_writeBytes {mem : List Host.Cell} (h : memInSpace mem = true) {a : Nat} {bs : List Byte}
    (ha : a + bs.length ≤ Config.addressLimit) : memInSpace (writeBytes mem a bs) = true := by
  induction bs generalizing mem a with
  | nil => exact h
  | cons b rest ih =>
    simp only [List.length_cons] at ha
    exact ih (memInSpace_writeByte h (by omega) b) (by omega)

/-- A byte string written reads back. -/
theorem readBytes_writeBytes_same {mem : List Host.Cell} (h : memWf mem = true) (a : Nat) (bs : List Byte) :
    readBytes (writeBytes mem a bs) a bs.length = bs := by
  induction bs generalizing mem a with
  | nil => rfl
  | cons b rest ih =>
    simp only [writeBytes, List.length_cons, readBytes]
    rw [ih (memWf_writeByte h a b) (a + 1), readByte_writeBytes_out _ _ (by omega),
      readByte_writeByte_same (lo := 0) h]

theorem writeBytes_append (mem : List Host.Cell) (a : Nat) (bs cs : List Byte) :
    writeBytes mem a (bs ++ cs) = writeBytes (writeBytes mem a bs) (a + bs.length) cs := by
  induction bs generalizing mem a with
  | nil => rfl
  | cons b rest ih =>
    simp only [List.cons_append, writeBytes, List.length_cons]
    rw [ih, Nat.add_assoc, Nat.add_comm 1]

end Sys2Proof.Machine
end

