-- ==== Sys2Proof/Laws/Port.lean ====
section
/-! SUPPORT. What the engine's memory port can do: free bytes, `MemRead`, `MemWrite`, words read and written, and the
context made of words. -/

namespace Sys2Proof.Machine

/-- Free values change memory and the counter of free values only. -/
theorem State.scramble_eq (s : State) (a n : Nat) :
    s.scramble a n = { s with mem := (s.scramble a n).mem, fresh := s.fresh + n } := by
  induction n generalizing s a with
  | zero => rfl
  | succ k ih =>
    simp only [State.scramble]
    rw [ih]
    simp only [State.mk.injEq, true_and]
    omega

theorem State.scramble_out (s : State) {a n x : Nat} (h : x < a ∨ a + n ≤ x) :
    readByte (s.scramble a n).mem x = readByte s.mem x := by
  induction n generalizing s a with
  | zero => rfl
  | succ k ih =>
    simp only [State.scramble]
    rw [ih _ (by omega)]
    exact readByte_writeByte_ne _ _ (by omega)

theorem State.scramble_wf {s : State} (h : memWf s.mem = true) (a n : Nat) :
    memWf (s.scramble a n).mem = true := by
  induction n generalizing s a with
  | zero => exact h
  | succ k ih => exact ih (memWf_writeByte h a _) (a + 1)

theorem State.scramble_inSpace {s : State} (h : memInSpace s.mem = true) {a n : Nat}
    (ha : a + n ≤ Config.addressLimit) : memInSpace (s.scramble a n).mem = true := by
  induction n generalizing s a with
  | zero => exact h
  | succ k ih =>
    exact ih (s := { s with mem := writeByte s.mem a (Config.freeByte s.fresh), fresh := s.fresh + 1 })
      (memInSpace_writeByte h (by omega) _) (by omega)

/-- All that `MemRead` can do. -/
theorem State.memRead_cases (s : State) (a n : Nat) :
    (s.memOk a n .read = true ∧ s.memRead a n = .ok (readBytes s.mem a n)) ∨
    (s.memOk a n .read = false ∧ s.memRead a n = .error (.bus (BitVec.ofNat 32 a))) := by
  unfold State.memRead
  cases h : s.memOk a n .read <;> simp

/-- All that `MemWrite` can do. -/
theorem State.memWrite_cases (s : State) (a : Nat) (bs : List Byte) :
    (s.memOk a bs.length .write = true ∧ s.memWrite a bs = .ok { s with mem := writeBytes s.mem a bs }) ∨
    (s.memOk a bs.length .write = false ∧
      s.memWrite a bs = .error (.bus (BitVec.ofNat 32 a), s.scramble a bs.length)) := by
  unfold State.memWrite
  cases h : s.memOk a bs.length .write <;> simp

/-- The `n` big-endian words from an address (20_memory.md R50). -/
def memWords (mem : List Host.Cell) (a n : Nat) : List Word64 :=
  match n with
  | 0 => []
  | k + 1 => be64 (readBytes mem a 8) :: memWords mem (a + 8) k

theorem memWords_length (mem : List Host.Cell) (a n : Nat) : (memWords mem a n).length = n := by
  induction n generalizing a with
  | zero => rfl
  | succ k ih => simp [memWords, ih]

theorem memWords_getElem? (mem : List Host.Cell) (a n i : Nat) (h : i < n) :
    (memWords mem a n)[i]? = some (be64 (readBytes mem (a + 8 * i) 8)) := by
  induction n generalizing a i with
  | zero => omega
  | succ k ih =>
    cases i with
    | zero => simp [memWords]
    | succ j =>
      simp only [memWords, List.getElem?_cons_succ]
      rw [ih (a + 8) j (by omega), show a + 8 + 8 * j = a + 8 * (j + 1) by omega]

/-- All that reading words can do: every read succeeds and gives the words, or the first that fails gives its bus
error. -/
theorem State.readWords_cases (s : State) (a n : Nat) :
    ((∀ i, i < n → s.memOk (a + 8 * i) 8 .read = true) ∧ s.readWords a n = .ok (memWords s.mem a n)) ∨
    (∃ i, i < n ∧ (∀ j, j < i → s.memOk (a + 8 * j) 8 .read = true) ∧ s.memOk (a + 8 * i) 8 .read = false ∧
      s.readWords a n = .error (.bus (BitVec.ofNat 32 (a + 8 * i)))) := by
  induction n generalizing a with
  | zero => exact .inl ⟨by omega, rfl⟩
  | succ k ih =>
    have shift : ∀ j, a + 8 + 8 * j = a + 8 * (j + 1) := fun j => by omega
    rcases s.memRead_cases a 8 with ⟨ok, read⟩ | ⟨bad, read⟩
    · rcases ih (a + 8) with ⟨oks, words⟩ | ⟨i, hi, oks, bad, words⟩
      · refine .inl ⟨fun i hi => ?_, by simp [State.readWords, read, words, memWords]⟩
        cases i with
        | zero => exact ok
        | succ j => exact shift j ▸ oks j (by omega)
      · refine .inr ⟨i + 1, by omega, fun j hj => ?_, shift i ▸ bad, ?_⟩
        · cases j with
          | zero => exact ok
          | succ m => exact shift m ▸ oks m (by omega)
        · simp [State.readWords, read, words, shift i]
    · exact .inr ⟨0, by omega, by omega, bad, by simp [State.readWords, read]⟩

/-- All that writing words can do: every write succeeds, or the first that fails leaves the words before it written
and its own bytes free. -/
theorem State.writeWords_cases (s : State) (a : Nat) (ws : List Word64) :
    ((∀ i, i < ws.length → s.memOk (a + 8 * i) 8 .write = true) ∧
      s.writeWords a ws = .ok { s with mem := writeBytes s.mem a (ws.flatMap beBytes) }) ∨
    (∃ i, i < ws.length ∧ (∀ j, j < i → s.memOk (a + 8 * j) 8 .write = true) ∧
      s.memOk (a + 8 * i) 8 .write = false ∧
      s.writeWords a ws = .error (.bus (BitVec.ofNat 32 (a + 8 * i)),
        ({ s with mem := writeBytes s.mem a ((ws.take i).flatMap beBytes) } : State).scramble (a + 8 * i) 8)) := by
  induction ws generalizing s a with
  | nil => exact .inl ⟨by simp, rfl⟩
  | cons w rest ih =>
    have shift : ∀ j, a + 8 + 8 * j = a + 8 * (j + 1) := fun j => by omega
    rcases s.memWrite_cases a (beBytes w) with ⟨ok, write⟩ | ⟨bad, write⟩
    · rw [beBytes_length] at ok
      rcases ih { s with mem := writeBytes s.mem a (beBytes w) } (a + 8) with ⟨oks, words⟩ | ⟨i, hi, oks, bad, words⟩
      · refine .inl ⟨fun i hi => ?_, ?_⟩
        · cases i with
          | zero => exact ok
          | succ j => exact shift j ▸ oks j (by simpa using hi)
        · simp [State.writeWords, write, words, writeBytes_append, beBytes_length]
      · refine .inr ⟨i + 1, by simpa using hi, fun j hj => ?_, shift i ▸ bad, ?_⟩
        · cases j with
          | zero => exact ok
          | succ m => exact shift m ▸ oks m (by omega)
        · simp [State.writeWords, write, words, shift i, writeBytes_append, beBytes_length]
    · rw [beBytes_length] at bad write
      exact .inr ⟨0, by simp, by omega, bad, by simp [State.writeWords, write, writeBytes]⟩

/-- The words a context is made of are its words (10_state.md R16). -/
theorem ctxOfWords_words {alg : Alg} {ws : List Word64} (h : ws.length = alg.wc) : (ctxOfWords alg ws).words = ws := by
  obtain ⟨fam, scr⟩ := alg
  cases fam
  · match ws, h with
    | [w0, w1, w2, w3], _ => rfl
  · match ws, h with
    | [w0, w1, w2, w3, w4, w5, w6, w7], _ => rfl

theorem ctxOfWords_alg (alg : Alg) (ws : List Word64) : (ctxOfWords alg ws).alg = alg := by
  obtain ⟨fam, scr⟩ := alg
  cases fam <;> rfl

theorem Ctx.words_length (c : Ctx) : c.words.length = c.alg.wc := by cases c <;> rfl

/-- A context is its variant and its words (10_state.md R16). -/
theorem ctxOfWords_self (c : Ctx) : ctxOfWords c.alg c.words = c := by cases c <;> rfl

end Sys2Proof.Machine
end

