-- ==== Sys2Proof/Laws/Sampler.lean ====
section
/-! SUPPORT. What a finite number of draws of the sampler can do (42_sampler.md R108, R111), in the vocabulary of
Sys2Proof/Safety.lean. -/

namespace Sys2Proof.Machine

@[simp] theorem Gen.after_zero (g : Gen) : g.after 0 = g := rfl

theorem Gen.after_succ (g : Gen) (n : Nat) : g.after (n + 1) = g.advance.after n := rfl

theorem Gen.after_succ' (g : Gen) (n : Nat) : g.after (n + 1) = (g.after n).advance := by
  induction n generalizing g with
  | zero => rfl
  | succ m ih => rw [Gen.after_succ, ih, ← Gen.after_succ]

theorem Gen.after_add (g : Gen) (m n : Nat) : g.after (m + n) = (g.after m).after n := by
  induction m generalizing g with
  | zero => simp
  | succ k ih => rw [Nat.add_right_comm, Gen.after_succ, ih, ← Gen.after_succ]

/-- The advance counter counts the mixing steps (10_state.md R35). -/
theorem Gen.after_adv (g : Gen) (n : Nat) : (g.after n).adv = g.adv + BitVec.ofNat 64 n := by
  induction n generalizing g with
  | zero => simp
  | succ m ih =>
    rw [Gen.after_succ, ih]
    simp only [Gen.advance]
    rw [BitVec.add_assoc, ← BitVec.ofNat_add, Nat.add_comm 1]

/-- Mixing keeps the variant (40_mixing.md R81). -/
theorem Ctx.update_alg (c : Ctx) : c.update.alg = c.alg := by cases c <;> rfl

theorem Gen.after_alg (g : Gen) (n : Nat) : (g.after n).ctx.alg = g.ctx.alg := by
  induction n generalizing g with
  | zero => rfl
  | succ m ih => rw [Gen.after_succ, ih]; exact Ctx.update_alg g.ctx

/-- For `k > 0` the draw accepted is the one below the bound. -/
theorem accepts_iff {k : Word32} (hk : k ≠ 0#32) (g : Gen) : accepts k g ↔ g.raw.toNat < rollBound k := by
  simp [accepts, hk, rollBound]

theorem sample_eq_umod {k : Word32} (hk : k ≠ 0#32) (g : Gen) : sample k g = g.raw % k := by
  simp only [sample, hk, if_false]
  apply BitVec.eq_of_toNat_eq
  rw [BitVec.toNat_umod, BitVec.toNat_ofNat]
  exact Nat.mod_eq_of_lt (Nat.lt_of_le_of_lt (Nat.mod_le _ _) g.raw.isLt)

/-- All that the rejection loop can do with some fuel: it ends at the first accepted draw, or rejects them all. -/
theorem rollLoop_cases {k : Word32} (hk : k ≠ 0#32) (fuel : Nat) (g : Gen) :
    (∃ n, n < fuel ∧ firstAccepted k g n ∧ rollLoop fuel k g = some (sample k (g.after n), g.after (n + 1))) ∨
    ((∀ n, n < fuel → ¬ accepts k (g.after n)) ∧ rollLoop fuel k g = none) := by
  induction fuel generalizing g with
  | zero => exact .inr ⟨by omega, rfl⟩
  | succ f ih =>
    by_cases h : g.raw.toNat < rollBound k
    · refine .inl ⟨0, by omega, ⟨by omega, (accepts_iff hk g).2 h⟩, ?_⟩
      simp [rollLoop, h, sample_eq_umod hk, Gen.after_succ]
    · have hrej : ¬ accepts k g := fun ha => h ((accepts_iff hk g).1 ha)
      rcases ih g.advance with ⟨n, hn, ⟨hlt, hacc⟩, heq⟩ | ⟨hall, heq⟩
      · refine .inl ⟨n + 1, by omega, ⟨fun m hm => ?_, hacc⟩, ?_⟩
        · cases m with
          | zero => exact hrej
          | succ j => exact hlt j (by omega)
        · simpa [rollLoop, h, Gen.after_succ] using heq
      · refine .inr ⟨fun n hn => ?_, ?_⟩
        · cases n with
          | zero => exact hrej
          | succ j => exact hall j (by omega)
        · simpa [rollLoop, h] using heq

/-- Where `Roll(k)` has a value, it is that of its first accepted draw (42_sampler.md R108, R111). -/
theorem roll_some {k : Word32} {g g' : Gen} {r : Word32} (h : roll k g = some (r, g')) :
    ∃ n, firstAccepted k g n ∧ r = sample k (g.after n) ∧ g' = g.after (n + 1) := by
  by_cases hk : k = 0#32
  · refine ⟨0, ⟨by omega, .inl hk⟩, ?_⟩
    simp only [roll, hk, if_true, mix, Option.some.injEq, Prod.mk.injEq] at h
    simp [sample, hk, h.1, h.2, Gen.after_succ]
  · simp only [roll, hk, if_false] at h
    rcases rollLoop_cases hk Config.drawFuel g with ⟨n, -, hfirst, heq⟩ | ⟨-, heq⟩
    · rw [heq, Option.some.injEq, Prod.mk.injEq] at h
      exact ⟨n, hfirst, h.1.symm, h.2.symm⟩
    · rw [heq] at h
      cases h

/-! ### The number of draws is enough -/

/-- A number below `2^512` for the state words of a context. -/
def Ctx.key (c : Ctx) : Fin (2 ^ 256 * 2 ^ 256) :=
  match c with
  | .c256 _ s => ⟨s.s0.toNat + 2 ^ 64 * (s.s1.toNat + 2 ^ 64 * (s.s2.toNat + 2 ^ 64 * s.s3.toNat)), by
      have := s.s0.isLt; have := s.s1.isLt; have := s.s2.isLt; have := s.s3.isLt; omega⟩
  | .c512 _ s => ⟨s.s0.toNat + 2 ^ 64 * (s.s1.toNat + 2 ^ 64 * (s.s2.toNat + 2 ^ 64 * (s.s3.toNat + 2 ^ 64 *
      (s.s4.toNat + 2 ^ 64 * (s.s5.toNat + 2 ^ 64 * (s.s6.toNat + 2 ^ 64 * s.s7.toNat)))))), by
      have := s.s0.isLt; have := s.s1.isLt; have := s.s2.isLt; have := s.s3.isLt
      have := s.s4.isLt; have := s.s5.isLt; have := s.s6.isLt; have := s.s7.isLt; omega⟩

/-- Contexts of one variant with one key are equal. -/
theorem Ctx.key_inj {c c' : Ctx} (h : c.alg = c'.alg) (hk : c.key = c'.key) : c = c' := by
  rcases c with ⟨scr, x⟩ | ⟨scr, x⟩ <;> rcases c' with ⟨scr', x'⟩ | ⟨scr', x'⟩ <;> simp [Ctx.alg] at h
  · obtain ⟨a0, a1, a2, a3⟩ := x
    obtain ⟨b0, b1, b2, b3⟩ := x'
    simp only [Ctx.key, Fin.mk.injEq] at hk
    have := a0.isLt; have := a1.isLt; have := a2.isLt; have := a3.isLt
    have := b0.isLt; have := b1.isLt; have := b2.isLt; have := b3.isLt
    rw [h, BitVec.eq_of_toNat_eq (show a0.toNat = b0.toNat by omega),
      BitVec.eq_of_toNat_eq (show a1.toNat = b1.toNat by omega),
      BitVec.eq_of_toNat_eq (show a2.toNat = b2.toNat by omega),
      BitVec.eq_of_toNat_eq (show a3.toNat = b3.toNat by omega)]
  · obtain ⟨a0, a1, a2, a3, a4, a5, a6, a7⟩ := x
    obtain ⟨b0, b1, b2, b3, b4, b5, b6, b7⟩ := x'
    simp only [Ctx.key, Fin.mk.injEq] at hk
    have := a0.isLt; have := a1.isLt; have := a2.isLt; have := a3.isLt
    have := b0.isLt; have := b1.isLt; have := b2.isLt; have := b3.isLt
    have := a4.isLt; have := a5.isLt; have := a6.isLt; have := a7.isLt
    have := b4.isLt; have := b5.isLt; have := b6.isLt; have := b7.isLt
    rw [h, BitVec.eq_of_toNat_eq (show a0.toNat = b0.toNat by omega),
      BitVec.eq_of_toNat_eq (show a1.toNat = b1.toNat by omega),
      BitVec.eq_of_toNat_eq (show a2.toNat = b2.toNat by omega),
      BitVec.eq_of_toNat_eq (show a3.toNat = b3.toNat by omega),
      BitVec.eq_of_toNat_eq (show a4.toNat = b4.toNat by omega),
      BitVec.eq_of_toNat_eq (show a5.toNat = b5.toNat by omega),
      BitVec.eq_of_toNat_eq (show a6.toNat = b6.toNat by omega),
      BitVec.eq_of_toNat_eq (show a7.toNat = b7.toNat by omega)]

/-- Equal contexts stay equal, whatever their counters. -/
theorem Gen.after_ctx_congr {g g' : Gen} (h : g.ctx = g'.ctx) (n : Nat) : (g.after n).ctx = (g'.after n).ctx := by
  induction n generalizing g g' with
  | zero => exact h
  | succ m ih => rw [Gen.after_succ, Gen.after_succ]; exact ih (by simp [Gen.advance, h])

/-- A context that mixing reaches, it reaches within `2^512` steps: there are no more states. -/
theorem Gen.reached_early (g : Gen) (n : Nat) : ∃ m, m < 2 ^ 256 * 2 ^ 256 ∧ (g.after m).ctx = (g.after n).ctx := by
  induction n using Nat.strong_induction_on with
  | _ n ih =>
    by_cases hn : n < 2 ^ 256 * 2 ^ 256
    · exact ⟨n, hn, rfl⟩
    · have twice : ∃ i j : Fin (2 ^ 256 * 2 ^ 256 + 1), i ≠ j ∧ (g.after i).ctx.key = (g.after j).ctx.key := by
        apply Fintype.exists_ne_map_eq_of_card_lt
        simp
      obtain ⟨i, j, hij, hk⟩ := twice
      have hk' := Ctx.key_inj (by rw [Gen.after_alg, Gen.after_alg]) hk
      wlog hlt : i.val < j.val generalizing i j
      · exact this j i hij.symm hk.symm hk'.symm (by have := Fin.val_ne_of_ne hij; omega)
      have hj := j.isLt
      obtain ⟨m, hm, he⟩ := ih (i.val + (n - j.val)) (by omega)
      refine ⟨m, hm, he.trans ?_⟩
      rw [Gen.after_add, Gen.after_ctx_congr hk', ← Gen.after_add, show j.val + (n - j.val) = n by omega]

/-- The first accepted draw, if there is one, comes before the draws run out (notes/assumptions/6.md). -/
theorem firstAccepted_lt {k : Word32} {g : Gen} {n : Nat} (h : firstAccepted k g n) : n < Config.drawFuel := by
  unfold Config.drawFuel
  obtain ⟨m, hm, he⟩ := g.reached_early n
  by_contra hcon
  refine h.1 m (by omega) ?_
  have hacc := h.2
  simp only [accepts, Gen.raw] at hacc ⊢
  rwa [he]

theorem firstAccepted_unique {k : Word32} {g : Gen} {n m : Nat} (h : firstAccepted k g n)
    (h' : firstAccepted k g m) : n = m := by
  rcases Nat.lt_trichotomy n m with hl | he | hl
  · exact absurd h.2 (h'.1 n hl)
  · exact he
  · exact absurd h'.2 (h.1 m hl)

/-- `Roll(k)` is its first accepted draw, wherever there is one (42_sampler.md R108, R111). -/
theorem roll_of_firstAccepted {k : Word32} {g : Gen} {n : Nat} (h : firstAccepted k g n) :
    roll k g = some (sample k (g.after n), g.after (n + 1)) := by
  by_cases hk : k = 0#32
  · have h0 : n = 0 := by
      by_contra hne
      exact h.1 0 (by omega) (.inl hk)
    subst h0
    simp [roll, hk, mix, sample, Gen.after_succ]
  · simp only [roll, hk, if_false]
    rcases rollLoop_cases hk Config.drawFuel g with ⟨m, -, hm, heq⟩ | ⟨hall, -⟩
    · rw [firstAccepted_unique h hm, heq]
    · exact absurd h.2 (hall n (firstAccepted_lt h))

/-- `Roll(k)` has no value where no draw is ever accepted (42_sampler.md R112). -/
theorem roll_of_never {k : Word32} {g : Gen} (h : ∀ n, ¬ accepts k (g.after n)) : roll k g = none := by
  cases hr : roll k g with
  | none => rfl
  | some p =>
    obtain ⟨n, hn, -, -⟩ := roll_some (r := p.1) (g' := p.2) hr
    exact absurd hn.2 (h n)

end Sys2Proof.Machine
end

