-- ==== Sys2Proof/Laws/Shuffle.lean ====
section
/-! SUPPORT. What a shuffle step, a swap and the loop of SHUFFLE can do (43_shuffle.md R119, R123 to R125). -/

namespace Sys2Proof.Machine

/-- All that a shuffle step that ends can do (43_shuffle.md R119). -/
theorem shufStep_some {c c' : Ctx} {s t : State} (h : shufStep c s = some (c', t)) :
    ∃ n, firstAccepted s.shLen ⟨c, s.adv⟩ n ∧
      c' = ((⟨c, s.adv⟩ : Gen).after (n + 1)).ctx ∧
      t = { s with
        ctx := some c'
        adv := ((⟨c, s.adv⟩ : Gen).after (n + 1)).adv
        out := sample s.shLen ((⟨c, s.adv⟩ : Gen).after n)
        outJ := s.shLen - 1#32
        swp := sample s.shLen ((⟨c, s.adv⟩ : Gen).after n) != s.shLen - 1#32 } := by
  unfold shufStep at h
  split at h
  · cases h
  · next r g hr =>
    obtain ⟨n, hfirst, rfl, rfl⟩ := roll_some hr
    simp only [Option.some.injEq, Prod.mk.injEq] at h
    obtain ⟨rfl, rfl⟩ := h
    exact ⟨n, hfirst, rfl, rfl⟩

/-- All that a swap can do: it exchanges the two byte strings; or a read fails and nothing is written; or the first
write fails, and its bytes are free; or the second fails, and its bytes are free (43_shuffle.md R124). -/
theorem swap_cases (s : State) (ar aj w : Nat) :
    (s.memOk ar w .read = true ∧ s.memOk aj w .read = true ∧ s.memOk ar w .write = true ∧
      s.memOk aj w .write = true ∧
      swap s ar aj w = .ok { s with
        mem := writeBytes (writeBytes s.mem ar (readBytes s.mem aj w)) aj (readBytes s.mem ar w) }) ∨
    (s.memOk ar w .read = false ∧ swap s ar aj w = .error (.bus (BitVec.ofNat 32 ar), s)) ∨
    (s.memOk ar w .read = true ∧ s.memOk aj w .read = false ∧
      swap s ar aj w = .error (.bus (BitVec.ofNat 32 aj), s)) ∨
    (s.memOk ar w .read = true ∧ s.memOk aj w .read = true ∧ s.memOk ar w .write = false ∧
      swap s ar aj w = .error (.bus (BitVec.ofNat 32 ar), s.scramble ar w)) ∨
    (s.memOk ar w .read = true ∧ s.memOk aj w .read = true ∧ s.memOk ar w .write = true ∧
      s.memOk aj w .write = false ∧
      swap s ar aj w = .error (.bus (BitVec.ofNat 32 aj),
        ({ s with mem := writeBytes s.mem ar (readBytes s.mem aj w) } : State).scramble aj w)) := by
  unfold swap
  rcases s.memRead_cases ar w with ⟨ok1, read1⟩ | ⟨bad1, read1⟩
  · rcases s.memRead_cases aj w with ⟨ok2, read2⟩ | ⟨bad2, read2⟩
    · rcases s.memWrite_cases ar (readBytes s.mem aj w) with ⟨ok3, write3⟩ | ⟨bad3, write3⟩
      · rw [readBytes_length] at ok3
        rcases ({ s with mem := writeBytes s.mem ar (readBytes s.mem aj w) } : State).memWrite_cases aj
          (readBytes s.mem ar w) with ⟨ok4, write4⟩ | ⟨bad4, write4⟩
        · rw [readBytes_length] at ok4
          exact .inl ⟨ok1, ok2, ok3, ok4, by simp [read1, read2, write3, write4]⟩
        · rw [readBytes_length] at bad4 write4
          exact .inr (.inr (.inr (.inr ⟨ok1, ok2, ok3, bad4, by simp [read1, read2, write3, write4]⟩)))
      · rw [readBytes_length] at bad3 write3
        exact .inr (.inr (.inr (.inl ⟨ok1, ok2, bad3, by simp [read1, read2, write3]⟩)))
    · exact .inr (.inr (.inl ⟨ok1, bad2, by simp [read1, read2]⟩))
  · exact .inr (.inl ⟨bad1, by simp [read1]⟩)

/-- What the engine's part of the machine looks like to a shuffle: everything but what its steps write. -/
def sameButShuffle (s t : State) : Prop :=
  t = { s with
    ctx := t.ctx, adv := t.adv, out := t.out, outJ := t.outJ, swp := t.swp, shLen := t.shLen, mem := t.mem,
    fresh := t.fresh }

theorem sameButShuffle_refl (s : State) : sameButShuffle s s := rfl

theorem sameButShuffle_trans {s t u : State} (h : sameButShuffle s t) (h' : sameButShuffle t u) :
    sameButShuffle s u := by
  unfold sameButShuffle at *
  rw [h']
  rw [h]

theorem sameButShuffle_swap {s t : State} {ar aj w : Nat} (h : swap s ar aj w = .ok t) : sameButShuffle s t := by
  rcases swap_cases s ar aj w with ⟨-, -, -, -, e⟩ | ⟨-, e⟩ | ⟨-, -, e⟩ | ⟨-, -, -, e⟩ | ⟨-, -, -, -, e⟩ <;>
    rw [e] at h <;> cases h
  rfl

end Sys2Proof.Machine
end

