-- ==== Sys2Proof/Laws/State.lean ====
section
/-! SUPPORT. One lemma per field per named update of State, each true by rfl, so that no proof unfolds a record
update. -/

namespace Sys2Proof.Machine

/-! ### State.completed -/

@[simp] theorem State.completed_ctx (s : State) : s.completed.ctx = s.ctx := rfl
@[simp] theorem State.completed_ie (s : State) : s.completed.ie = s.ie := rfl
@[simp] theorem State.completed_done (s : State) : s.completed.done = true := rfl
@[simp] theorem State.completed_ovr (s : State) : s.completed.ovr = s.ovr := rfl
@[simp] theorem State.completed_swp (s : State) : s.completed.swp = s.swp := rfl
@[simp] theorem State.completed_err (s : State) : s.completed.err = none := rfl
@[simp] theorem State.completed_lat (s : State) : s.completed.lat = none := rfl
@[simp] theorem State.completed_argK (s : State) : s.completed.argK = s.argK := rfl
@[simp] theorem State.completed_addr (s : State) : s.completed.addr = s.addr := rfl
@[simp] theorem State.completed_len (s : State) : s.completed.len = s.len := rfl
@[simp] theorem State.completed_out (s : State) : s.completed.out = s.out := rfl
@[simp] theorem State.completed_outJ (s : State) : s.completed.outJ = s.outJ := rfl
@[simp] theorem State.completed_shLen (s : State) : s.completed.shLen = s.shLen := rfl
@[simp] theorem State.completed_faultAddr (s : State) : s.completed.faultAddr = s.faultAddr := rfl
@[simp] theorem State.completed_adv (s : State) : s.completed.adv = s.adv := rfl
@[simp] theorem State.completed_mem (s : State) : s.completed.mem = s.mem := rfl
@[simp] theorem State.completed_busErrors (s : State) : s.completed.busErrors = s.busErrors := rfl
@[simp] theorem State.completed_devices (s : State) : s.completed.devices = s.devices := rfl
@[simp] theorem State.completed_script (s : State) : s.completed.script = s.script := rfl
@[simp] theorem State.completed_seen (s : State) : s.completed.seen = s.seen := rfl
@[simp] theorem State.completed_fresh (s : State) : s.completed.fresh = s.fresh := rfl

/-! ### State.raised -/

@[simp] theorem State.raised_ctx (s : State) (e : Err) : (s.raised e).ctx = s.ctx := rfl
@[simp] theorem State.raised_ie (s : State) (e : Err) : (s.raised e).ie = s.ie := rfl
@[simp] theorem State.raised_done (s : State) (e : Err) : (s.raised e).done = true := rfl
@[simp] theorem State.raised_ovr (s : State) (e : Err) : (s.raised e).ovr = s.ovr := rfl
@[simp] theorem State.raised_swp (s : State) (e : Err) : (s.raised e).swp = s.swp := rfl
@[simp] theorem State.raised_err (s : State) (e : Err) : (s.raised e).err = some (errCodeOf e) := rfl
@[simp] theorem State.raised_lat (s : State) (e : Err) : (s.raised e).lat = none := rfl
@[simp] theorem State.raised_argK (s : State) (e : Err) : (s.raised e).argK = s.argK := rfl
@[simp] theorem State.raised_addr (s : State) (e : Err) : (s.raised e).addr = s.addr := rfl
@[simp] theorem State.raised_len (s : State) (e : Err) : (s.raised e).len = s.len := rfl
@[simp] theorem State.raised_out (s : State) (e : Err) : (s.raised e).out = s.out := rfl
@[simp] theorem State.raised_outJ (s : State) (e : Err) : (s.raised e).outJ = s.outJ := rfl
@[simp] theorem State.raised_shLen (s : State) (e : Err) : (s.raised e).shLen = s.shLen := rfl
@[simp] theorem State.raised_faultAddr (s : State) (e : Err) : (s.raised e).faultAddr = faultAddrOf e s.faultAddr := rfl
@[simp] theorem State.raised_adv (s : State) (e : Err) : (s.raised e).adv = s.adv := rfl
@[simp] theorem State.raised_mem (s : State) (e : Err) : (s.raised e).mem = s.mem := rfl
@[simp] theorem State.raised_busErrors (s : State) (e : Err) : (s.raised e).busErrors = s.busErrors := rfl
@[simp] theorem State.raised_devices (s : State) (e : Err) : (s.raised e).devices = s.devices := rfl
@[simp] theorem State.raised_script (s : State) (e : Err) : (s.raised e).script = s.script := rfl
@[simp] theorem State.raised_seen (s : State) (e : Err) : (s.raised e).seen = s.seen := rfl
@[simp] theorem State.raised_fresh (s : State) (e : Err) : (s.raised e).fresh = s.fresh := rfl

/-! ### State.accept -/

@[simp] theorem State.accept_ctx (s : State) (c : Word32) : (s.accept c).ctx = s.ctx := rfl
@[simp] theorem State.accept_ie (s : State) (c : Word32) : (s.accept c).ie = s.ie := rfl
@[simp] theorem State.accept_done (s : State) (c : Word32) : (s.accept c).done = false := rfl
@[simp] theorem State.accept_ovr (s : State) (c : Word32) : (s.accept c).ovr = s.ovr := rfl
@[simp] theorem State.accept_swp (s : State) (c : Word32) : (s.accept c).swp = s.swp := rfl
@[simp] theorem State.accept_err (s : State) (c : Word32) : (s.accept c).err = none := rfl
@[simp] theorem State.accept_lat (s : State) (c : Word32) : (s.accept c).lat = some ⟨c, s.argK, s.addr, s.len⟩ := rfl
@[simp] theorem State.accept_argK (s : State) (c : Word32) : (s.accept c).argK = s.argK := rfl
@[simp] theorem State.accept_addr (s : State) (c : Word32) : (s.accept c).addr = s.addr := rfl
@[simp] theorem State.accept_len (s : State) (c : Word32) : (s.accept c).len = s.len := rfl
@[simp] theorem State.accept_out (s : State) (c : Word32) : (s.accept c).out = s.out := rfl
@[simp] theorem State.accept_outJ (s : State) (c : Word32) : (s.accept c).outJ = s.outJ := rfl
@[simp] theorem State.accept_shLen (s : State) (c : Word32) : (s.accept c).shLen = s.shLen := rfl
@[simp] theorem State.accept_faultAddr (s : State) (c : Word32) : (s.accept c).faultAddr = s.faultAddr := rfl
@[simp] theorem State.accept_adv (s : State) (c : Word32) : (s.accept c).adv = s.adv := rfl
@[simp] theorem State.accept_mem (s : State) (c : Word32) : (s.accept c).mem = s.mem := rfl
@[simp] theorem State.accept_busErrors (s : State) (c : Word32) : (s.accept c).busErrors = s.busErrors := rfl
@[simp] theorem State.accept_devices (s : State) (c : Word32) : (s.accept c).devices = s.devices := rfl
@[simp] theorem State.accept_script (s : State) (c : Word32) : (s.accept c).script = s.script := rfl
@[simp] theorem State.accept_seen (s : State) (c : Word32) : (s.accept c).seen = s.seen := rfl
@[simp] theorem State.accept_fresh (s : State) (c : Word32) : (s.accept c).fresh = s.fresh := rfl

/-! ### State.writeCtrl -/

@[simp] theorem State.writeCtrl_ctx (s : State) (v : Word32) : (s.writeCtrl v).ctx = s.ctx := rfl
@[simp] theorem State.writeCtrl_ie (s : State) (v : Word32) : (s.writeCtrl v).ie = v.getLsbD 0 := rfl
@[simp] theorem State.writeCtrl_done (s : State) (v : Word32) : (s.writeCtrl v).done = s.done := rfl
@[simp] theorem State.writeCtrl_ovr (s : State) (v : Word32) : (s.writeCtrl v).ovr = s.ovr := rfl
@[simp] theorem State.writeCtrl_swp (s : State) (v : Word32) : (s.writeCtrl v).swp = s.swp := rfl
@[simp] theorem State.writeCtrl_err (s : State) (v : Word32) : (s.writeCtrl v).err = s.err := rfl
@[simp] theorem State.writeCtrl_lat (s : State) (v : Word32) : (s.writeCtrl v).lat = s.lat := rfl
@[simp] theorem State.writeCtrl_argK (s : State) (v : Word32) : (s.writeCtrl v).argK = s.argK := rfl
@[simp] theorem State.writeCtrl_addr (s : State) (v : Word32) : (s.writeCtrl v).addr = s.addr := rfl
@[simp] theorem State.writeCtrl_len (s : State) (v : Word32) : (s.writeCtrl v).len = s.len := rfl
@[simp] theorem State.writeCtrl_out (s : State) (v : Word32) : (s.writeCtrl v).out = s.out := rfl
@[simp] theorem State.writeCtrl_outJ (s : State) (v : Word32) : (s.writeCtrl v).outJ = s.outJ := rfl
@[simp] theorem State.writeCtrl_shLen (s : State) (v : Word32) : (s.writeCtrl v).shLen = s.shLen := rfl
@[simp] theorem State.writeCtrl_faultAddr (s : State) (v : Word32) : (s.writeCtrl v).faultAddr = s.faultAddr := rfl
@[simp] theorem State.writeCtrl_adv (s : State) (v : Word32) : (s.writeCtrl v).adv = s.adv := rfl
@[simp] theorem State.writeCtrl_mem (s : State) (v : Word32) : (s.writeCtrl v).mem = s.mem := rfl
@[simp] theorem State.writeCtrl_busErrors (s : State) (v : Word32) : (s.writeCtrl v).busErrors = s.busErrors := rfl
@[simp] theorem State.writeCtrl_devices (s : State) (v : Word32) : (s.writeCtrl v).devices = s.devices := rfl
@[simp] theorem State.writeCtrl_script (s : State) (v : Word32) : (s.writeCtrl v).script = s.script := rfl
@[simp] theorem State.writeCtrl_seen (s : State) (v : Word32) : (s.writeCtrl v).seen = s.seen := rfl
@[simp] theorem State.writeCtrl_fresh (s : State) (v : Word32) : (s.writeCtrl v).fresh = s.fresh := rfl

/-! ### State.writeStatus -/

@[simp] theorem State.writeStatus_ctx (s : State) (v : Word32) : (s.writeStatus v).ctx = s.ctx := rfl
@[simp] theorem State.writeStatus_ie (s : State) (v : Word32) : (s.writeStatus v).ie = s.ie := rfl
@[simp] theorem State.writeStatus_done (s : State) (v : Word32) : (s.writeStatus v).done = (s.done && !v.getLsbD 1) := rfl
@[simp] theorem State.writeStatus_ovr (s : State) (v : Word32) : (s.writeStatus v).ovr = (s.ovr && !v.getLsbD 3) := rfl
@[simp] theorem State.writeStatus_swp (s : State) (v : Word32) : (s.writeStatus v).swp = s.swp := rfl
@[simp] theorem State.writeStatus_err (s : State) (v : Word32) : (s.writeStatus v).err = s.err := rfl
@[simp] theorem State.writeStatus_lat (s : State) (v : Word32) : (s.writeStatus v).lat = s.lat := rfl
@[simp] theorem State.writeStatus_argK (s : State) (v : Word32) : (s.writeStatus v).argK = s.argK := rfl
@[simp] theorem State.writeStatus_addr (s : State) (v : Word32) : (s.writeStatus v).addr = s.addr := rfl
@[simp] theorem State.writeStatus_len (s : State) (v : Word32) : (s.writeStatus v).len = s.len := rfl
@[simp] theorem State.writeStatus_out (s : State) (v : Word32) : (s.writeStatus v).out = s.out := rfl
@[simp] theorem State.writeStatus_outJ (s : State) (v : Word32) : (s.writeStatus v).outJ = s.outJ := rfl
@[simp] theorem State.writeStatus_shLen (s : State) (v : Word32) : (s.writeStatus v).shLen = s.shLen := rfl
@[simp] theorem State.writeStatus_faultAddr (s : State) (v : Word32) : (s.writeStatus v).faultAddr = s.faultAddr := rfl
@[simp] theorem State.writeStatus_adv (s : State) (v : Word32) : (s.writeStatus v).adv = s.adv := rfl
@[simp] theorem State.writeStatus_mem (s : State) (v : Word32) : (s.writeStatus v).mem = s.mem := rfl
@[simp] theorem State.writeStatus_busErrors (s : State) (v : Word32) : (s.writeStatus v).busErrors = s.busErrors := rfl
@[simp] theorem State.writeStatus_devices (s : State) (v : Word32) : (s.writeStatus v).devices = s.devices := rfl
@[simp] theorem State.writeStatus_script (s : State) (v : Word32) : (s.writeStatus v).script = s.script := rfl
@[simp] theorem State.writeStatus_seen (s : State) (v : Word32) : (s.writeStatus v).seen = s.seen := rfl
@[simp] theorem State.writeStatus_fresh (s : State) (v : Word32) : (s.writeStatus v).fresh = s.fresh := rfl

/-! ### State.tookFree -/

@[simp] theorem State.tookFree_ctx (s : State) : s.tookFree.ctx = s.ctx := rfl
@[simp] theorem State.tookFree_ie (s : State) : s.tookFree.ie = s.ie := rfl
@[simp] theorem State.tookFree_done (s : State) : s.tookFree.done = s.done := rfl
@[simp] theorem State.tookFree_ovr (s : State) : s.tookFree.ovr = s.ovr := rfl
@[simp] theorem State.tookFree_swp (s : State) : s.tookFree.swp = s.swp := rfl
@[simp] theorem State.tookFree_err (s : State) : s.tookFree.err = s.err := rfl
@[simp] theorem State.tookFree_lat (s : State) : s.tookFree.lat = s.lat := rfl
@[simp] theorem State.tookFree_argK (s : State) : s.tookFree.argK = s.argK := rfl
@[simp] theorem State.tookFree_addr (s : State) : s.tookFree.addr = s.addr := rfl
@[simp] theorem State.tookFree_len (s : State) : s.tookFree.len = s.len := rfl
@[simp] theorem State.tookFree_out (s : State) : s.tookFree.out = s.out := rfl
@[simp] theorem State.tookFree_outJ (s : State) : s.tookFree.outJ = s.outJ := rfl
@[simp] theorem State.tookFree_shLen (s : State) : s.tookFree.shLen = s.shLen := rfl
@[simp] theorem State.tookFree_faultAddr (s : State) : s.tookFree.faultAddr = s.faultAddr := rfl
@[simp] theorem State.tookFree_adv (s : State) : s.tookFree.adv = s.adv := rfl
@[simp] theorem State.tookFree_mem (s : State) : s.tookFree.mem = s.mem := rfl
@[simp] theorem State.tookFree_busErrors (s : State) : s.tookFree.busErrors = s.busErrors := rfl
@[simp] theorem State.tookFree_devices (s : State) : s.tookFree.devices = s.devices := rfl
@[simp] theorem State.tookFree_script (s : State) : s.tookFree.script = s.script := rfl
@[simp] theorem State.tookFree_seen (s : State) : s.tookFree.seen = s.seen := rfl
@[simp] theorem State.tookFree_fresh (s : State) : s.tookFree.fresh = s.fresh + 1 := rfl

/-! ### State.sawReg -/

@[simp] theorem State.sawReg_ctx (s : State) (off : BitVec 8) (v : Word32) : (s.sawReg off v).ctx = s.ctx := rfl
@[simp] theorem State.sawReg_ie (s : State) (off : BitVec 8) (v : Word32) : (s.sawReg off v).ie = s.ie := rfl
@[simp] theorem State.sawReg_done (s : State) (off : BitVec 8) (v : Word32) : (s.sawReg off v).done = s.done := rfl
@[simp] theorem State.sawReg_ovr (s : State) (off : BitVec 8) (v : Word32) : (s.sawReg off v).ovr = s.ovr := rfl
@[simp] theorem State.sawReg_swp (s : State) (off : BitVec 8) (v : Word32) : (s.sawReg off v).swp = s.swp := rfl
@[simp] theorem State.sawReg_err (s : State) (off : BitVec 8) (v : Word32) : (s.sawReg off v).err = s.err := rfl
@[simp] theorem State.sawReg_lat (s : State) (off : BitVec 8) (v : Word32) : (s.sawReg off v).lat = s.lat := rfl
@[simp] theorem State.sawReg_argK (s : State) (off : BitVec 8) (v : Word32) : (s.sawReg off v).argK = s.argK := rfl
@[simp] theorem State.sawReg_addr (s : State) (off : BitVec 8) (v : Word32) : (s.sawReg off v).addr = s.addr := rfl
@[simp] theorem State.sawReg_len (s : State) (off : BitVec 8) (v : Word32) : (s.sawReg off v).len = s.len := rfl
@[simp] theorem State.sawReg_out (s : State) (off : BitVec 8) (v : Word32) : (s.sawReg off v).out = s.out := rfl
@[simp] theorem State.sawReg_outJ (s : State) (off : BitVec 8) (v : Word32) : (s.sawReg off v).outJ = s.outJ := rfl
@[simp] theorem State.sawReg_shLen (s : State) (off : BitVec 8) (v : Word32) : (s.sawReg off v).shLen = s.shLen := rfl
@[simp] theorem State.sawReg_faultAddr (s : State) (off : BitVec 8) (v : Word32) : (s.sawReg off v).faultAddr = s.faultAddr := rfl
@[simp] theorem State.sawReg_adv (s : State) (off : BitVec 8) (v : Word32) : (s.sawReg off v).adv = s.adv := rfl
@[simp] theorem State.sawReg_mem (s : State) (off : BitVec 8) (v : Word32) : (s.sawReg off v).mem = s.mem := rfl
@[simp] theorem State.sawReg_busErrors (s : State) (off : BitVec 8) (v : Word32) : (s.sawReg off v).busErrors = s.busErrors := rfl
@[simp] theorem State.sawReg_devices (s : State) (off : BitVec 8) (v : Word32) : (s.sawReg off v).devices = s.devices := rfl
@[simp] theorem State.sawReg_script (s : State) (off : BitVec 8) (v : Word32) : (s.sawReg off v).script = s.script := rfl
@[simp] theorem State.sawReg_seen (s : State) (off : BitVec 8) (v : Word32) : (s.sawReg off v).seen = .reg off v :: s.seen := rfl
@[simp] theorem State.sawReg_fresh (s : State) (off : BitVec 8) (v : Word32) : (s.sawReg off v).fresh = s.fresh := rfl

/-! ### State.withScript -/

@[simp] theorem State.withScript_ctx (s : State) (moves : List Move) : (s.withScript moves).ctx = s.ctx := rfl
@[simp] theorem State.withScript_ie (s : State) (moves : List Move) : (s.withScript moves).ie = s.ie := rfl
@[simp] theorem State.withScript_done (s : State) (moves : List Move) : (s.withScript moves).done = s.done := rfl
@[simp] theorem State.withScript_ovr (s : State) (moves : List Move) : (s.withScript moves).ovr = s.ovr := rfl
@[simp] theorem State.withScript_swp (s : State) (moves : List Move) : (s.withScript moves).swp = s.swp := rfl
@[simp] theorem State.withScript_err (s : State) (moves : List Move) : (s.withScript moves).err = s.err := rfl
@[simp] theorem State.withScript_lat (s : State) (moves : List Move) : (s.withScript moves).lat = s.lat := rfl
@[simp] theorem State.withScript_argK (s : State) (moves : List Move) : (s.withScript moves).argK = s.argK := rfl
@[simp] theorem State.withScript_addr (s : State) (moves : List Move) : (s.withScript moves).addr = s.addr := rfl
@[simp] theorem State.withScript_len (s : State) (moves : List Move) : (s.withScript moves).len = s.len := rfl
@[simp] theorem State.withScript_out (s : State) (moves : List Move) : (s.withScript moves).out = s.out := rfl
@[simp] theorem State.withScript_outJ (s : State) (moves : List Move) : (s.withScript moves).outJ = s.outJ := rfl
@[simp] theorem State.withScript_shLen (s : State) (moves : List Move) : (s.withScript moves).shLen = s.shLen := rfl
@[simp] theorem State.withScript_faultAddr (s : State) (moves : List Move) : (s.withScript moves).faultAddr = s.faultAddr := rfl
@[simp] theorem State.withScript_adv (s : State) (moves : List Move) : (s.withScript moves).adv = s.adv := rfl
@[simp] theorem State.withScript_mem (s : State) (moves : List Move) : (s.withScript moves).mem = s.mem := rfl
@[simp] theorem State.withScript_busErrors (s : State) (moves : List Move) : (s.withScript moves).busErrors = s.busErrors := rfl
@[simp] theorem State.withScript_devices (s : State) (moves : List Move) : (s.withScript moves).devices = s.devices := rfl
@[simp] theorem State.withScript_script (s : State) (moves : List Move) : (s.withScript moves).script = moves := rfl
@[simp] theorem State.withScript_seen (s : State) (moves : List Move) : (s.withScript moves).seen = s.seen := rfl
@[simp] theorem State.withScript_fresh (s : State) (moves : List Move) : (s.withScript moves).fresh = s.fresh := rfl

/-! ### What is derived from fields -/

@[simp] theorem State.completed_busy (s : State) : s.completed.busy = false := rfl
@[simp] theorem State.raised_busy (s : State) (e : Err) : (s.raised e).busy = false := rfl
@[simp] theorem State.accept_busy (s : State) (c : Word32) : (s.accept c).busy = true := rfl

@[simp] theorem State.withScript_busy (s : State) (moves : List Move) : (s.withScript moves).busy = s.busy := rfl
@[simp] theorem State.withScript_args (s : State) (moves : List Move) : (s.withScript moves).args = s.args := rfl
@[simp] theorem State.withScript_memOk (s : State) (moves : List Move) : (s.withScript moves).memOk = s.memOk := rfl
@[simp] theorem State.withScript_coversDevice (s : State) (moves : List Move) :
    (s.withScript moves).coversDevice = s.coversDevice := rfl

/-- In a busy state `lat.*` is what acceptance latched (10_state.md R43). -/
theorem State.args_of_lat {s : State} {l : Latched} (h : s.lat = some l) : s.args = l := by simp [State.args, h]

end Sys2Proof.Machine
end

