-- ==== Sys2Proof/Laws/Commands.lean ====
section
/-! SUPPORT. All that each command's rule can do, one lemma per rule, and how `exec` calls the rules the CREATE and
SHUFFLE share; the proofs about `exec` cite these and unfold no rule. -/

namespace Sys2Proof.Machine

/-! ### How a command ends -/

/-- All that a completion step that goes on can be. -/
theorem finish_next {s t : State} {e : Ending} (h : finish s e = .next t) :
    (∃ u, e = .complete u ∧ t = u.completed) ∨ (∃ err u, e = .raise err u ∧ t = u.raised err) ∨
    (e = .never ∧ t = s) := by
  cases e with
  | complete u => cases h; exact .inl ⟨u, rfl, rfl⟩
  | raise err u => cases h; exact .inr (.inl ⟨err, u, rfl, rfl⟩)
  | never => cases h; exact .inr (.inr ⟨rfl, rfl⟩)
  | refuse r => cases h

theorem exec_create {i : Instr} {alg : Alg} (h : createAlg i = some alg) (s : State) :
    exec i s = finish s (create alg s) := by
  cases i <;> simp [createAlg] at h <;> subst h <;> rfl

theorem exec_shuffle {i : Instr} {w : Nat} (h : shuffleWidth i = some w) (s : State) :
    exec i s = finish s (shuffle w s) := by
  cases i <;> simp [shuffleWidth] at h <;> subst h <;> rfl

/-- A lane is at least one byte wide (30_encoding.md R74). -/
theorem shuffleWidth_pos {i : Instr} {w : Nat} (h : shuffleWidth i = some w) : 0 < w := by
  cases i <;> simp [shuffleWidth] at h <;> omega

theorem fitsSpace_iff (base n : Nat) : fitsSpace base n = true ↔ base + n ≤ Config.addressLimit := by
  unfold fitsSpace
  exact decide_eq_true_iff

theorem fitsSpace_false (base n : Nat) : fitsSpace base n = false ↔ Config.addressLimit < base + n := by
  rw [← Bool.not_eq_true, fitsSpace_iff, Nat.not_le]

/-! ### The commands of the generator context -/

/-- All that CREATE's rule can do (41_generator.md R98). -/
theorem create_cases (alg : Alg) (s : State) :
    (s.args.len.toNat < alg.stateBytes ∧ create alg s = .raise .insufficientSeed s) ∨
    (alg.stateBytes ≤ s.args.len.toNat ∧ Config.addressLimit < s.args.addr.toNat + alg.stateBytes ∧
      create alg s = .raise (.range s.args.addr) s) ∨
    (alg.stateBytes ≤ s.args.len.toNat ∧ s.args.addr.toNat + alg.stateBytes ≤ Config.addressLimit ∧
      s.coversDevice s.args.addr.toNat alg.stateBytes = true ∧ create alg s = .refuse .deviceRange) ∨
    (alg.stateBytes ≤ s.args.len.toNat ∧ s.args.addr.toNat + alg.stateBytes ≤ Config.addressLimit ∧
      s.coversDevice s.args.addr.toNat alg.stateBytes = false ∧
      ((∃ j, j < alg.wc ∧ (∀ m, m < j → s.memOk (s.args.addr.toNat + 8 * m) 8 .read = true) ∧
          s.memOk (s.args.addr.toNat + 8 * j) 8 .read = false ∧
          create alg s = .raise (.bus (BitVec.ofNat 32 (s.args.addr.toNat + 8 * j))) s) ∨
        ((∀ m, m < alg.wc → s.memOk (s.args.addr.toNat + 8 * m) 8 .read = true) ∧
          create alg s = .complete { s with
            ctx := some (ctxOfWords alg (memWords s.mem s.args.addr.toNat alg.wc)), adv := 0#64, shLen := 0#32,
            swp := false }))) := by
  unfold create
  by_cases hlen : s.args.len.toNat < alg.stateBytes
  · exact .inl ⟨hlen, by simp only [hlen, if_true]⟩
  · simp only [hlen, if_false]
    cases hfit : fitsSpace s.args.addr.toNat alg.stateBytes
    · exact .inr (.inl ⟨by omega, (fitsSpace_false _ _).1 hfit, rfl⟩)
    · have hfit' := (fitsSpace_iff _ _).1 hfit
      cases hdev : s.coversDevice s.args.addr.toNat alg.stateBytes
      · refine .inr (.inr (.inr ⟨by omega, hfit', rfl, ?_⟩))
        rcases s.readWords_cases s.args.addr.toNat alg.wc with ⟨ok, words⟩ | ⟨j, hj, ok, bad, words⟩
        · exact .inr ⟨ok, by rw [words]; rfl⟩
        · exact .inl ⟨j, hj, ok, bad, by rw [words]; rfl⟩
      · exact .inr (.inr (.inl ⟨by omega, hfit', rfl, rfl⟩))

/-- All that SET_STATE's rule can do with a handle (41_generator.md R105). -/
theorem setState_cases {s : State} {c : Ctx} (h : s.ctx = some c) :
    (s.args.len.toNat < c.alg.stateBytes ∧ setState s = .raise .insufficientSeed s) ∨
    (c.alg.stateBytes ≤ s.args.len.toNat ∧ Config.addressLimit < s.args.addr.toNat + c.alg.stateBytes ∧
      setState s = .raise (.range s.args.addr) s) ∨
    (c.alg.stateBytes ≤ s.args.len.toNat ∧ s.args.addr.toNat + c.alg.stateBytes ≤ Config.addressLimit ∧
      s.coversDevice s.args.addr.toNat c.alg.stateBytes = true ∧ setState s = .refuse .deviceRange) ∨
    (c.alg.stateBytes ≤ s.args.len.toNat ∧ s.args.addr.toNat + c.alg.stateBytes ≤ Config.addressLimit ∧
      s.coversDevice s.args.addr.toNat c.alg.stateBytes = false ∧
      ((∃ j, j < c.alg.wc ∧ (∀ m, m < j → s.memOk (s.args.addr.toNat + 8 * m) 8 .read = true) ∧
          s.memOk (s.args.addr.toNat + 8 * j) 8 .read = false ∧
          setState s = .raise (.bus (BitVec.ofNat 32 (s.args.addr.toNat + 8 * j))) s) ∨
        ((∀ m, m < c.alg.wc → s.memOk (s.args.addr.toNat + 8 * m) 8 .read = true) ∧
          setState s = .complete { s with
            ctx := some (ctxOfWords c.alg (memWords s.mem s.args.addr.toNat c.alg.wc)) }))) := by
  have start : setState s = if s.args.len.toNat < c.alg.stateBytes then .raise .insufficientSeed s
      else if !fitsSpace s.args.addr.toNat c.alg.stateBytes then .raise (.range s.args.addr) s
      else if s.coversDevice s.args.addr.toNat c.alg.stateBytes then .refuse .deviceRange
      else match s.readWords s.args.addr.toNat c.alg.wc with
        | .error e => .raise e s
        | .ok ws => .complete { s with ctx := some (ctxOfWords c.alg ws) } := by
    unfold setState
    split
    · next h' => rw [h] at h'; cases h'
    · next c' h' => rw [h] at h'; cases h'; rfl
  rw [start]
  by_cases hlen : s.args.len.toNat < c.alg.stateBytes
  · exact .inl ⟨hlen, by simp only [hlen, if_true]⟩
  · simp only [hlen, if_false]
    cases hfit : fitsSpace s.args.addr.toNat c.alg.stateBytes
    · exact .inr (.inl ⟨by omega, (fitsSpace_false _ _).1 hfit, rfl⟩)
    · have hfit' := (fitsSpace_iff _ _).1 hfit
      cases hdev : s.coversDevice s.args.addr.toNat c.alg.stateBytes
      · refine .inr (.inr (.inr ⟨by omega, hfit', rfl, ?_⟩))
        rcases s.readWords_cases s.args.addr.toNat c.alg.wc with ⟨ok, words⟩ | ⟨j, hj, ok, bad, words⟩
        · exact .inr ⟨ok, by rw [words]; rfl⟩
        · exact .inl ⟨j, hj, ok, bad, by rw [words]; rfl⟩
      · exact .inr (.inr (.inl ⟨by omega, hfit', rfl, rfl⟩))

/-- All that GET_STATE's rule can do with a handle (41_generator.md R103, R104). -/
theorem getState_cases {s : State} {c : Ctx} (h : s.ctx = some c) :
    (Config.addressLimit < s.args.addr.toNat + c.alg.stateBytes ∧ getState s = .raise (.range s.args.addr) s) ∨
    (s.args.addr.toNat + c.alg.stateBytes ≤ Config.addressLimit ∧
      s.coversDevice s.args.addr.toNat c.alg.stateBytes = true ∧ getState s = .refuse .deviceRange) ∨
    (s.args.addr.toNat + c.alg.stateBytes ≤ Config.addressLimit ∧
      s.coversDevice s.args.addr.toNat c.alg.stateBytes = false ∧
      ((∃ j, j < c.alg.wc ∧ (∀ m, m < j → s.memOk (s.args.addr.toNat + 8 * m) 8 .write = true) ∧
          s.memOk (s.args.addr.toNat + 8 * j) 8 .write = false ∧
          getState s = .raise (.bus (BitVec.ofNat 32 (s.args.addr.toNat + 8 * j)))
            (({ s with mem := writeBytes s.mem s.args.addr.toNat ((c.words.take j).flatMap beBytes) } : State).scramble
              (s.args.addr.toNat + 8 * j) 8)) ∨
        ((∀ m, m < c.alg.wc → s.memOk (s.args.addr.toNat + 8 * m) 8 .write = true) ∧
          getState s = .complete { s with
            mem := writeBytes s.mem s.args.addr.toNat (c.words.flatMap beBytes) }))) := by
  have start : getState s = if !fitsSpace s.args.addr.toNat c.alg.stateBytes then .raise (.range s.args.addr) s
      else if s.coversDevice s.args.addr.toNat c.alg.stateBytes then .refuse .deviceRange
      else match s.writeWords s.args.addr.toNat c.words with
        | .error (e, t) => .raise e t
        | .ok t => .complete t := by
    unfold getState
    split
    · next h' => rw [h] at h'; cases h'
    · next c' h' => rw [h] at h'; cases h'; rfl
  rw [start]
  cases hfit : fitsSpace s.args.addr.toNat c.alg.stateBytes
  · exact .inl ⟨(fitsSpace_false _ _).1 hfit, rfl⟩
  · have hfit' := (fitsSpace_iff _ _).1 hfit
    cases hdev : s.coversDevice s.args.addr.toNat c.alg.stateBytes
    · refine .inr (.inr ⟨hfit', rfl, ?_⟩)
      rcases s.writeWords_cases s.args.addr.toNat c.words with ⟨ok, words⟩ | ⟨j, hj, ok, bad, words⟩
      · rw [Ctx.words_length] at ok
        exact .inr ⟨ok, by rw [words]; rfl⟩
      · rw [Ctx.words_length] at hj
        exact .inl ⟨j, hj, ok, bad, by rw [words]; rfl⟩
    · exact .inr (.inl ⟨hfit', rfl, rfl⟩)

theorem getState_none {s : State} (h : s.ctx = none) : getState s = .raise .noHandle s := by simp [getState, h]

theorem setState_none {s : State} (h : s.ctx = none) : setState s = .raise .noHandle s := by simp [setState, h]

theorem shuffle_none {s : State} (w : Nat) (h : s.ctx = none) : shuffle w s = .raise .noHandle s := by
  simp [shuffle, h]

/-! ### Byte strings of state words -/

theorem flatMap_beBytes_length (ws : List Word64) : (ws.flatMap beBytes).length = ws.length * 8 := by
  induction ws with
  | nil => rfl
  | cons w rest ih => simp [ih, beBytes_length]; omega

/-- Word `j` of a written state image reads back (20_memory.md R51). -/
theorem readBytes_image {mem : List Host.Cell} (h : memWf mem = true) (a : Nat) {ws : List Word64} {j : Nat}
    {w : Word64} (hj : ws[j]? = some w) :
    readBytes (writeBytes mem a (ws.flatMap beBytes)) (a + 8 * j) 8 = beBytes w := by
  induction ws generalizing mem a j with
  | nil => simp at hj
  | cons x rest ih =>
    rw [List.flatMap_cons, writeBytes_append, beBytes_length]
    cases j with
    | zero =>
      simp only [List.getElem?_cons_zero, Option.some.injEq] at hj
      subst hj
      rw [← beBytes_length x]
      conv_rhs => rw [← readBytes_writeBytes_same h a (beBytes x)]
      apply readBytes_congr
      intro y h1 h2
      apply readByte_writeBytes_out
      rw [beBytes_length] at *
      omega
    | succ k =>
      rw [show a + 8 * (k + 1) = a + 8 + 8 * k by omega]
      exact ih (memWf_writeBytes h _ _) _ (by simpa using hj)

theorem readBytes_append (mem : List Host.Cell) (a n m : Nat) :
    readBytes mem a n ++ readBytes mem (a + n) m = readBytes mem a (n + m) := by
  induction n generalizing a with
  | zero => simp [readBytes]
  | succ k ih =>
    rw [show k + 1 + m = k + m + 1 by omega]
    simp only [readBytes, List.cons_append]
    rw [← ih, show a + (k + 1) = a + 1 + k by omega]

/-- The image of the words read from memory is the bytes they were read from. -/
theorem flatMap_memWords (mem : List Host.Cell) (a n : Nat) :
    (memWords mem a n).flatMap beBytes = readBytes mem a (n * 8) := by
  induction n generalizing a with
  | zero => rfl
  | succ k ih =>
    simp only [memWords, List.flatMap_cons, ih, beBytes_be64 (readBytes_length _ _ _)]
    rw [readBytes_append, show 8 + k * 8 = (k + 1) * 8 by omega]

/-- The words of a written state image read back. -/
theorem memWords_image {mem : List Host.Cell} (h : memWf mem = true) (a : Nat) (ws : List Word64) :
    memWords (writeBytes mem a (ws.flatMap beBytes)) a ws.length = ws := by
  apply List.ext_getElem?
  intro j
  by_cases hj : j < ws.length
  · rw [memWords_getElem? _ _ _ _ hj, readBytes_image h _ (List.getElem?_eq_getElem hj), be64_beBytes,
      List.getElem?_eq_getElem hj]
  · rw [List.getElem?_eq_none (by rw [memWords_length]; omega), List.getElem?_eq_none (by omega)]

/-! ### The shuffle -/

/-- A sample with a bound lies below it (42_sampler.md R113). -/
theorem sample_lt {k : Word32} (hk : k ≠ 0#32) (g : Gen) : (sample k g).toNat < k.toNat := by
  rw [sample_eq_umod hk, BitVec.toNat_umod]
  apply Nat.mod_lt
  rcases Nat.eq_zero_or_pos k.toNat with h | h
  · exact absurd (BitVec.eq_of_toNat_eq (by simpa using h)) hk
  · exact h

/-- All that SHUF_STEP's rule can do with a handle (43_shuffle.md R121). -/
theorem shufStepCommand_cases {s : State} {c : Ctx} (h : s.ctx = some c) :
    (s.shLen.toNat < 2 ∧ shufStepCommand s = .complete { s with swp := false }) ∨
    (2 ≤ s.shLen.toNat ∧ shufStep c s = none ∧ shufStepCommand s = .never) ∨
    (∃ c' t, 2 ≤ s.shLen.toNat ∧ shufStep c s = some (c', t) ∧
      shufStepCommand s = .complete { t with shLen := t.outJ }) := by
  have start : shufStepCommand s = if s.shLen < 2#32 then .complete { s with swp := false }
      else match shufStep c s with
        | none => .never
        | some (_, t) => .complete { t with shLen := t.outJ } := by
    unfold shufStepCommand
    split
    · next h' => rw [h] at h'; cases h'
    · next c' h' => rw [h] at h'; cases h'; rfl
  rw [start]
  by_cases hlt : s.shLen.toNat < 2
  · exact .inl ⟨hlt, if_pos hlt⟩
  · have hlt' : ¬ s.shLen < 2#32 := hlt
    simp only [hlt', if_false]
    cases hstep : shufStep c s with
    | none => exact .inr (.inl ⟨by omega, rfl, rfl⟩)
    | some p => exact .inr (.inr ⟨p.1, p.2, by omega, rfl, rfl⟩)

/-- All that SHUFFLE's rule can do with a handle, before its loop (43_shuffle.md R123). -/
theorem shuffle_cases {s : State} {c : Ctx} (w : Nat) (h : s.ctx = some c) :
    (Config.addressLimit < s.args.addr.toNat + s.args.len.toNat * w ∧
      shuffle w s = .raise (.range s.args.addr) s) ∨
    (s.args.addr.toNat + s.args.len.toNat * w ≤ Config.addressLimit ∧ 2 ≤ s.args.len.toNat ∧
      s.coversDevice s.args.addr.toNat (s.args.len.toNat * w) = true ∧ shuffle w s = .refuse .deviceRange) ∨
    (s.args.addr.toNat + s.args.len.toNat * w ≤ Config.addressLimit ∧
      (2 ≤ s.args.len.toNat → s.coversDevice s.args.addr.toNat (s.args.len.toNat * w) = false) ∧
      shuffle w s = shuffleLoop s.args.addr.toNat w s.args.len.toNat c
        { s with shLen := s.args.len, swp := false }) := by
  have start : shuffle w s = if !fitsSpace s.args.addr.toNat (s.args.len.toNat * w) then .raise (.range s.args.addr) s
      else if 2#32 ≤ s.args.len && s.coversDevice s.args.addr.toNat (s.args.len.toNat * w) then .refuse .deviceRange
      else shuffleLoop s.args.addr.toNat w s.args.len.toNat c { s with shLen := s.args.len, swp := false } := by
    unfold shuffle
    split
    · next h' => rw [h] at h'; cases h'
    · next c' h' => rw [h] at h'; cases h'; rfl
  rw [start]
  cases hfit : fitsSpace s.args.addr.toNat (s.args.len.toNat * w)
  · exact .inl ⟨(fitsSpace_false _ _).1 hfit, rfl⟩
  · have hfit' := (fitsSpace_iff _ _).1 hfit
    by_cases hlen : 2 ≤ s.args.len.toNat
    · have hle : decide (2#32 ≤ s.args.len) = true := decide_eq_true_iff.2 hlen
      cases hdev : s.coversDevice s.args.addr.toNat (s.args.len.toNat * w)
      · exact .inr (.inr ⟨hfit', fun _ => rfl, by simp⟩)
      · exact .inr (.inl ⟨hfit', hlen, rfl, by simp [hle]⟩)
    · have hle : decide (2#32 ≤ s.args.len) = false := decide_eq_false_iff_not.2 hlen
      exact .inr (.inr ⟨hfit', fun h2 => absurd h2 hlen, by simp [hle]⟩)

/-- An element below `length` lies in the buffer of `length` elements. -/
theorem element_in {base w length m : Nat} (h : m < length) : base + m * w + w ≤ base + length * w := by
  have := Nat.mul_le_mul_right w (show m + 1 ≤ length from h)
  rw [Nat.succ_mul] at this
  omega

/-- What a swap that succeeds leaves: everything outside the two elements. -/
theorem swap_ok {s t : State} {ar aj w : Nat} (h : swap s ar aj w = .ok t) :
    s.memOk ar w .read = true ∧ s.memOk aj w .read = true ∧ s.memOk ar w .write = true ∧
      s.memOk aj w .write = true ∧
      t = { s with mem := writeBytes (writeBytes s.mem ar (readBytes s.mem aj w)) aj (readBytes s.mem ar w) } := by
  rcases swap_cases s ar aj w with ⟨h1, h2, h3, h4, e⟩ | ⟨-, e⟩ | ⟨-, -, e⟩ | ⟨-, -, -, e⟩ | ⟨-, -, -, -, e⟩ <;>
    rw [e] at h <;> cases h
  exact ⟨h1, h2, h3, h4, rfl⟩

/-- What the memory of a swap, whichever way it ends, keeps: the bytes outside the two elements, the canonical form,
and the memory space. -/
theorem swap_mem {s u : State} {ar aj w : Nat} (h : swap s ar aj w = .ok u ∨ ∃ e, swap s ar aj w = .error (e, u)) :
    (∀ x, (x < ar ∨ ar + w ≤ x) → (x < aj ∨ aj + w ≤ x) → readByte u.mem x = readByte s.mem x) ∧
    (memWf s.mem = true → memWf u.mem = true) ∧
    (memInSpace s.mem = true → ar + w ≤ Config.addressLimit → aj + w ≤ Config.addressLimit →
      memInSpace u.mem = true) := by
  rcases swap_cases s ar aj w with ⟨-, -, -, -, e⟩ | ⟨-, e⟩ | ⟨-, -, e⟩ | ⟨-, -, -, e⟩ | ⟨-, -, -, -, e⟩ <;>
    rw [e] at h <;> rcases h with h | ⟨err, h⟩ <;> cases h
  · refine ⟨fun x h1 h2 => ?_, fun hw => memWf_writeBytes (memWf_writeBytes hw _ _) _ _, fun hs h1 h2 => ?_⟩
    · rw [readByte_writeBytes_out _ _ (by rw [readBytes_length]; exact h2),
        readByte_writeBytes_out _ _ (by rw [readBytes_length]; exact h1)]
    · exact memInSpace_writeBytes (memInSpace_writeBytes hs (by rw [readBytes_length]; exact h1))
        (by rw [readBytes_length]; exact h2)
  · exact ⟨fun _ _ _ => rfl, id, fun hs _ _ => hs⟩
  · exact ⟨fun _ _ _ => rfl, id, fun hs _ _ => hs⟩
  · exact ⟨fun x h1 _ => State.scramble_out _ h1, fun hw => State.scramble_wf hw _ _,
      fun hs h1 _ => State.scramble_inSpace hs h1⟩
  · refine ⟨fun x h1 h2 => ?_, fun hw => State.scramble_wf (memWf_writeBytes hw _ _) _ _, fun hs h1 h2 => ?_⟩
    · rw [State.scramble_out _ h2]
      exact readByte_writeBytes_out _ _ (by rw [readBytes_length]; exact h1)
    · exact State.scramble_inSpace (memInSpace_writeBytes hs (by rw [readBytes_length]; exact h1)) h2

/-- What a swap that fails leaves: the machine but for memory and the free values, with the bus error of one of the two
elements, which the platform refused. -/
theorem swap_error {s u : State} {ar aj w : Nat} {e : Err} (h : swap s ar aj w = .error (e, u)) :
    u = { s with mem := u.mem, fresh := u.fresh } ∧
    ((e = .bus (BitVec.ofNat 32 ar) ∧ ∃ d, s.memOk ar w d = false) ∨
      (e = .bus (BitVec.ofNat 32 aj) ∧ ∃ d, s.memOk aj w d = false)) := by
  rcases swap_cases s ar aj w with ⟨-, -, -, -, e'⟩ | ⟨b, e'⟩ | ⟨-, b, e'⟩ | ⟨-, -, b, e'⟩ | ⟨-, -, -, b, e'⟩ <;>
    rw [e'] at h <;> cases h
  · exact ⟨rfl, .inl ⟨rfl, _, b⟩⟩
  · exact ⟨rfl, .inr ⟨rfl, _, b⟩⟩
  · exact ⟨by rw [State.scramble_eq], .inl ⟨rfl, _, b⟩⟩
  · exact ⟨by rw [State.scramble_eq], .inr ⟨rfl, _, b⟩⟩

/-- SHUFFLE's loop refuses nothing. -/
theorem shuffleLoop_not_refuse (base w rounds : Nat) (c : Ctx) (s : State) (r : Refusal) :
    shuffleLoop base w rounds c s ≠ .refuse r := by
  induction rounds generalizing c s with
  | zero => intro h; cases h
  | succ n ih =>
    intro h
    simp only [shuffleLoop] at h
    split at h
    · cases h
    · split at h
      · cases h
      · split at h
        · exact ih _ _ h
        · split at h
          · cases h
          · exact ih _ _ h

/-- What SHUFFLE's loop keeps, whether it completes or fails: everything the shuffle does not write, the variant, the
bytes outside the buffer, the canonical form and the memory space (43_shuffle.md R123 to R125). -/
theorem shuffleLoop_keeps {base w rounds : Nat} {c : Ctx} {s u : State} (hc : s.ctx = some c)
    (h : shuffleLoop base w rounds c s = .complete u ∨ ∃ e, shuffleLoop base w rounds c s = .raise e u) :
    sameButShuffle s u ∧ u.ctx.map Ctx.alg = some c.alg ∧ u.shLen.toNat ≤ s.shLen.toNat ∧
    (∀ x, x < base ∨ base + s.shLen.toNat * w ≤ x → readByte u.mem x = readByte s.mem x) ∧
    (memWf s.mem = true → memWf u.mem = true) ∧
    (memInSpace s.mem = true → base + s.shLen.toNat * w ≤ Config.addressLimit → memInSpace u.mem = true) := by
  induction rounds generalizing c s with
  | zero =>
    rcases h with h | ⟨e, h⟩ <;> cases h
    exact ⟨sameButShuffle_refl _, by simp [hc], Nat.le_refl _, fun _ _ => rfl, id, fun hs _ => hs⟩
  | succ n ih =>
    simp only [shuffleLoop] at h
    split at h
    · rcases h with h | ⟨e, h⟩ <;> cases h
      exact ⟨sameButShuffle_refl _, by simp [hc], Nat.le_refl _, fun _ _ => rfl, id, fun hs _ => hs⟩
    · next hlen =>
      have hlen' : 2 ≤ s.shLen.toNat := Nat.not_lt.1 hlen
      split at h
      · rcases h with h | ⟨e, h⟩ <;> cases h
      · next c' t hstep =>
        obtain ⟨k, -, hc', ht⟩ := shufStep_some hstep
        have halg : c'.alg = c.alg := by rw [hc', Gen.after_alg]
        have hne : s.shLen ≠ 0#32 := by intro h0; rw [h0] at hlen'; simp at hlen'
        have hout : t.out.toNat < s.shLen.toNat := by rw [ht]; exact sample_lt hne _
        have houtJ : t.outJ.toNat = s.shLen.toNat - 1 := by
          rw [ht]
          simp only [BitVec.toNat_sub, BitVec.toNat_ofNat]
          have := s.shLen.isLt
          omega
        have hmul : base + t.outJ.toNat * w ≤ base + s.shLen.toNat * w :=
          Nat.add_le_add_left (Nat.mul_le_mul_right w (by omega)) _
        have hin : ∀ m, m < s.shLen.toNat → base + m * w + w ≤ base + s.shLen.toNat * w := fun m hm => element_in hm
        have hmem : t.mem = s.mem := by rw [ht]
        have hctx : t.ctx = some c' := by rw [ht]
        have hsame : sameButShuffle s { t with shLen := t.outJ } := by rw [ht]; rfl
        have hsame' : sameButShuffle s t := by rw [ht]; rfl
        split at h
        · obtain ⟨h1, h2, h3, h4, h5, h6⟩ := ih (s := { t with shLen := t.outJ }) (c := c') hctx h
          simp only at h3 h4 h5 h6
          refine ⟨sameButShuffle_trans hsame h1, by rw [h2, halg], by omega, fun x hx => ?_, ?_, fun hs hb => ?_⟩
          · rw [h4 x (by omega), hmem]
          · rw [← hmem]; exact h5
          · exact h6 (by rw [hmem]; exact hs) (by omega)
        · split at h
          · next e v hswap =>
            rcases h with h | ⟨e', h⟩ <;> cases h
            obtain ⟨hu, -⟩ := swap_error hswap
            obtain ⟨m1, m2, m3⟩ := swap_mem (.inr ⟨_, hswap⟩)
            have hr := hin _ hout
            have hj := hin t.outJ.toNat (by omega)
            simp only [elementAddress] at m1 m3
            have hal : u.ctx.map Ctx.alg = some c.alg := by rw [hu]; simp [hctx, halg]
            have hsh : u.shLen = s.shLen := by rw [hu, ht]
            refine ⟨?_, hal, by rw [hsh], fun x hx => ?_, ?_, fun hs hb => ?_⟩
            · refine sameButShuffle_trans hsame' ?_
              unfold sameButShuffle
              conv_lhs => rw [hu]
              rw [State.mk.injEq]
              refine ⟨?_, rfl, rfl, rfl, ?_, rfl, rfl, rfl, rfl, rfl, ?_, ?_, ?_, rfl, ?_, rfl, rfl, rfl, rfl, rfl, rfl⟩ <;>
                rw [hu]
            · rw [m1 x (by omega) (by omega), hmem]
            · rw [← hmem]; exact m2
            · exact m3 (by rw [hmem]; exact hs) (by omega) (by omega)
          · next v hswap =>
            obtain ⟨-, -, -, -, hv⟩ := swap_ok hswap
            obtain ⟨m1, m2, m3⟩ := swap_mem (.inl hswap)
            have hr := hin _ hout
            have hj := hin t.outJ.toNat (by omega)
            simp only [elementAddress] at m1 m3
            have hsame'' : sameButShuffle t { v with shLen := t.outJ } := by rw [hv]; rfl
            obtain ⟨h1, h2, h3, h4, h5, h6⟩ :=
              ih (s := { v with shLen := t.outJ }) (c := c') (by rw [hv]; exact hctx) h
            simp only at h3 h4 h5 h6
            refine ⟨sameButShuffle_trans hsame' (sameButShuffle_trans hsame'' h1), by rw [h2, halg], by omega,
              fun x hx => ?_, fun hw => h5 (m2 (by rw [hmem]; exact hw)), fun hs hb => ?_⟩
            · rw [h4 x (by omega), m1 x (by omega) (by omega), hmem]
            · exact h6 (m3 (by rw [hmem]; exact hs) (by omega) (by omega)) (by omega)

/-! ### Every command -/

/-- The engine's own parts of the machine that a command may write are the context, the counter, the results, the
shuffle and memory with its free values; and memory stays canonical and in the memory space. -/
def keepsRest (s u : State) : Prop :=
  sameButShuffle s u ∧ (memWf s.mem = true → memWf u.mem = true) ∧
    (memInSpace s.mem = true → memInSpace u.mem = true)

theorem keepsRest_refl (s : State) : keepsRest s s := ⟨sameButShuffle_refl s, id, id⟩

theorem create_keeps {alg : Alg} {s u : State}
    (h : create alg s = .complete u ∨ ∃ e, create alg s = .raise e u) : keepsRest s u := by
  rcases create_cases alg s with ⟨-, e⟩ | ⟨-, -, e⟩ | ⟨-, -, -, e⟩ | ⟨-, -, -, ⟨j, -, -, -, e⟩ | ⟨-, e⟩⟩ <;>
    rw [e] at h <;> rcases h with h | ⟨err, h⟩ <;> cases h <;> exact ⟨rfl, id, id⟩

theorem release_keeps {s u : State} (h : release s = .complete u ∨ ∃ e, release s = .raise e u) :
    keepsRest s u := by
  unfold release at h
  split at h <;> rcases h with h | ⟨err, h⟩ <;> cases h <;> exact ⟨rfl, id, id⟩

theorem rollCommand_keeps {s u : State} (h : rollCommand s = .complete u ∨ ∃ e, rollCommand s = .raise e u) :
    keepsRest s u := by
  unfold rollCommand at h
  split at h
  · rcases h with h | ⟨err, h⟩ <;> cases h; exact keepsRest_refl _
  · split at h <;> rcases h with h | ⟨err, h⟩ <;> cases h; exact ⟨rfl, id, id⟩

theorem setState_keeps {s u : State} (h : setState s = .complete u ∨ ∃ e, setState s = .raise e u) :
    keepsRest s u := by
  cases hc : s.ctx with
  | none => rw [setState_none hc] at h; rcases h with h | ⟨err, h⟩ <;> cases h; exact keepsRest_refl _
  | some c =>
    rcases setState_cases hc with ⟨-, e⟩ | ⟨-, -, e⟩ | ⟨-, -, -, e⟩ | ⟨-, -, -, ⟨j, -, -, -, e⟩ | ⟨-, e⟩⟩ <;>
      rw [e] at h <;> rcases h with h | ⟨err, h⟩ <;> cases h <;>
      exact ⟨rfl, id, id⟩

theorem getState_keeps {s u : State} (h : getState s = .complete u ∨ ∃ e, getState s = .raise e u) :
    keepsRest s u := by
  cases hc : s.ctx with
  | none => rw [getState_none hc] at h; rcases h with h | ⟨err, h⟩ <;> cases h; exact keepsRest_refl _
  | some c =>
    rcases getState_cases hc with ⟨-, e⟩ | ⟨-, -, e⟩ | ⟨hb, -, ⟨j, hj, -, -, e⟩ | ⟨-, e⟩⟩ <;>
      rw [e] at h <;> rcases h with h | ⟨err, h⟩ <;> cases h
    · exact keepsRest_refl _
    · unfold Alg.stateBytes at hb
      have hlen := Ctx.words_length c
      refine ⟨by rw [State.scramble_eq]; rfl, fun hw => State.scramble_wf (memWf_writeBytes hw _ _) _ _,
        fun hs => State.scramble_inSpace (memInSpace_writeBytes hs ?_) (by omega)⟩
      rw [flatMap_beBytes_length, List.length_take, hlen]
      omega
    · refine ⟨rfl, fun hw => memWf_writeBytes hw _ _, fun hs => memInSpace_writeBytes hs ?_⟩
      rw [flatMap_beBytes_length, Ctx.words_length]
      exact hb

theorem shufInit_keeps {s u : State} (h : shufInit s = .complete u ∨ ∃ e, shufInit s = .raise e u) :
    keepsRest s u := by
  unfold shufInit at h
  split at h <;> rcases h with h | ⟨err, h⟩ <;> cases h <;> exact ⟨rfl, id, id⟩

theorem shufStepCommand_keeps {s u : State}
    (h : shufStepCommand s = .complete u ∨ ∃ e, shufStepCommand s = .raise e u) : keepsRest s u := by
  cases hc : s.ctx with
  | none =>
    simp only [shufStepCommand, hc] at h
    rcases h with h | ⟨err, h⟩ <;> cases h
    exact keepsRest_refl _
  | some c =>
    rcases shufStepCommand_cases hc with ⟨-, e⟩ | ⟨-, -, e⟩ | ⟨c', t, -, hstep, e⟩ <;>
      rw [e] at h <;> rcases h with h | ⟨err, h⟩ <;> cases h
    · exact ⟨rfl, id, id⟩
    · obtain ⟨n, -, -, ht⟩ := shufStep_some hstep
      rw [ht]
      exact ⟨rfl, id, id⟩

theorem shuffle_keeps {w : Nat} {s u : State} (h : shuffle w s = .complete u ∨ ∃ e, shuffle w s = .raise e u) :
    keepsRest s u := by
  cases hc : s.ctx with
  | none => rw [shuffle_none w hc] at h; rcases h with h | ⟨err, h⟩ <;> cases h; exact keepsRest_refl _
  | some c =>
    rcases shuffle_cases w hc with ⟨-, e⟩ | ⟨-, -, -, e⟩ | ⟨hb, -, e⟩
    · rw [e] at h; rcases h with h | ⟨err, h⟩ <;> cases h; exact keepsRest_refl _
    · rw [e] at h; rcases h with h | ⟨err, h⟩ <;> cases h
    · rw [e] at h
      obtain ⟨h1, -, -, -, h5, h6⟩ := shuffleLoop_keeps (s := { s with shLen := s.args.len, swp := false }) hc h
      have h0 : sameButShuffle s { s with shLen := s.args.len, swp := false } := rfl
      exact ⟨sameButShuffle_trans h0 h1, h5, fun hs => h6 hs hb⟩

/-- All that a command that goes on can leave: itself, still busy, for ever; or its completion or its error, over a
state that differs from the one before it in what commands write. -/
theorem exec_next {i : Instr} {s t : State} (h : exec i s = .next t) :
    t = s ∨ ∃ u, keepsRest s u ∧ (t = u.completed ∨ ∃ e, t = u.raised e) := by
  have all : ∀ e : Ending, finish s e = .next t →
      (∀ u, (e = .complete u ∨ ∃ err, e = .raise err u) → keepsRest s u) →
      t = s ∨ ∃ u, keepsRest s u ∧ (t = u.completed ∨ ∃ e, t = u.raised e) := by
    intro e h' keep
    rcases finish_next h' with ⟨u, he, ht⟩ | ⟨err, u, he, ht⟩ | ⟨-, ht⟩
    · exact .inr ⟨u, keep u (.inl he), .inl ht⟩
    · exact .inr ⟨u, keep u (.inr ⟨err, he⟩), .inr ⟨err, ht⟩⟩
    · exact .inl ht
  cases i
  case nop =>
    refine all (.complete s) h ?_
    rintro u (h | ⟨err, h⟩) <;> cases h
    exact keepsRest_refl _
  case release => exact all _ h fun u => release_keeps
  case roll => exact all _ h fun u => rollCommand_keeps
  case getState => exact all _ h fun u => getState_keeps
  case setState => exact all _ h fun u => setState_keeps
  case shufInit => exact all _ h fun u => shufInit_keeps
  case shufStep => exact all _ h fun u => shufStepCommand_keeps
  case shuffle8 => exact all _ h fun u => shuffle_keeps
  case shuffle16 => exact all _ h fun u => shuffle_keeps
  case shuffle32 => exact all _ h fun u => shuffle_keeps
  case shuffle64 => exact all _ h fun u => shuffle_keeps
  all_goals exact all _ h fun u => create_keeps

end Sys2Proof.Machine
end

