-- ==== Sys2Proof/Laws/Loop.lean ====
section
/-! SUPPORT. The elements of a buffer, and SHUFFLE's loop against the shuffle of a sequence (43_shuffle.md R118, R123 to
R126): where it completes, and how it ends with a bus error. -/

namespace Sys2Proof.Machine

/-! ### The elements of a buffer -/

theorem elements_length (mem : List Host.Cell) (base w n : Nat) : (elements mem base w n).length = n := by
  induction n with
  | zero => rfl
  | succ m ih => simp [elements, ih]

theorem elements_getElem? (mem : List Host.Cell) {base w n m : Nat} (h : m < n) :
    (elements mem base w n)[m]? = some (readBytes mem (base + m * w) w) := by
  induction n with
  | zero => omega
  | succ k ih =>
    simp only [elements]
    by_cases hm : m < k
    · rw [List.getElem?_append_left (by rw [elements_length]; exact hm)]
      exact ih hm
    · obtain rfl : m = k := by omega
      rw [List.getElem?_append_right (by rw [elements_length]), elements_length]
      simp

theorem elements_getElem?_none (mem : List Host.Cell) {base w n m : Nat} (h : n ≤ m) :
    (elements mem base w n)[m]? = none :=
  List.getElem?_eq_none (by rw [elements_length]; exact h)

/-- An element of two memories is the same where its bytes are. -/
theorem elements_getElem?_congr {mem mem' : List Host.Cell} {base w n m : Nat}
    (h : ∀ x, base + m * w ≤ x → x < base + m * w + w → readByte mem x = readByte mem' x) :
    (elements mem base w n)[m]? = (elements mem' base w n)[m]? := by
  by_cases hm : m < n
  · rw [elements_getElem? _ hm, elements_getElem? _ hm, readBytes_congr h]
  · rw [elements_getElem?_none _ (by omega), elements_getElem?_none _ (by omega)]

/-- Two different elements have no byte in common. -/
theorem elements_disjoint (base w : Nat) {r j : Nat} (h : r ≠ j) :
    base + r * w + w ≤ base + j * w ∨ base + j * w + w ≤ base + r * w := by
  rcases Nat.lt_or_gt_of_ne h with h | h
  · exact .inl (element_in h)
  · exact .inr (element_in h)

theorem exchange_eq {α : Type} (q : List α) {i j : Nat} (hi : i < q.length) (hj : j < q.length) :
    exchange q i j = (q.set i q[j]).set j q[i] := by
  simp [exchange, List.getElem?_eq_getElem hi, List.getElem?_eq_getElem hj]

theorem exchange_perm {α : Type} (q : List α) {i j : Nat} (hi : i < q.length) (hj : j < q.length) :
    (exchange q i j).Perm q := by
  rw [exchange_eq q hi hj]
  exact List.set_set_perm hi hj

theorem exchange_self {α : Type} (q : List α) {i : Nat} (hi : i < q.length) : exchange q i i = q := by
  rw [exchange_eq q hi hi]
  simp

/-- Element `r` rewritten with as many bytes is that element, and no other element is changed. -/
theorem elements_write {mem : List Host.Cell} (hwf : memWf mem = true) {base w n r : Nat} (hr : r < n)
    {bs : List Byte} (hlen : bs.length = w) :
    elements (writeBytes mem (base + r * w) bs) base w n = (elements mem base w n).set r bs := by
  apply List.ext_getElem?
  intro k
  rw [List.getElem?_set, elements_length]
  by_cases hrk : r = k
  · subst hrk
    rw [if_pos rfl, if_pos hr, elements_getElem? _ hr]
    have h := readBytes_writeBytes_same hwf (base + r * w) bs
    rw [hlen] at h
    rw [h]
  · rw [if_neg hrk]
    refine elements_getElem?_congr fun x h1 h2 => readByte_writeBytes_out _ _ ?_
    have := elements_disjoint base w hrk
    omega

/-- A swap that succeeds exchanges two elements (43_shuffle.md R124). -/
theorem elements_swap {mem : List Host.Cell} (hwf : memWf mem = true) {base w n r j : Nat} (hr : r < n) (hj : j < n) :
    elements (writeBytes (writeBytes mem (base + r * w) (readBytes mem (base + j * w) w)) (base + j * w)
      (readBytes mem (base + r * w) w)) base w n = exchange (elements mem base w n) r j := by
  have value : ∀ m (h : m < n), (elements mem base w n)[m]'(by rw [elements_length]; exact h) =
      readBytes mem (base + m * w) w := fun m h => by
    have := elements_getElem? mem (base := base) (w := w) h
    rw [List.getElem?_eq_getElem (by rw [elements_length]; exact h)] at this
    exact Option.some.inj this
  rw [exchange_eq _ (by rw [elements_length]; exact hr) (by rw [elements_length]; exact hj), value r hr, value j hj,
    elements_write (memWf_writeBytes hwf _ _) hj (readBytes_length _ _ _),
    elements_write hwf hr (readBytes_length _ _ _)]

/-- All that a swap of two elements that fails can do (43_shuffle.md R124). -/
theorem swap_failed {s u : State} {base w n r j : Nat} {e : Err} (hwf : memWf s.mem = true) (hr : r < n) (hj : j < n)
    (hne : r ≠ j) (h : swap s (base + r * w) (base + j * w) w = .error (e, u)) :
    ∃ a, e = .bus (BitVec.ofNat 32 a) ∧ failedSwap s base w n (elements s.mem base w n) r j a u.mem := by
  have away := elements_disjoint base w hne
  rcases swap_cases s (base + r * w) (base + j * w) w with
    ⟨-, -, -, -, e'⟩ | ⟨b, e'⟩ | ⟨o1, b, e'⟩ | ⟨o1, o2, b, e'⟩ | ⟨o1, o2, o3, b, e'⟩ <;> rw [e'] at h <;> cases h
  · exact ⟨_, rfl, .inl ⟨b, rfl, rfl⟩⟩
  · exact ⟨_, rfl, .inr (.inl ⟨o1, b, rfl, rfl⟩)⟩
  · refine ⟨_, rfl, .inr (.inr (.inl ⟨o1, o2, b, rfl, fun m hm => ?_⟩))⟩
    refine elements_getElem?_congr fun x h1 h2 => State.scramble_out _ ?_
    have := elements_disjoint base w hm
    omega
  · refine ⟨_, rfl, .inr (.inr (.inr ⟨o1, o2, o3, b, rfl, ?_, fun m hmr hmj => ?_⟩))⟩
    · rw [elements_getElem?_congr (mem' := writeBytes s.mem (base + r * w) (readBytes s.mem (base + j * w) w))
        fun x h1 h2 => State.scramble_out _ (by omega), elements_write hwf hr (readBytes_length _ _ _),
        List.getElem?_set, if_pos rfl, elements_length, if_pos hr, elements_getElem? _ hj]
    · rw [elements_getElem?_congr (mem' := writeBytes s.mem (base + r * w) (readBytes s.mem (base + j * w) w))
        fun x h1 h2 => State.scramble_out _ (by have := elements_disjoint base w hmj; omega),
        elements_write hwf hr (readBytes_length _ _ _), List.getElem?_set, if_neg (Ne.symm hmr)]

/-! ### SHUFFLE's loop -/

/-- The state a shuffle step leaves, its draw being the one after `n` rejected ones (43_shuffle.md R119). -/
def stepped (s : State) (g : Gen) (n : Nat) : State :=
  { s with
    ctx := some (g.after (n + 1)).ctx
    adv := (g.after (n + 1)).adv
    out := sample s.shLen (g.after n)
    outJ := s.shLen - 1#32
    swp := sample s.shLen (g.after n) != s.shLen - 1#32 }

theorem shufStep_stepped {s t : State} {c c' : Ctx} (h : shufStep c s = some (c', t)) :
    ∃ n, firstAccepted s.shLen ⟨c, s.adv⟩ n ∧ c' = ((⟨c, s.adv⟩ : Gen).after (n + 1)).ctx ∧
      t = stepped s ⟨c, s.adv⟩ n := by
  obtain ⟨n, hn, rfl, ht⟩ := shufStep_some h
  exact ⟨n, hn, rfl, ht⟩

theorem toNat_pred {x : Word32} (h : 2 ≤ x.toNat) : (x - 1#32).toNat = x.toNat - 1 := by
  simp only [BitVec.toNat_sub, BitVec.toNat_ofNat]
  have := x.isLt
  omega

/-- The index a step draws is below its length (42_sampler.md R113). -/
theorem sample_lt_length {x : Word32} (h : 2 ≤ x.toNat) (g : Gen) : (sample x g).toNat < x.toNat :=
  sample_lt (by intro h0; rw [h0] at h; simp at h) g

/-- Where the shuffle of the elements ends, and the platform answers every access to an element, SHUFFLE's loop
completes: with the generator and the elements of that shuffle, and the results of the step at length 2. -/
theorem shuffleLoop_of_shuffled (base w N : Nat) {length stop : Nat} {g g' : Gen} {q q' : List (List Byte)}
    (h : shuffled length stop g q g' q') (hstop : stop < 2) :
    ∀ rounds s, length ≤ rounds → length ≤ N → s.shLen.toNat = length → s.ctx = some g.ctx → s.adv = g.adv →
      memWf s.mem = true → elements s.mem base w N = q →
      (∀ m d, m < N → s.memOk (base + m * w) w d = true) →
      ∃ u, shuffleLoop base w rounds g.ctx s = .complete u ∧ u.ctx = some g'.ctx ∧ u.adv = g'.adv ∧
        u.shLen.toNat = stop ∧ elements u.mem base w N = q' ∧ q'.Perm q ∧
        (length < 2 → u.out = s.out ∧ u.outJ = s.outJ ∧ u.swp = s.swp) ∧
        (2 ≤ length → ∃ g₂ q₂ n, shuffled length 2 g q g₂ q₂ ∧ firstAccepted 2#32 g₂ n ∧
          u.out = sample 2#32 (g₂.after n) ∧ u.outJ = 1#32 ∧ u.swp = decide (u.out ≠ 1#32)) := by
  induction h with
  | done length g q =>
    intro rounds s hr hN hl hc ha hwf he hok
    refine ⟨s, ?_, hc, ha, hl, he, List.Perm.refl _, fun _ => ⟨rfl, rfl, rfl⟩, fun h2 => by omega⟩
    cases rounds with
    | zero => rfl
    | succ n => exact if_pos (show s.shLen.toNat < 2 by omega)
  | step length stop n g g' q q' h draw rest ih =>
    intro rounds s hr hN hl hc ha hwf he hok
    have hk : BitVec.ofNat 32 length = s.shLen := by rw [← hl]; simp
    rw [hk] at draw ih rest
    have h2 : 2 ≤ s.shLen.toNat := by omega
    obtain ⟨rounds, rfl⟩ : ∃ k, rounds = k + 1 := ⟨rounds - 1, by omega⟩
    have hj : (s.shLen - 1#32).toNat = length - 1 := by rw [toNat_pred h2, hl]
    have hrl : (sample s.shLen (g.after n)).toNat < length := hl ▸ sample_lt_length h2 _
    have hq : q.length = N := by rw [← he, elements_length]
    have hg : (⟨g.ctx, s.adv⟩ : Gen) = g := by rw [ha]
    -- what the rest of the loop leaves is what the whole leaves
    have last : ∀ u : State,
        (length - 1 < 2 → u.out = sample s.shLen (g.after n) ∧ u.outJ = s.shLen - 1#32 ∧
          u.swp = (sample s.shLen (g.after n) != s.shLen - 1#32)) →
        (2 ≤ length - 1 → ∃ g₂ q₂ n', shuffled (length - 1) 2 (g.after (n + 1))
          (exchange q (sample s.shLen (g.after n)).toNat (length - 1)) g₂ q₂ ∧ firstAccepted 2#32 g₂ n' ∧
          u.out = sample 2#32 (g₂.after n') ∧ u.outJ = 1#32 ∧ u.swp = decide (u.out ≠ 1#32)) →
        ∃ g₂ q₂ n', shuffled length 2 g q g₂ q₂ ∧ firstAccepted 2#32 g₂ n' ∧
          u.out = sample 2#32 (g₂.after n') ∧ u.outJ = 1#32 ∧ u.swp = decide (u.out ≠ 1#32) := by
      intro u hlast hmore
      by_cases h3 : length = 2
      · subst h3
        have h2' : s.shLen = 2#32 := by rw [← hk]
        obtain ⟨o1, o2, o3⟩ := hlast (by omega)
        refine ⟨g, q, n, .done _ _ _, h2' ▸ draw, ?_, ?_, ?_⟩
        · rw [o1, h2']
        · rw [o2, h2']; rfl
        · rw [o3, o1, h2']
          show (sample 2#32 (g.after n) != 1#32) = _
          by_cases hs : sample 2#32 (g.after n) = 1#32 <;> simp [hs]
      · obtain ⟨g₂, q₂, n', d, rest'⟩ := hmore (by omega)
        exact ⟨g₂, q₂, n', .step length 2 n g g₂ q q₂ h (hk ▸ draw) (hk ▸ d), rest'⟩
    simp only [shuffleLoop]
    rw [if_neg (show ¬ s.shLen < 2#32 from Nat.not_lt.2 h2)]
    simp only [shufStep, hg, roll_of_firstAccepted draw]
    split
    · next heq =>
      have hex : exchange q (sample s.shLen (Gen.after n g)).toNat (length - 1) = q := by
        rw [heq, hj]; exact exchange_self _ (by omega)
      rw [hex] at ih last
      obtain ⟨u, e1, e2, e3, e4, e5, e6, e7, e8⟩ := ih hstop rounds { stepped s g n with shLen := s.shLen - 1#32 }
        (by omega) (by omega) hj rfl rfl hwf he hok
      exact ⟨u, e1, e2, e3, e4, e5, e6, fun _ => by omega, fun _ => last u e7 e8⟩
    · next hneq =>
      have hneq' : (sample s.shLen (g.after n)).toNat ≠ length - 1 := fun hh =>
        hneq (BitVec.eq_of_toNat_eq (hh.trans hj.symm))
      have ok : ∀ m d, m < N → (stepped s g n).memOk (base + m * w) w d = true := hok
      have hswap := swap_cases (stepped s g n) (elementAddress base w (sample s.shLen (g.after n)))
        (elementAddress base w (s.shLen - 1#32)) w
      simp only [elementAddress, hj] at hswap ⊢
      rcases hswap with ⟨-, -, -, -, e⟩ | ⟨b, -⟩ | ⟨-, b, -⟩ | ⟨-, -, b, -⟩ | ⟨-, -, -, b, -⟩
      · simp only [stepped] at e
        rw [e]
        have hel := elements_swap (base := base) (w := w) hwf (n := N) (r := (sample s.shLen (g.after n)).toNat)
          (j := length - 1) (by omega) (by omega)
        rw [he] at hel
        obtain ⟨u, e1, e2, e3, e4, e5, e6, e7, e8⟩ := ih hstop rounds
          { stepped s g n with
            mem := writeBytes (writeBytes s.mem (base + (sample s.shLen (g.after n)).toNat * w)
              (readBytes s.mem (base + (length - 1) * w) w)) (base + (length - 1) * w)
              (readBytes s.mem (base + (sample s.shLen (g.after n)).toNat * w) w)
            shLen := s.shLen - 1#32 }
          (by omega) (by omega) hj rfl rfl (memWf_writeBytes (memWf_writeBytes hwf _ _) _ _) hel hok
        exact ⟨u, e1, e2, e3, e4, e5, e6.trans (exchange_perm _ (by omega) (by omega)), fun _ => by omega,
          fun _ => last u e7 e8⟩
      all_goals
        rw [ok _ _ (by omega)] at b
        cases b

/-- `u` is what a failed SHUFFLE leaves of `s` with error `e`: a bus error of the step at the length `SH_LEN` shows; the
steps before it are complete, its draw is made, and its swap has failed (43_shuffle.md R124, R125). -/
def failedStep (base w N : Nat) (c : Ctx) (s u : State) (e : Err) : Prop :=
  ∃ g q n a, e = .bus (BitVec.ofNat 32 a) ∧ 2 ≤ u.shLen.toNat ∧ u.shLen.toNat ≤ s.shLen.toNat ∧
    shuffled s.shLen.toNat u.shLen.toNat ⟨c, s.adv⟩ (elements s.mem base w N) g q ∧ firstAccepted u.shLen g n ∧
    u.ctx = some (g.after (n + 1)).ctx ∧ u.adv = (g.after (n + 1)).adv ∧ u.out = sample u.shLen (g.after n) ∧
    u.outJ = u.shLen - 1#32 ∧ u.out.toNat < u.outJ.toNat ∧ u.swp = true ∧
    failedSwap s base w N q u.out.toNat u.outJ.toNat a u.mem

/-- A step made before the one that fails. -/
theorem failedStep_after {base w N n : Nat} {c : Ctx} {s v u : State} {e : Err} (h2 : 2 ≤ s.shLen.toNat)
    (hn : firstAccepted s.shLen ⟨c, s.adv⟩ n) (ha : v.adv = ((⟨c, s.adv⟩ : Gen).after (n + 1)).adv)
    (hs : v.shLen = s.shLen - 1#32) (hb : v.busErrors = s.busErrors)
    (hel : elements v.mem base w N = exchange (elements s.mem base w N)
      (sample s.shLen ((⟨c, s.adv⟩ : Gen).after n)).toNat (s.shLen.toNat - 1))
    (h : failedStep base w N ((⟨c, s.adv⟩ : Gen).after (n + 1)).ctx v u e) : failedStep base w N c s u e := by
  obtain ⟨g, q, m, a, e1, e2, e3, e4, e5⟩ := h
  have hword : BitVec.ofNat 32 s.shLen.toNat = s.shLen := by simp
  rw [hs, toNat_pred h2, ha, hel] at e4
  refine ⟨g, q, m, a, e1, e2, by rw [hs, toNat_pred h2] at e3; omega,
    .step _ _ n _ _ _ _ h2 (by rw [hword]; exact hn) (by rw [hword]; exact e4), ?_⟩
  simp only [failedSwap, State.memOk, hb] at e5 ⊢
  exact e5

/-- Where SHUFFLE's loop ends with an error, a step of it has failed. -/
theorem shuffleLoop_raise (base w N : Nat) {rounds : Nat} {c : Ctx} {s u : State} {e : Err}
    (hc : s.ctx = some c) (hwf : memWf s.mem = true) (hN : s.shLen.toNat ≤ N)
    (h : shuffleLoop base w rounds c s = .raise e u) : failedStep base w N c s u e := by
  induction rounds generalizing c s with
  | zero => cases h
  | succ k ih =>
    simp only [shuffleLoop] at h
    split at h
    · cases h
    · next hlen =>
      have hlen' : 2 ≤ s.shLen.toNat := Nat.not_lt.1 hlen
      split at h
      · cases h
      · next c' t hstep =>
        obtain ⟨n, hn, hc', ht⟩ := shufStep_stepped hstep
        have hout : t.out = sample s.shLen ((⟨c, s.adv⟩ : Gen).after n) := by rw [ht]; rfl
        have hJ : t.outJ = s.shLen - 1#32 := by rw [ht]; rfl
        have hj : t.outJ.toNat = s.shLen.toNat - 1 := by rw [hJ, toNat_pred hlen']
        have hr : t.out.toNat < s.shLen.toNat := by rw [hout]; exact sample_lt_length hlen' _
        have hctx : t.ctx = some c' := by rw [ht, hc']; rfl
        have hmem : t.mem = s.mem := by rw [ht]; rfl
        have hbus : t.busErrors = s.busErrors := by rw [ht]; rfl
        have hadv : t.adv = ((⟨c, s.adv⟩ : Gen).after (n + 1)).adv := by rw [ht]; rfl
        split at h
        · next heq =>
          refine failedStep_after (v := { t with shLen := t.outJ }) hlen' hn hadv hJ hbus ?_
            (hc' ▸ ih (s := { t with shLen := t.outJ }) hctx (show memWf t.mem = true from hmem ▸ hwf)
              (show t.outJ.toNat ≤ N by omega) h)
          rw [← hout, heq, hj, exchange_self _ (by rw [elements_length]; omega)]
          show elements t.mem base w N = _
          rw [hmem]
        · next hneq =>
          have hneq' : t.out.toNat ≠ t.outJ.toNat := fun hh => hneq (BitVec.eq_of_toNat_eq hh)
          split at h
          · next e' v hswap =>
            cases h
            obtain ⟨hu, -⟩ := swap_error hswap
            obtain ⟨a, ha, hf⟩ := swap_failed (n := N) (by rw [hmem]; exact hwf) (by omega) (by omega) hneq' hswap
            rw [hmem] at hf
            have o3 : u.shLen = s.shLen := by rw [hu, ht]; rfl
            have o4 : u.out = t.out := by rw [hu]
            have o5 : u.outJ = t.outJ := by rw [hu]
            refine ⟨⟨c, s.adv⟩, elements s.mem base w N, n, a, ha, by rw [o3]; exact hlen', by rw [o3],
              by rw [o3]; exact .done _ _ _, by rw [o3]; exact hn, by rw [hu, ht]; rfl, by rw [hu, ht]; rfl,
              by rw [o3, o4, hout], by rw [o3, o5, hJ], by rw [o4, o5]; omega, ?_, ?_⟩
            · have : u.swp = (t.out != t.outJ) := by rw [hu, hout, hJ, ht]; rfl
              rw [this]; simpa using hneq
            · rw [o4, o5]
              simp only [failedSwap, State.memOk, hbus] at hf ⊢
              exact hf
          · next v hswap =>
            obtain ⟨-, -, -, -, hv⟩ := swap_ok hswap
            have hw : memWf v.mem = true := (swap_mem (.inl hswap)).2.1 (by rw [hmem]; exact hwf)
            refine failedStep_after (v := { v with shLen := t.outJ }) hlen' hn (by rw [hv]; exact hadv) hJ
              (by rw [hv]; exact hbus) ?_ (hc' ▸ ih (s := { v with shLen := t.outJ }) (by rw [hv]; exact hctx) hw
                (show t.outJ.toNat ≤ N by omega) h)
            show elements v.mem base w N = _
            rw [hv, hmem]
            simp only [elementAddress]
            rw [elements_swap hwf (by omega) (by omega), hj, hout]

/-- The registers of a SHUFFLE's loop that ends with an error, in every state: a bus error at one of the two elements of
the step whose length `SH_LEN` shows, which the platform refused (43_shuffle.md R125, 60_exceptions.md R134). -/
theorem shuffleLoop_bus {base w rounds : Nat} {c : Ctx} {s u : State} {e : Err}
    (h : shuffleLoop base w rounds c s = .raise e u) :
    2 ≤ u.shLen.toNat ∧ u.shLen.toNat ≤ s.shLen.toNat ∧ u.outJ = u.shLen - 1#32 ∧ u.out.toNat < u.outJ.toNat ∧
    ∃ m d, (m = u.out ∨ m = u.outJ) ∧ s.memOk (base + m.toNat * w) w d = false ∧
      e = .bus (BitVec.ofNat 32 (base + m.toNat * w)) := by
  induction rounds generalizing c s with
  | zero => cases h
  | succ k ih =>
    simp only [shuffleLoop] at h
    split at h
    · cases h
    · next hlen =>
      have hlen' : 2 ≤ s.shLen.toNat := Nat.not_lt.1 hlen
      split at h
      · cases h
      · next c' t hstep =>
        obtain ⟨n, -, -, ht⟩ := shufStep_stepped hstep
        have hJ : t.outJ = s.shLen - 1#32 := by rw [ht]; rfl
        have hj : t.outJ.toNat = s.shLen.toNat - 1 := by rw [hJ, toNat_pred hlen']
        have hr : t.out.toNat < s.shLen.toNat := by rw [ht]; exact sample_lt_length hlen' _
        have hbus : t.busErrors = s.busErrors := by rw [ht]; rfl
        have more : ∀ v : State, v.busErrors = s.busErrors →
            shuffleLoop base w k c' { v with shLen := t.outJ } = .raise e u →
            2 ≤ u.shLen.toNat ∧ u.shLen.toNat ≤ s.shLen.toNat ∧ u.outJ = u.shLen - 1#32 ∧
            u.out.toNat < u.outJ.toNat ∧ ∃ m d, (m = u.out ∨ m = u.outJ) ∧
              s.memOk (base + m.toNat * w) w d = false ∧ e = .bus (BitVec.ofNat 32 (base + m.toNat * w)) := by
          intro v hb hv
          have hi := ih hv
          simp only [State.memOk, hb] at hi ⊢
          exact ⟨hi.1, (show u.shLen.toNat ≤ t.outJ.toNat from hi.2.1).trans (by omega), hi.2.2⟩
        split at h
        · exact more t hbus h
        · next hneq =>
          have hneq' : t.out.toNat ≠ t.outJ.toNat := fun hh => hneq (BitVec.eq_of_toNat_eq hh)
          split at h
          · next e' v hswap =>
            cases h
            obtain ⟨hu, hb⟩ := swap_error hswap
            have o3 : u.shLen = s.shLen := by rw [hu, ht]; rfl
            have o4 : u.out = t.out := by rw [hu]
            have o5 : u.outJ = t.outJ := by rw [hu]
            simp only [State.memOk, hbus, elementAddress] at hb ⊢
            refine ⟨by rw [o3]; exact hlen', by rw [o3], by rw [o3, o5, hJ], by rw [o4, o5]; omega, ?_⟩
            rcases hb with ⟨rfl, d, hb⟩ | ⟨rfl, d, hb⟩
            · exact ⟨u.out, d, .inl rfl, by rw [o4]; exact hb, by rw [o4]⟩
            · exact ⟨u.outJ, d, .inr rfl, by rw [o5]; exact hb, by rw [o5]⟩
          · next v hswap =>
            obtain ⟨-, -, -, -, hv⟩ := swap_ok hswap
            exact more v (by rw [hv]; exact hbus) h

end Sys2Proof.Machine
end

