-- ==== Sys2Proof/Laws/PerInstr.lean ====
section
/-! SUPPORT. Statements about every command as syntax, one lemma per constructor. -/

namespace Sys2Proof.Laws.Encoding

/-- The command is well formed, its word has the fields it is encoded with, and the word names its operation in bits
3:0 alone where neither `ALG` nor `WCODE` is used (30_encoding.md R71, R72, R77). -/
def Statement (i : Instr) : Prop :=
  i.wellFormed = true ∧ fieldsOf (encode i) = instrFields i ∧
    ((instrFields i).opc ≠ 1#4 → (instrFields i).opc ≠ 6#4 → (encode i).toNat = (instrFields i).opc.toNat)

theorem nop : Statement .nop := by unfold Statement; decide

theorem create256p : Statement .create256p := by unfold Statement; decide

theorem create256pp : Statement .create256pp := by unfold Statement; decide

theorem create256ss : Statement .create256ss := by unfold Statement; decide

theorem create512p : Statement .create512p := by unfold Statement; decide

theorem create512pp : Statement .create512pp := by unfold Statement; decide

theorem create512ss : Statement .create512ss := by unfold Statement; decide

theorem release : Statement .release := by unfold Statement; decide

theorem roll : Statement .roll := by unfold Statement; decide

theorem getState : Statement .getState := by unfold Statement; decide

theorem setState : Statement .setState := by unfold Statement; decide

theorem shuffle8 : Statement .shuffle8 := by unfold Statement; decide

theorem shuffle16 : Statement .shuffle16 := by unfold Statement; decide

theorem shuffle32 : Statement .shuffle32 := by unfold Statement; decide

theorem shuffle64 : Statement .shuffle64 := by unfold Statement; decide

theorem shufInit : Statement .shufInit := by unfold Statement; decide

theorem shufStep : Statement .shufStep := by unfold Statement; decide

end Sys2Proof.Laws.Encoding
end

