-- ==== Sys2Proof/Laws/Step.lean ====
section
/-! SUPPORT. Whose turn a step is, one lemma per case, and what the engine's turn does. -/

namespace Sys2Proof.Machine

/-- The platform address of a register names its offset in the window, wherever the window lies (10_state.md R22). -/
theorem windowOffset_base (off : BitVec 8) : windowOffset (Config.regBase + off.toNat) = some off := by
  have h := off.isLt
  have hin : Config.regBase ≤ Config.regBase + off.toNat ∧ Config.regBase + off.toNat < Config.regBase + 256 := by
    omega
  unfold windowOffset
  rw [if_pos hin, Nat.add_sub_cancel_left, BitVec.ofNat_toNat, BitVec.setWidth_eq]

theorem step_nil {s : State} (h : s.script = []) : step s = engineTurn s := by simp [step, takeTurn, h]

theorem step_engine {s : State} {rest : List Move} (h : s.script = .engine :: rest) :
    step s = engineTurn (s.withScript rest) := by simp [step, takeTurn, h, makeMove]

theorem step_wait_busy {s : State} {rest : List Move} (h : s.script = .wait :: rest) (hb : s.busy = true) :
    step s = engineTurn s := by simp [step, takeTurn, h, hb]

theorem step_wait_idle {s : State} {rest : List Move} (h : s.script = .wait :: rest) (hb : s.busy = false) :
    step s = .next (s.withScript rest) := by simp [step, takeTurn, h, hb]

theorem step_read {s : State} {off : BitVec 8} {rest : List Move} (h : s.script = .read off 4 :: rest)
    (ha : off.toNat % 4 = 0) : step s = .next ((s.withScript rest).hostRead off) := by
  simp [step, takeTurn, h, makeMove, alignedAccess, ha]

theorem step_write {s : State} {off : BitVec 8} {v : Word32} {rest : List Move}
    (h : s.script = .write off 4 v :: rest) (ha : off.toNat % 4 = 0) :
    step s = .next ((s.withScript rest).hostWrite off v) := by
  simp [step, takeTurn, h, makeMove, alignedAccess, ha]

theorem step_reset {s : State} {rest : List Move} (h : s.script = .reset :: rest) :
    step s = .next (s.withScript rest).afterReset := by simp [step, takeTurn, h, makeMove]

theorem engineTurn_idle {s : State} (h : s.lat = none) : engineTurn s = .next s := by simp [engineTurn, h]

theorem engineTurn_ok {s : State} {l : Latched} {i : Instr} (h : s.lat = some l) (hd : decode l.cmd = .ok i) :
    engineTurn s = exec i s := by simp [engineTurn, h, hd]

theorem engineTurn_rejected {s : State} {l : Latched} {r : Reject} (h : s.lat = some l)
    (hd : decode l.cmd = .error r) : engineTurn s = finish s (rejected r s) := by simp [engineTurn, h, hd]

/-- All that the engine's turn can leave: the state as it was; or a completion or an error, over a state that differs
from the one before it in what commands write. -/
theorem engineTurn_next {s t : State} (h : engineTurn s = .next t) :
    t = s ∨ (s.busy = true ∧ ∃ u, keepsRest s u ∧ (t = u.completed ∨ ∃ e, t = u.raised e)) := by
  cases hl : s.lat with
  | none => rw [engineTurn_idle hl] at h; cases h; exact .inl rfl
  | some l =>
    have hb : s.busy = true := by simp [State.busy, hl]
    cases hd : decode l.cmd with
    | ok i =>
      rw [engineTurn_ok hl hd] at h
      rcases exec_next h with h | h
      · exact .inl h
      · exact .inr ⟨hb, h⟩
    | error r =>
      rw [engineTurn_rejected hl hd] at h
      have hr : ∃ e, rejected r s = .raise e s := by
        unfold rejected
        split
        · exact ⟨_, rfl⟩
        · exact ⟨_, rfl⟩
        · split <;> exact ⟨_, rfl⟩
      obtain ⟨e, he⟩ := hr
      rw [he] at h
      cases h
      exact .inr ⟨hb, s, keepsRest_refl s, .inr ⟨e, rfl⟩⟩

/-- All that a step that goes on can be: the engine's turn, on the state or with its move taken; the end of a wait;
or a move of the host or the platform. -/
theorem step_cases {s t : State} (h : step s = .next t) :
    (engineTurn s = .next t) ∨ (∃ rest, s.script = .engine :: rest ∧ engineTurn (s.withScript rest) = .next t) ∨
    (∃ rest, s.script = .wait :: rest ∧ t = s.withScript rest) ∨
    (∃ off rest, s.script = .read off 4 :: rest ∧ t = (s.withScript rest).hostRead off) ∨
    (∃ off v rest, s.script = .write off 4 v :: rest ∧ t = (s.withScript rest).hostWrite off v) ∨
    (∃ a rest, s.script = .load a :: rest ∧
      t = { s.withScript rest with seen := .byte a (readByte s.mem a.toNat) :: s.seen }) ∨
    (∃ a b rest, s.script = .store a b :: rest ∧
      t = { s.withScript rest with mem := writeByte s.mem a.toNat b }) ∨
    (∃ rest, s.script = .reset :: rest ∧ t = (s.withScript rest).afterReset) := by
  unfold step takeTurn at h
  split at h
  · exact .inl h
  · next rest hs =>
    split at h
    · exact .inl h
    · cases h; exact .inr (.inr (.inl ⟨rest, hs, rfl⟩))
  · next m rest hm hs =>
    cases m with
    | read off width =>
      simp only [makeMove] at h
      split at h
      · next ha =>
        simp only [alignedAccess, Bool.and_eq_true, beq_iff_eq] at ha
        cases h
        exact .inr (.inr (.inr (.inl ⟨off, rest, by rw [hs, ha.1], rfl⟩)))
      · cases h
    | write off width v =>
      simp only [makeMove] at h
      split at h
      · next ha =>
        simp only [alignedAccess, Bool.and_eq_true, beq_iff_eq] at ha
        cases h
        exact .inr (.inr (.inr (.inr (.inl ⟨off, v, rest, by rw [hs, ha.1], rfl⟩))))
      · cases h
    | load a =>
      simp only [makeMove] at h
      split at h
      · cases h
      · cases h; exact .inr (.inr (.inr (.inr (.inr (.inl ⟨a, rest, hs, rfl⟩)))))
    | store a b =>
      simp only [makeMove] at h
      split at h
      · cases h
      · cases h; exact .inr (.inr (.inr (.inr (.inr (.inr (.inl ⟨a, b, rest, hs, rfl⟩))))))
    | engine => exact .inr (.inl ⟨rest, hs, h⟩)
    | wait => exact absurd rfl hm
    | reset => cases h; exact .inr (.inr (.inr (.inr (.inr (.inr (.inr ⟨rest, hs, rfl⟩))))))

end Sys2Proof.Machine
end

