-- ==== Sys2Proof/Tests/Slice0.lean ====
section
/-! SUPPORT. The model's own tests: ill-formed fields refused, command words written out bit by bit from the spec,
the spec's vectors (95_test_vectors.md) one step at a time, and for every statement with hypotheses a witness that
meets them together. Expected values come from spec/, never from the model. -/

namespace Sys2Proof.Tests

open Sys2Proof Sys2Proof.Machine

/-! ### Small states -/

/-- The state a step goes on to; the state itself where it stops. -/
def goesTo (s : State) (o : Host.Outcome State Fault Refusal) : State :=
  match o with
  | .next t => t
  | .fault _ => s
  | .refused _ => s

theorem eq_next {s : State} {o : Host.Outcome State Fault Refusal} (h : wentOn o = true) :
    o = .next (goesTo s o) := by
  cases o with
  | next t => rfl
  | fault r => cases h
  | refused r => cases h

/-- An idle engine with this context, as after reset in everything else. -/
def withCtx (c : Option Ctx) : State := { State.reset with ctx := c }

/-- A command accepted with these arguments. -/
def issue (s : State) (word argK addr len : Word32) : State :=
  { s with argK := argK, addr := addr, len := len }.accept word

/-- Bytes placed in memory. -/
def placed (s : State) (a : Nat) (bs : List Byte) : State := { s with mem := writeBytes s.mem a bs }

/-- The engine's turn taken. -/
def ran (s : State) : State := goesTo s (step s)

/-- The state words [1, 2, 3, 4]. -/
def s1234 : S256 := ⟨1, 2, 3, 4⟩

/-- The state words [1, ..., 8]. -/
def s12345678 : S512 := ⟨1, 2, 3, 4, 5, 6, 7, 8⟩

/-- The 32 seed bytes of [1, 2, 3, 4] (95_test_vectors.md P1). -/
def seed1234 : List Byte :=
  [0, 0, 0, 0, 0, 0, 0, 1, 0, 0, 0, 0, 0, 0, 0, 2, 0, 0, 0, 0, 0, 0, 0, 3, 0, 0, 0, 0, 0, 0, 0, 4]

/-- The 64 seed bytes of [1, ..., 8] (95_test_vectors.md P5). -/
def seed12345678 : List Byte :=
  seed1234 ++
    [0, 0, 0, 0, 0, 0, 0, 5, 0, 0, 0, 0, 0, 0, 0, 6, 0, 0, 0, 0, 0, 0, 0, 7, 0, 0, 0, 0, 0, 0, 0, 8]

/-- A 256** handle at [1, 2, 3, 4]. -/
def starStar : State := withCtx (some (.c256 .starStar s1234))

/-- A 256+ handle at [0xFFFFFFFF, 0, 0, 0] (42_sampler.md R116). -/
def plusOnes : State := withCtx (some (.c256 .plus ⟨0xFFFFFFFF, 0, 0, 0⟩))

/-- A 512++ handle at [1, ..., 8]. -/
def plusPlus512 : State := withCtx (some (.c512 .plusPlus s12345678))

/-- A SHUFFLE.8 of four elements at 0x3000 whose first step, with `r = 0` and `j = 3` (43_shuffle.md R123), meets this
bus error. -/
def shuffleMeeting (e : BusError) : State :=
  issue { placed starStar 0x3000 [0xA0, 0xA1, 0xA2, 0xA3] with busErrors := [e] } 0x6 0 0x3000 4

/-! ### Ill-formed fields (30_encoding.md R77) -/

theorem test_illFormed_reservedZero : CommandFields.reservedZero ⟨0x0, 0x0, 0x0, 1⟩ = false := by decide
theorem test_illFormed_opcDefined : CommandFields.opcDefined ⟨0x9, 0x0, 0x0, 0⟩ = false := by decide
theorem test_illFormed_algUnused : CommandFields.algUnused ⟨0x3, 0x1, 0x0, 0⟩ = false := by decide
theorem test_illFormed_wcodeUnused : CommandFields.wcodeUnused ⟨0x2, 0x0, 0x1, 0⟩ = false := by decide
theorem test_illFormed_algDefined : CommandFields.algDefined ⟨0x1, 0x3, 0x0, 0⟩ = false := by decide
theorem test_illFormed_wcodeDefined : CommandFields.wcodeDefined ⟨0x6, 0x0, 0x4, 0⟩ = false := by decide

theorem test_illFormed_refused :
    CommandFields.wellFormed ⟨0x0, 0x0, 0x0, 1⟩ = false ∧ CommandFields.wellFormed ⟨0x9, 0x0, 0x0, 0⟩ = false ∧
    CommandFields.wellFormed ⟨0x3, 0x1, 0x0, 0⟩ = false ∧ CommandFields.wellFormed ⟨0x2, 0x0, 0x1, 0⟩ = false ∧
    CommandFields.wellFormed ⟨0x1, 0x3, 0x0, 0⟩ = false ∧ CommandFields.wellFormed ⟨0x6, 0x0, 0x4, 0⟩ = false := by
  decide

/-! ### Words, bit by bit: RSV, WCODE, ALG, OPC (30_encoding.md R70 to R74) -/

theorem test_decode_nop : decode 0b00000000000000000000_0000_0000_0000#32 = .ok .nop := by decide
theorem test_decode_create256p : decode 0b00000000000000000000_0000_0000_0001#32 = .ok .create256p := by decide
theorem test_decode_create256pp : decode 0b00000000000000000000_0000_0001_0001#32 = .ok .create256pp := by decide
theorem test_decode_create256ss : decode 0b00000000000000000000_0000_0010_0001#32 = .ok .create256ss := by decide
theorem test_decode_create512p : decode 0b00000000000000000000_0000_0100_0001#32 = .ok .create512p := by decide
theorem test_decode_create512pp : decode 0b00000000000000000000_0000_0101_0001#32 = .ok .create512pp := by decide
theorem test_decode_create512ss : decode 0b00000000000000000000_0000_0110_0001#32 = .ok .create512ss := by decide
theorem test_decode_release : decode 0b00000000000000000000_0000_0000_0010#32 = .ok .release := by decide
theorem test_decode_roll : decode 0b00000000000000000000_0000_0000_0011#32 = .ok .roll := by decide
theorem test_decode_getState : decode 0b00000000000000000000_0000_0000_0100#32 = .ok .getState := by decide
theorem test_decode_setState : decode 0b00000000000000000000_0000_0000_0101#32 = .ok .setState := by decide
theorem test_decode_shuffle8 : decode 0b00000000000000000000_0000_0000_0110#32 = .ok .shuffle8 := by decide
theorem test_decode_shuffle16 : decode 0b00000000000000000000_0001_0000_0110#32 = .ok .shuffle16 := by decide
theorem test_decode_shuffle32 : decode 0b00000000000000000000_0010_0000_0110#32 = .ok .shuffle32 := by decide
theorem test_decode_shuffle64 : decode 0b00000000000000000000_0011_0000_0110#32 = .ok .shuffle64 := by decide
theorem test_decode_shufInit : decode 0b00000000000000000000_0000_0000_0111#32 = .ok .shufInit := by decide
theorem test_decode_shufStep : decode 0b00000000000000000000_0000_0000_1000#32 = .ok .shufStep := by decide

/-- 95_test_vectors.md 2.5.1: the words of the precedence table that are no legal command. -/
theorem test_decode_rejects :
    decode 0x13#32 = .error .illegalCommand ∧ decode 0x1000#32 = .error .illegalCommand ∧
    decode 0x9#32 = .error .illegalCommand ∧ decode 0xF#32 = .error .illegalCommand ∧
    decode 0x102#32 = .error .illegalCommand ∧ decode 0x31#32 = .error .reservedAlg ∧
    decode 0x71#32 = .error .reservedAlg ∧ decode 0x406#32 = .error .reservedWidth := by decide

/-! ### The mixing step (40_mixing.md, 95_test_vectors.md 2.1) -/

/-- 40_mixing.md R83, its example and the all-ones row of 95_test_vectors.md 2.1. -/
theorem test_upd256 :
    upd256 s1234 = ⟨0x7, 0x0, 0x40002, 0xC00000000000⟩ ∧
    upd256 ⟨0xFFFFFFFFFFFFFFFF, 0xFFFFFFFFFFFFFFFF, 0xFFFFFFFFFFFFFFFF, 0xFFFFFFFFFFFFFFFF⟩ =
      ⟨0xFFFFFFFFFFFFFFFF, 0xFFFFFFFFFFFFFFFF, 0xFFFFFFFFFFFE0000, 0x0⟩ := by decide

/-- 40_mixing.md R84, its example, and the state before step 3 of 95_test_vectors.md 2.1. -/
theorem test_upd512 :
    upd512 s12345678 = ⟨0x6, 0x0, 0x2, 0x1, 0x1, 0x4, 0x100B, 0x1800000⟩ ∧
    upd512 (upd512 s12345678) = ⟨0x100D, 0x4, 0x4, 0x0, 0x5, 0x4, 0x180100A, 0x300000200000⟩ := by decide

/-- 95_test_vectors.md 2.1: the fourth outputs, 64 bits wide, of the three 256-bit variants. -/
theorem test_out256_fourth :
    out256 .plus (upd256 (upd256 (upd256 s1234))) = 0x8001600018040302 ∧
    out256 .plusPlus (upd256 (upd256 (upd256 s1234))) = 0xCC201994400B2 ∧
    out256 .starStar (upd256 (upd256 (upd256 s1234))) = 0x10E0000000009D80 := by decide

/-- 95_test_vectors.md 2.1: the fourth outputs, 64 bits wide, of the three 512-bit variants. -/
theorem test_out512_fourth :
    out512 .plus (upd512 (upd512 (upd512 s12345678))) = 0x1801010 ∧
    out512 .plusPlus (upd512 (upd512 (upd512 s12345678))) = 0x30020201009 ∧
    out512 .starStar (upd512 (upd512 (upd512 s12345678))) = 0x1692480 := by decide

/-- 90_conflicts.md C1, 95_test_vectors.md 2.1: the first raw outputs are those of the pre-update phase. -/
theorem test_output_phase :
    (Gen.raw ⟨.c256 .plus s1234, 0⟩, Gen.raw ⟨.c256 .plusPlus s1234, 0⟩, Gen.raw ⟨.c256 .starStar s1234, 0⟩,
      Gen.raw ⟨.c512 .plus s12345678, 0⟩, Gen.raw ⟨.c512 .plusPlus s12345678, 0⟩,
      Gen.raw ⟨.c512 .starStar s12345678, 0⟩) =
    (0x00000005#32, 0x02800001#32, 0x00002D00#32, 0x00000004#32, 0x00080003#32, 0x00002D00#32) := by decide

/-- 95_test_vectors.md 2.1: the corner cases of the output functions. -/
theorem test_output_corners :
    out256 .plus ⟨0xFFFFFFFFFFFFFFFF, 0, 0, 2⟩ = 1 ∧
    out256 .plusPlus ⟨0x8000000000000000, 0, 0, 0x8000000000000000⟩ = 0x8000000000000000 ∧
    out512 .plusPlus ⟨0xFFFFFFFF00000000, 0, 0x100000000, 0, 0, 0, 0, 0⟩ = 0x100000000 ∧
    out256 .starStar ⟨0, 0x8000000000000000, 0, 0⟩ = 0x240 ∧
    out256 .starStar ⟨0, 0xFFFFFFFFFFFFFFFF, 0, 0⟩ = 0xFFFFFFFFFFFFEDF7 := by decide

/-! ### NOP and the generator context (41_generator.md) -/

/-- 41_generator.md R97: from `STATUS = 0x62C`, a NOP accepted and completed leaves 0x2A. -/
theorem test_nop :
    ({ State.reset with err := some .range, ovr := true, done := false } : State).status = 0x0000062C#32 ∧
    (ran (issue { State.reset with err := some .range, ovr := true } 0x0 0 0 0)).status = 0x0000002A#32 := by decide

/-- 95_test_vectors.md 2.2.1, row 1: byte assembly and `HANDLE`. -/
theorem test_create256p :
    (ran (issue (placed State.reset 0x1000 (List.ofFn fun i : Fin 32 => BitVec.ofNat 8 i)) 0x01 0 0x1000 32)).ctx =
      some (.c256 .plus ⟨0x0001020304050607, 0x08090A0B0C0D0E0F, 0x1011121314151617, 0x18191A1B1C1D1E1F⟩) ∧
    (ran (issue (placed State.reset 0x1000 seed1234) 0x01 0 0x1000 32)).handle = 0x00000401#32 := by decide

/-- 95_test_vectors.md 2.2.1, row 5: bytes past the seed are not read. -/
theorem test_create256pp :
    (ran (issue (placed State.reset 0x1000 (seed1234 ++ [0xFF, 0xFF])) 0x11 0 0x1000 40)).ctx =
      some (.c256 .plusPlus s1234) ∧
    (ran (issue (placed State.reset 0x1000 seed1234) 0x11 0 0x1000 40)).handle = 0x00000411#32 := by decide

/-- 95_test_vectors.md 2.2.1, row 2, and the values after every successful CREATE. -/
theorem test_create256ss :
    (ran (issue (placed { State.reset with swp := true, shLen := 7, adv := 9 } 0x1000 seed1234) 0x21 0 0x1000 32)) =
      { placed State.reset 0x1000 seed1234 with
        ctx := some (.c256 .starStar s1234), done := true, addr := 0x1000, len := 32 } ∧
    (ran (issue (placed State.reset 0x1000 seed1234) 0x21 0 0x1000 32)).status = 0x00000022#32 := by decide

/-- 95_test_vectors.md 2.2.2: a 512-bit seed of 63 bytes is too short, and the old handle stays. -/
theorem test_create512p :
    (ran (issue (placed starStar 0x1000 seed12345678) 0x41 0 0x1000 63)).status = 0x00000226#32 ∧
    (ran (issue (placed starStar 0x1000 seed12345678) 0x41 0 0x1000 63)).ctx = starStar.ctx := by decide

/-- 95_test_vectors.md 2.2.1, row 3. -/
theorem test_create512pp :
    (ran (issue (placed State.reset 0x1000 seed12345678) 0x51 0 0x1000 64)).ctx = some (.c512 .plusPlus s12345678) ∧
    (ran (issue (placed State.reset 0x1000 seed12345678) 0x51 0 0x1000 64)).handle = 0x00000851#32 := by
  decide

/-- 95_test_vectors.md 2.2.1, row 4, and 2.5.3: a bus error at the second word. -/
theorem test_create512ss :
    (ran (issue (placed State.reset 0x1000 seed12345678) 0x61 0 0x1000 64)).handle = 0x00000861#32 ∧
    (ran (issue { starStar with busErrors := [.access 0x1008 8 .read] } 0x61 0 0x1000 64)).faultAddr = 0x1008#32 := by
  decide

/-- 95_test_vectors.md 2.2.5: RELEASE, and a second one. -/
theorem test_release :
    (ran (issue starStar 0x2 0 0 0)).status = 0x00000022#32 ∧
    (ran (issue (ran (issue starStar 0x2 0 0 0)) 0x2 0 0 0)).status = 0x00000426#32 := by decide

/-- 95_test_vectors.md 2.2.3: the image of the state after three steps. -/
theorem test_getState :
    readBytes (ran (issue (withCtx (some (.c256 .starStar ⟨0xC00018040002, 0xC00000000007, 0xC008000E0002,
      0x8000A00000000300⟩))) 0x4 0 0x2000 0)).mem 0x2000 32 =
      [0x00, 0x00, 0xC0, 0x00, 0x18, 0x04, 0x00, 0x02, 0x00, 0x00, 0xC0, 0x00, 0x00, 0x00, 0x00, 0x07,
        0x00, 0x00, 0xC0, 0x08, 0x00, 0x0E, 0x00, 0x02, 0x80, 0x00, 0xA0, 0x00, 0x00, 0x00, 0x03, 0x00] := by
  decide

/-- 95_test_vectors.md 2.5.2: the range boundary of GET_STATE. -/
theorem test_getState_range :
    readBytes (ran (issue starStar 0x4 0 0xFFFFFFE0 0)).mem 0xFFFFFFE0 32 = seed1234 ∧
    (ran (issue starStar 0x4 0 0xFFFFFFE1 0)).status = 0x00000626#32 ∧
    (ran (issue starStar 0x4 0 0xFFFFFFE1 0)).faultAddr = 0xFFFFFFE1#32 ∧
    (ran (issue starStar 0x4 0 0xFFFFFFE1 0)).mem = [] := by decide

/-- 95_test_vectors.md 2.2.4: SET_STATE to [5, 6, 7, 8]; the counter stays. -/
theorem test_setState :
    (ran (issue (placed { starStar with adv := 3 } 0x1000
      [0, 0, 0, 0, 0, 0, 0, 5, 0, 0, 0, 0, 0, 0, 0, 6, 0, 0, 0, 0, 0, 0, 0, 7, 0, 0, 0, 0, 0, 0, 0, 8])
      0x5 0 0x1000 40)).ctx = some (.c256 .starStar ⟨5, 6, 7, 8⟩) ∧
    (ran (issue { starStar with adv := 3 } 0x5 0 0x1000 40)).adv = 3#64 := by decide

/-- 95_test_vectors.md 2.2.2: a 512-bit handle needs 64 bytes. -/
theorem test_setState_short :
    (ran (issue plusPlus512 0x5 0 0x1000 32)).err = some .insufficientSeed ∧
    (ran (issue plusPlus512 0x5 0 0x1000 32)).ctx = plusPlus512.ctx := by decide

/-! ### ROLL (42_sampler.md) -/

/-- 42_sampler.md R115: the worked example, and `k = 0` returns the raw output. -/
theorem test_roll :
    ((ran (issue starStar 0x3 7 0 0)).out, (ran (issue starStar 0x3 7 0 0)).adv) = (5#32, 1#64) ∧
    (ran (issue starStar 0x3 0 0 0)).out = 11520#32 := by decide

/-- 42_sampler.md R116: two draws rejected, the third accepted. -/
theorem test_roll_rejects :
    ((ran (issue plusOnes 0x3 3 0 0)).out, (ran (issue plusOnes 0x3 3 0 0)).adv) = (1#32, 3#64) ∧
    (ran (issue plusOnes 0x3 3 0 0)).ctx =
      some (.c256 .plus ⟨0xFFFFE000FFFFE000, 0x0001FFFF0001FFFF, 0x0, 0xFC001FFFFC001FFF⟩) := by decide

/-- 95_test_vectors.md 2.3.1: the bounds. -/
theorem test_rollBound :
    [1#32, 0x80000000#32, 3#32, 7#32, 100#32, 0x80000001#32, 0xFFFFFFFF#32].map rollBound =
      [0x100000000, 0x100000000, 0xFFFFFFFF, 0xFFFFFFFC, 0xFFFFFFA0, 0x80000001, 0xFFFFFFFF] := by decide

/-! ### The shuffle (43_shuffle.md, 95_test_vectors.md 2.4) -/

/-- 43_shuffle.md R123: the worked example. -/
theorem test_shuffle8 :
    readBytes (ran (issue (placed starStar 0x3000 [0xA0, 0xA1, 0xA2, 0xA3]) 0x006 0 0x3000 4)).mem 0x3000 4 =
      [0xA1, 0xA2, 0xA3, 0xA0] ∧
    (ran (issue (placed starStar 0x3000 [0xA0, 0xA1, 0xA2, 0xA3]) 0x006 0 0x3000 4)).status = 0x00000032#32 := by
  decide

/-- 95_test_vectors.md P3: the same permutation of 16-bit elements. -/
theorem test_shuffle16 :
    readBytes (ran (issue (placed starStar 0x3100 [0x10, 0x00, 0x20, 0x00, 0x30, 0x00, 0x40, 0x00])
      0x106 0 0x3100 4)).mem 0x3100 8 = [0x20, 0x00, 0x30, 0x00, 0x40, 0x00, 0x10, 0x00] := by decide

/-- 95_test_vectors.md 2.4.1: the 512++ row of five elements, on 32-bit lanes. -/
theorem test_shuffle32 :
    readBytes (ran (issue (placed plusPlus512 0x3000
      [0, 0, 0, 0, 0, 0, 0, 1, 0, 0, 0, 2, 0, 0, 0, 3, 0, 0, 0, 4]) 0x206 0 0x3000 5)).mem 0x3000 20 =
      [0, 0, 0, 0, 0, 0, 0, 3, 0, 0, 0, 4, 0, 0, 0, 2, 0, 0, 0, 1] := by decide

/-- 95_test_vectors.md 2.4.3: the range check of SHUFFLE.64, for one element and for none. -/
theorem test_shuffle64 :
    (ran (issue starStar 0x306 0 0xFFFFFFFC 1)).status = 0x00000626#32 ∧
    (ran (issue starStar 0x306 0 0xFFFFFFFC 1)).faultAddr = 0xFFFFFFFC#32 ∧
    (ran (issue starStar 0x306 0 0xFFFFFFFC 0)).status = 0x00000022#32 := by decide

/-- 95_test_vectors.md 2.4.3, 43_shuffle.md R124, R125: a bus error of the second write of the first step; element 0
holds element 3, which may hold anything, the two between are as they were, and the step's draw is made. -/
theorem test_shuffle_bus :
    ((ran (shuffleMeeting (.access 0x3003 1 .write))).status, (ran (shuffleMeeting (.access 0x3003 1 .write))).faultAddr,
      (ran (shuffleMeeting (.access 0x3003 1 .write))).shLen, (ran (shuffleMeeting (.access 0x3003 1 .write))).adv) =
      (0x00000716#32, 0x3003#32, 4#32, 1#64) ∧
    readBytes (ran (shuffleMeeting (.access 0x3003 1 .write))).mem 0x3000 3 = [0xA3, 0xA1, 0xA2] := by decide

/-- 43_shuffle.md R120: `SH_LEN` is loaded, nothing is drawn. -/
theorem test_shufInit :
    (ran (issue plusPlus512 0x7 0 0 3)).status = 0x00000002#32 ∧ (ran (issue plusPlus512 0x7 0 0 3)).adv = 0#64 := by
  decide

/-- 43_shuffle.md R121: the first step of the worked example. -/
theorem test_shufStep :
    ((ran (issue { plusPlus512 with shLen := 3 } 0x8 0 0 0)).out, (ran (issue { plusPlus512 with shLen := 3 } 0x8 0 0 0)).outJ,
      (ran (issue { plusPlus512 with shLen := 3 } 0x8 0 0 0)).shLen,
      (ran (issue { plusPlus512 with shLen := 3 } 0x8 0 0 0)).status) = (2#32, 2#32, 2#32, 0x00000002#32) := by
  decide

/-- 95_test_vectors.md 2.4.2: a step of a finished sequence. -/
theorem test_shufStep_finished :
    (ran (issue { plusPlus512 with shLen := 1, swp := true } 0x8 0 0 0)).status = 0x00000022#32 := by decide

/-! ### Errors, interrupt, registers, reset -/

/-- 95_test_vectors.md 2.5.1: the first error in order. -/
theorem test_precedence :
    (ran (issue State.reset 0x13 0 0 0)).status = 0x00000526#32 ∧
    (ran (issue State.reset 0x31 0 0 31)).status = 0x00000126#32 ∧
    (ran (issue State.reset 0x01 0 0xFFFFFFF0 31)).err = some .insufficientSeed ∧
    (ran (issue State.reset 0x01 0 0xFFFFFFF0 32)).err = some .range ∧
    (ran (issue State.reset 0x406 0 0 0)).err = some .noHandle ∧
    (ran (issue starStar 0x406 0 0 0)).status = 0x00000326#32 := by decide

/-- 95_test_vectors.md 2.5.4: the line follows `IE` and `DONE`. -/
theorem test_irq :
    (ran (issue { State.reset with ie := true } 0x0 0 0 0)).irq = true ∧
    (ran { ran (issue { State.reset with ie := true } 0x0 0 0 0) with script := [.write 0x08 4 0x2] }).irq = false ∧
    (ran (issue { State.reset with ie := true } 0x9 0 0 0)).irq = true := by decide

/-- 95_test_vectors.md 2.5.5: a `CMD` write while busy sets `OVR` and is dropped; the ROLL completes. -/
theorem test_overrun :
    (ran { issue starStar 0x3 7 0 0 with script := [.write 0x10 4 0x0] }).lat = (issue starStar 0x3 7 0 0).lat ∧
    (ran (ran { issue starStar 0x3 7 0 0 with script := [.write 0x10 4 0x0] })).status = 0x0000002A#32 := by
  decide

/-- 95_test_vectors.md 2.5.6: the registers after reset, as the host reads them. -/
theorem test_reset_reads :
    (ran { State.reset with script := [.read 0x08 4] }).seen = [.reg 0x08 0x00000020] ∧
    (ran { State.reset with script := [.read 0x00 4] }).seen = [.reg 0x00 0x584F5348] ∧
    (ran { starStar with script := [.reset] }).handle = 0#32 := by decide

/-- 10_state.md R22, R23: `CMD` and the last reserved offset read 0. -/
theorem test_reserved_reads :
    (ran { starStar with script := [.read 0x10 4] }).seen = [.reg 0x10 0] ∧
    (ran { starStar with script := [.read 0xFC 4] }).seen = [.reg 0xFC 0] := by decide

/-- 20_memory.md R54: the host's little-endian bytes make the big-endian word. -/
theorem test_mixed_width : be64 [0x08, 0x07, 0x06, 0x05, 0x04, 0x03, 0x02, 0x01] = 0x0807060504030201#64 := by decide

/-! ### Witnesses: the hypotheses of each statement, met together -/

/-- The latched command of `issue`. -/
theorem issue_lat (s : State) (word argK addr len : Word32) :
    (issue s word argK addr len).lat = some ⟨word, argK, addr, len⟩ := rfl

/-- RejectedWordsCompleteWithTheirError, first clause, at the edges of its four ranges. -/
theorem witness_illegalWords :
    ∀ c ∈ [0x00001000#32, 0x80000000#32, 0x9#32, 0xF#32, 0x13#32, 0xF0#32, 0x102#32, 0xF01#32],
      (issue starStar c 0 0 0).lat = some ⟨c, 0, 0, 0⟩ ∧ (issue starStar c 0 0 0).script = [] ∧
      (c.extractLsb' 12 20 ≠ 0#20 ∨ 9 ≤ (c.extractLsb' 0 4).toNat ∨
        (c.extractLsb' 0 4 ≠ 1#4 ∧ c.extractLsb' 4 4 ≠ 0#4) ∨
        (c.extractLsb' 0 4 ≠ 6#4 ∧ c.extractLsb' 8 4 ≠ 0#4)) := by
  intro c hc
  refine ⟨rfl, rfl, ?_⟩
  fin_cases hc <;> simp

/-- RejectedWordsCompleteWithTheirError, second and third clause, with and without a handle. -/
theorem witness_reservedWords :
    (issue State.reset 0x31 0 0 0).lat = some ⟨0x31, 0, 0, 0⟩ ∧ (issue State.reset 0xF1 0 0 0).script = [] ∧
    (issue State.reset 0x406 0 0 0).ctx = none ∧ (issue starStar 0xF06 0 0 0).ctx ≠ none ∧
    (issue starStar 0xF06 0 0 0).lat = some ⟨0xF06, 0, 0, 0⟩ := by decide

/-- RejectedWordsCompleteWithTheirError: the other two turns of the engine. -/
theorem witness_rejectedTurns :
    { issue starStar 0x9 0 0 0 with script := [.engine] }.script = .engine :: [] ∧
    { issue starStar 0x31 0 0 0 with script := [.wait] }.script = .wait :: [] ∧
    { issue starStar 0x31 0 0 0 with script := [.wait] }.lat = some ⟨0x31, 0, 0, 0⟩ := by decide

/-- 30_encoding.md R77, 60_exceptions.md R133: a reserved lane width completes so also while the host waits, and the wait
is kept. -/
theorem test_rejected_while_waiting :
    (ran { issue State.reset 0x406 0 0 0 with script := [.wait] }).status = 0x00000426#32 ∧
    (ran { issue starStar 0x406 0 0 0 with script := [.wait] }).status = 0x00000326#32 ∧
    (ran { issue starStar 0x406 0 0 0 with script := [.wait] }).script = [.wait] := by decide

/-- StepRunsTheDecodedCommand, its clause for an idle engine. -/
theorem witness_idleTurn :
    starStar.lat = none ∧ starStar.script = [] ∧ { starStar with script := [.engine] }.script = .engine :: [] ∧
    { starStar with script := [.wait] }.script = .wait :: [] := by decide

/-- StepRunsTheDecodedCommand: a busy engine, under each of the three scripts. -/
theorem witness_stepRuns :
    (issue starStar 0x3 7 0 0).lat = some ⟨0x3, 7, 0, 0⟩ ∧ decode 0x3#32 = .ok .roll ∧
    (issue starStar 0x3 7 0 0).script = [] ∧
    { issue starStar 0x3 7 0 0 with script := [.engine] }.script = .engine :: [] ∧
    { issue starStar 0x3 7 0 0 with script := [.wait] }.script = .wait :: [] := by decide

/-- CommandWriteIsAcceptedOrRejected: each register, with the engine idle and busy. -/
theorem witness_commandWrite :
    { starStar with script := [.write 0x10 4 5] }.script = .write 0x10#8 4 5 :: [] ∧
    { issue starStar 0x3 7 0 0 with script := [.write 0x10 4 5] }.lat.isSome = true ∧
    { starStar with script := [.write 0x14 4 5] }.script = .write 0x14#8 4 5 :: [] ∧
    { starStar with script := [.write 0x18 4 5] }.script = .write 0x18#8 4 5 :: [] ∧
    { issue starStar 0x3 7 0 0 with script := [.write 0x1C 4 5] }.script = .write 0x1C#8 4 5 :: [] := by decide

/-- RegisterWritesReachTheWritableFields: writable, read-only and reserved offsets, the first and the last. -/
theorem witness_registerWrites :
    ∀ off ∈ [0x00#8, 0x04#8, 0x08#8, 0x0C#8, 0x14#8, 0x18#8, 0x1C#8, 0x34#8, 0x38#8, 0xFC#8],
      { starStar with script := [.write off 4 0xFFFFFFFF] }.script = .write off 4 0xFFFFFFFF :: [] ∧
      off.toNat % 4 = 0 ∧ off ≠ 0x10#8 := by decide

/-- IdleReadsReturnTheRegisters: every register, and the first and the last reserved offset. -/
theorem witness_idleReads :
    ∀ off ∈ [0x00#8, 0x04#8, 0x08#8, 0x0C#8, 0x10#8, 0x14#8, 0x18#8, 0x1C#8, 0x20#8, 0x24#8, 0x28#8, 0x2C#8, 0x30#8,
        0x34#8, 0x38#8, 0xFC#8],
      { starStar with script := [.read off 4] }.script = .read off 4 :: [] ∧ off.toNat % 4 = 0 ∧
      { starStar with script := [.read off 4] }.lat = none := by decide

/-- BusyReadsAreDefinedOrFree: a register of each clause, and a result register. -/
theorem witness_busyReads :
    ∀ off ∈ [0x08#8, 0x00#8, 0x04#8, 0x10#8, 0x14#8, 0x18#8, 0x1C#8, 0x20#8, 0x38#8, 0xFC#8],
      { issue starStar 0x3 7 0 0 with script := [.read off 4] }.lat = some ⟨0x3, 7, 0, 0⟩ ∧
      { issue starStar 0x3 7 0 0 with script := [.read off 4] }.script = .read off 4 :: [] ∧
      off.toNat % 4 = 0 := by decide

/-- HandleFieldsStandWhereTheLayoutSays: no handle, and a handle of each family. -/
theorem witness_handle :
    State.reset.ctx = none ∧ starStar.ctx = some (.c256 .starStar s1234) ∧
    plusPlus512.ctx = some (.c512 .plusPlus s12345678) := by decide

/-- IdAlwaysReadsItsConstant: an idle and a busy engine. -/
theorem witness_id :
    { State.reset with script := [.read 0x00 4] }.script = .read 0x00#8 4 :: [] ∧
    { issue starStar 0x3 7 0 0 with script := [.read 0x00 4] }.script = .read 0x00#8 4 :: [] := by decide

/-- UnalignedRegisterAccessIsRefused: a wrong width at offset 0, and the last offset, which is not aligned. -/
theorem witness_unaligned :
    ((2 ≠ 4 ∨ (0x00#8).toNat % 4 ≠ 0) ∧ { starStar with script := [.read 0x00 2] }.script = .read 0x00#8 2 :: []) ∧
    ((4 ≠ 4 ∨ (0xFF#8).toNat % 4 ≠ 0) ∧
      { starStar with script := [.write 0xFF 4 1] }.script = .write 0xFF#8 4 1 :: []) := by decide

/-- HostAccessToTheBusyRangeIsRefused: the first and the last byte of the range of each kind of command. -/
theorem witness_busyRange :
    ((issue State.reset 0x01 0 0x1000 32).lat = some ⟨0x01, 0, 0x1000, 32⟩ ∧ decode 0x01#32 = .ok .create256p ∧
      createAlg .create256p = some ⟨.f256, .plus⟩ ∧ 32 = (⟨.f256, .plus⟩ : Alg).wc * 8 ∧
      (0x1000#32).toNat ≤ (0x101F#32).toNat ∧ (0x101F#32).toNat < (0x1000#32).toNat + 32) ∧
    (decode 0x04#32 = .ok .getState ∧ (issue plusPlus512 0x04 0 0x2000 0).ctx = some (.c512 .plusPlus s12345678) ∧
      64 = (Ctx.c512 .plusPlus s12345678).alg.wc * 8 ∧ (0x203F#32).toNat < (0x2000#32).toNat + 64) ∧
    (decode 0x306#32 = .ok .shuffle64 ∧ shuffleWidth .shuffle64 = some 8 ∧ 16 = (2#32).toNat * 8 ∧
      (0x300F#32).toNat < (0x3000#32).toNat + 16) := by decide

/-- HostMemoryAccessIsThatOfPlainMemory: an idle engine, the bytes on either side of a busy command's range, and busy
commands for which R64 states no range (log entry 22). -/
theorem witness_hostMemory :
    (memWf (placed starStar 0x3000 [7]).mem = true ∧ inRange (placed starStar 0x3000 [7]).busyRange 0x3000 = false ∧
      (placed starStar 0x3000 [7]).coversDevice 0x3000 1 = false) ∧
    inRange (issue starStar 0x4 0 0x2000 0).busyRange 0x1FFF = false ∧
    inRange (issue starStar 0x4 0 0x2000 0).busyRange 0x2020 = false ∧
    inRange (issue starStar 0x4 0 0x2000 0).busyRange 0x2000 = true ∧
    (issue State.reset 0x4 0 0x2000 0).busyRange = none ∧ (issue State.reset 0x5 0 0x2000 32).busyRange = none ∧
    (issue starStar 0x406 0 0x2000 4).busyRange = none ∧ (issue starStar 0xF 0 0x2000 0).busyRange = none := by decide

/-- CommandsOverADeviceAreRefused: one device byte at the end of the range of a command of each kind. -/
theorem witness_device :
    ({ State.reset with devices := [⟨0x101F, 1⟩] } : State).coversDevice 0x1000 32 = true ∧
    32 = (⟨.f256, .plus⟩ : Alg).wc * 8 ∧ 32 ≤ (32#32).toNat ∧ (0x1000#32).toNat + 32 ≤ 4294967296 ∧
    ({ starStar with devices := [⟨0x101F, 1⟩] } : State).ctx = some (.c256 .starStar s1234) ∧
    ({ starStar with devices := [⟨0x3001, 1⟩] } : State).coversDevice 0x3000 ((2#32).toNat * 1) = true ∧
    shuffleWidth .shuffle8 = some 1 ∧ 2 ≤ (2#32).toNat := by decide

/-- InterruptFollowsDoneAndEnable: a step that goes on, for each of its clauses. -/
theorem witness_interrupt :
    (wentOn (step (issue starStar 0x0 0 0 0)) = true ∧ (issue starStar 0x0 0 0 0).script = [] ∧
      (ran (issue starStar 0x0 0 0 0)).lat = none) ∧
    wentOn (step { starStar with script := [.write 0x10 4 0] }) = true ∧
    wentOn (step { issue starStar 0x0 0 0 0 with script := [.write 0x10 4 0] }) = true ∧
    wentOn (step { starStar with script := [.write 0x08 4 2] }) = true ∧
    wentOn (step { starStar with script := [.write 0x04 4 0] }) = true ∧
    wentOn (step { starStar with script := [.reset] }) = true := by decide

/-- ResetGivesEveryRegisterItsResetValue, and its clause for an idle engine. -/
theorem witness_reset :
    { starStar with script := [.reset] }.script = .reset :: [] ∧
    { starStar with script := [.reset] }.lat = none := by decide

/-- ResetWhileBusyKeepsTheRestOfMemory, its clause for a word that is no legal command. -/
theorem witness_resetRejected :
    { issue starStar 0x406 0 0x2000 4 with script := [.reset] }.lat = some ⟨0x406, 0, 0x2000, 4⟩ ∧
    decode 0x406#32 = .error .reservedWidth ∧ decode 0x9#32 = .error .illegalCommand := by decide

/-- ResetWhileBusyKeepsTheRestOfMemory: a command of each clause, and bytes on either side of its range. -/
theorem witness_resetBusy :
    (issue starStar 0x4 0 0x2000 0).lat = some ⟨0x4, 0, 0x2000, 0⟩ ∧ decode 0x4#32 = .ok .getState ∧
    { issue starStar 0x4 0 0x2000 0 with script := [.reset] }.script = .reset :: [] ∧
    0x1FFF < (0x2000#32).toNat ∧ (0x2000#32).toNat + (Ctx.c256 .starStar s1234).alg.wc * 8 ≤ 0x2020 ∧
    decode 0x3#32 = .ok .roll ∧ Instr.roll ≠ .getState ∧ shuffleWidth .roll = none ∧
    decode 0x306#32 = .ok .shuffle64 ∧ shuffleWidth .shuffle64 = some 8 :=
  ⟨by decide, by decide, by decide, by decide, Nat.le_refl 0x2020, by decide, by decide, by decide, by decide, by decide⟩

/-- ZeroStateIsAFixedPoint: the all-zero state of each family. -/
theorem witness_zeroState :
    (∀ w ∈ (Ctx.c256 .plus ⟨0, 0, 0, 0⟩).words, w = 0#64) ∧
    (∀ w ∈ (Ctx.c512 .plus ⟨0, 0, 0, 0, 0, 0, 0, 0⟩).words, w = 0#64) := by simp [Ctx.words]

/-- VariantsOfAFamilyPassThroughTheSameStates: two variants of one family at one state. -/
theorem witness_variants :
    (Ctx.c256 .plus s1234).alg.family = (Ctx.c256 .starStar s1234).alg.family ∧
    (Ctx.c256 .plus s1234).words = (Ctx.c256 .starStar s1234).words := by decide

/-- RollBoundIsTheLargestMultiple: the edges of its clauses. -/
theorem witness_rollBound :
    1#32 ≠ 0#32 ∧ (1#32).toNat = 2 ^ 0 ∧ (0x80000000#32).toNat = 2 ^ 31 ∧ 2147483648 < (0x80000001#32).toNat ∧
    (3#32).toNat ∣ 4294967295 := by decide

/-- The first draw accepted is the first (42_sampler.md R115). -/
theorem witness_first_draw : firstAccepted 7 ⟨.c256 .starStar s1234, 0⟩ 0 :=
  ⟨fun m hm => absurd hm (Nat.not_lt_zero m), .inr (by decide)⟩

/-- RollCompletesAtItsFirstAcceptedDraw: the third draw (42_sampler.md R116); RollCompletesOrNeverAccepts has the same
state. -/
theorem witness_third_draw :
    (issue plusOnes 0x3 3 0 0).lat = some ⟨0x3, 3, 0, 0⟩ ∧
    (issue plusOnes 0x3 3 0 0).ctx = some (.c256 .plus ⟨0xFFFFFFFF, 0, 0, 0⟩) ∧
    firstAccepted 3 ⟨.c256 .plus ⟨0xFFFFFFFF, 0, 0, 0⟩, 0⟩ 2 := by
  refine ⟨rfl, rfl, fun m hm => ?_, .inr (by decide)⟩
  have h : m = 0 ∨ m = 1 := by omega
  rcases h with rfl | rfl <;> rintro (h | h) <;> revert h <;> decide

/-- RollCompletesOrNeverAccepts: the draws of two rejections run out, and a length of two. -/
theorem witness_fuel :
    rollLoop 2 3 ⟨.c256 .plus ⟨0xFFFFFFFF, 0, 0, 0⟩, 0⟩ = none ∧ (3#32 : Word32) ≠ 0#32 ∧
    2 ≤ (issue { starStar with shLen := 2 } 0x8 0 0 0).shLen.toNat := by decide

/-- RollResultsLieBelowTheBound: a next state for each of its clauses, at the edges of their ranges. -/
theorem witness_rollResults :
    (∀ k ∈ [1#32, 2#32, 7#32, 0x80000000#32, 0xFFFFFFFF#32],
      wentOn (exec .roll (issue starStar 0x3 k 0 0)) = true ∧
      (goesTo starStar (exec .roll (issue starStar 0x3 k 0 0))).lat = none ∧ k ≠ 0#32) ∧
    (1#32).toNat = 2 ^ 0 ∧ (0x80000000#32).toNat = 2 ^ 31 ∧ 2147483648 < (0xFFFFFFFF#32).toNat := by
  refine ⟨fun k hk => ⟨?_, ?_, ?_⟩, by decide, by decide, by simp⟩ <;> fin_cases hk <;> decide

/-- CommandsThatNeedAHandleReportItsAbsence, and the clauses without a handle of RollCompletesAtItsFirstAcceptedDraw,
ReleaseEndsTheHandle, ShufInitLoadsTheLength and ShufStepReportsItsSwap. -/
theorem witness_noHandle : State.reset.ctx = none := rfl

/-- CreateMakesTheContextOfItsSeed: the shortest seed of each family, at the top of the memory space. -/
theorem witness_create :
    (createAlg .create256p = some ⟨.f256, .plus⟩ ∧ (⟨.f256, .plus⟩ : Alg).wc * 8 ≤ (32#32).toNat ∧
      (0xFFFFFFE0#32).toNat + (⟨.f256, .plus⟩ : Alg).wc * 8 ≤ 4294967296 ∧
      (issue starStar 0x1 0 0xFFFFFFE0 32).coversDevice 0xFFFFFFE0 32 = false ∧
      ∀ j, j < 4 → (issue starStar 0x1 0 0xFFFFFFE0 32).memOk (0xFFFFFFE0 + 8 * j) 8 .read = true) ∧
    (createAlg .create512ss = some ⟨.f512, .starStar⟩ ∧ (⟨.f512, .starStar⟩ : Alg).wc * 8 ≤ (64#32).toNat ∧
      (0xFFFFFFC0#32).toNat + (⟨.f512, .starStar⟩ : Alg).wc * 8 ≤ 4294967296) := by decide

/-- FailedCreateLeavesTheOldHandle, SetStateOverwritesTheStateWords and FailedSetStateLeavesTheState: a length one
short, an address one too high, and a bus error at the last word. -/
theorem witness_failedCreate :
    (31#32).toNat < (⟨.f256, .plus⟩ : Alg).wc * 8 ∧ (63#32).toNat < (⟨.f512, .plus⟩ : Alg).wc * 8 ∧
    4294967296 < (0xFFFFFFE1#32).toNat + (⟨.f256, .plus⟩ : Alg).wc * 8 ∧
    (∀ m, m < 3 → ({ starStar with busErrors := [.access 0x1018 8 .read] } : State).memOk (0x1000 + 8 * m) 8 .read =
      true) ∧
    ({ starStar with busErrors := [.access 0x1018 8 .read] } : State).memOk (0x1000 + 8 * 3) 8 .read = false ∧
    starStar.ctx = some (.c256 .starStar s1234) ∧ (Ctx.c256 .starStar s1234).alg.wc * 8 ≤ (32#32).toNat := by decide

/-- ReleaseEndsTheHandle, ShufInitLoadsTheLength: with a handle and without. -/
theorem witness_release :
    starStar.ctx = some (.c256 .starStar s1234) ∧ State.reset.ctx = none ∧
    (issue starStar 0x7 0 0 3).lat = some ⟨0x7, 0, 0, 3⟩ := by decide

/-- GetStateWritesTheStateImage and GetStateBusErrorLeavesTheEarlierWords: the top of the memory space, and a bus
error at the third word (95_test_vectors.md 2.5.3). -/
theorem witness_getState :
    (memWf (issue starStar 0x4 0 0xFFFFFFE0 0).mem = true ∧
      (0xFFFFFFE0#32).toNat + (Ctx.c256 .starStar s1234).alg.wc * 8 ≤ 4294967296 ∧
      (issue starStar 0x4 0 0xFFFFFFE0 0).coversDevice 0xFFFFFFE0 32 = false ∧
      ∀ j, j < 4 → (issue starStar 0x4 0 0xFFFFFFE0 0).memOk (0xFFFFFFE0 + 8 * j) 8 .write = true) ∧
    ((∀ m, m < 2 → ({ starStar with busErrors := [.access 0x2010 8 .write] } : State).memOk (0x2000 + 8 * m) 8 .write =
      true) ∧
      ({ starStar with busErrors := [.access 0x2010 8 .write] } : State).memOk (0x2000 + 8 * 2) 8 .write = false ∧
      2 < (Ctx.c256 .starStar s1234).alg.wc) := by decide

/-- RangePastTheTopIsReportedBeforeAnyEffect: the first address too high, for a command of each kind. -/
theorem witness_range :
    (32 = (⟨.f256, .plus⟩ : Alg).wc * 8 ∧ 32 ≤ (32#32).toNat ∧ 4294967296 < (0xFFFFFFE1#32).toNat + 32) ∧
    (starStar.ctx = some (.c256 .starStar s1234) ∧ 32 = (Ctx.c256 .starStar s1234).alg.wc * 8) ∧
    (shuffleWidth .shuffle64 = some 8 ∧ starStar.ctx ≠ none ∧ 4294967296 < (0xFFFFFFFC#32).toNat + (1#32).toNat * 8) := by
  decide

/-- StateImagesRoundTrip, first part: a CREATE and a GET_STATE that both succeed. -/
theorem witness_roundTrip_create :
    memWf (issue (placed State.reset 0x1000 seed1234) 0x1 0 0x1000 32).mem = true ∧
    wentOn (exec .create256p (issue (placed State.reset 0x1000 seed1234) 0x1 0 0x1000 32)) = true ∧
    (goesTo starStar (exec .create256p (issue (placed State.reset 0x1000 seed1234) 0x1 0 0x1000 32))).err = none ∧
    wentOn (exec .getState { goesTo starStar (exec .create256p (issue (placed State.reset 0x1000 seed1234)
      0x1 0 0x1000 32)) with lat := some ⟨0x4, 0, 0x2000, 0⟩ }) = true ∧
    (goesTo starStar (exec .getState { goesTo starStar (exec .create256p (issue (placed State.reset 0x1000 seed1234)
      0x1 0 0x1000 32)) with lat := some ⟨0x4, 0, 0x2000, 0⟩ })).err = none := by decide

/-- StateImagesRoundTrip, second part: a GET_STATE and a SET_STATE from what it wrote. -/
theorem witness_roundTrip_setState :
    wentOn (exec .getState (issue starStar 0x4 0 0x2000 0)) = true ∧
    (goesTo starStar (exec .getState (issue starStar 0x4 0 0x2000 0))).err = none ∧
    wentOn (exec .setState { goesTo starStar (exec .getState (issue starStar 0x4 0 0x2000 0)) with
      lat := some ⟨0x5, 0, 0x2000, 32⟩ }) = true ∧
    (goesTo starStar (exec .setState { goesTo starStar (exec .getState (issue starStar 0x4 0 0x2000 0)) with
      lat := some ⟨0x5, 0, 0x2000, 32⟩ })).err = none := by decide

/-- ShufStepReportsItsSwap: a length of one, and a length of two with its accepted draw. -/
theorem witness_shufStep :
    ({ starStar with shLen := 1 } : State).shLen.toNat < 2 ∧ 2 ≤ ({ starStar with shLen := 2 } : State).shLen.toNat ∧
    firstAccepted ({ starStar with shLen := 2 } : State).shLen ⟨.c256 .starStar s1234, 0⟩ 0 :=
  ⟨by decide, by decide, fun m hm => absurd hm (Nat.not_lt_zero m), .inr (by decide)⟩

/-- ShortShuffleDrawsNothing: one element at the last byte of the memory space. -/
theorem witness_shortShuffle :
    (issue starStar 0x6 0 0xFFFFFFFF 1).lat = some ⟨0x6, 0, 0xFFFFFFFF, 1⟩ ∧ shuffleWidth .shuffle8 = some 1 ∧
    (1#32).toNat < 2 ∧ (0xFFFFFFFF#32).toNat + (1#32).toNat * 1 ≤ 4294967296 := by decide

/-- ShuffleIsFisherYatesOnItsElements: two elements at the top of the memory space. -/
theorem witness_shuffle :
    (issue (placed starStar 0xFFFFFFFE [1, 2]) 0x6 0 0xFFFFFFFE 2).lat = some ⟨0x6, 0, 0xFFFFFFFE, 2⟩ ∧
    memWf (issue (placed starStar 0xFFFFFFFE [1, 2]) 0x6 0 0xFFFFFFFE 2).mem = true ∧
    (0xFFFFFFFE#32).toNat + (2#32).toNat * 1 ≤ 4294967296 ∧
    (issue (placed starStar 0xFFFFFFFE [1, 2]) 0x6 0 0xFFFFFFFE 2).coversDevice 0xFFFFFFFE 2 = false ∧
    (∀ m d, m < (2#32).toNat →
      (issue (placed starStar 0xFFFFFFFE [1, 2]) 0x6 0 0xFFFFFFFE 2).memOk (0xFFFFFFFE + m * 1) 1 d = true) ∧
    shuffled 2 (min 2 1) ⟨.c256 .starStar s1234, 0⟩
      (elements (issue (placed starStar 0xFFFFFFFE [1, 2]) 0x6 0 0xFFFFFFFE 2).mem 0xFFFFFFFE 1 2)
      (Gen.after 1 ⟨.c256 .starStar s1234, 0⟩) [[2], [1]] := by
  refine ⟨rfl, by decide, by decide, by decide, fun m d _ => rfl, ?_⟩
  refine .step 2 1 0 _ _ _ _ (by decide) ⟨fun m hm => absurd hm (Nat.not_lt_zero m), .inr (by decide)⟩ ?_
  have h : exchange (elements (issue (placed starStar 0xFFFFFFFE [1, 2]) 0x6 0 0xFFFFFFFE 2).mem 0xFFFFFFFE 1 2)
      (sample (BitVec.ofNat 32 2) (Gen.after 0 ⟨.c256 .starStar s1234, 0⟩)).toNat (2 - 1) = [[2], [1]] := by decide
  rw [h]
  exact .done 1 _ _

/-- ShuffleBusErrorShowsItsStep, ErrorsAreReportedInTheirRegisters (BUS), ShuffleFrame: a bus error at each of the four
accesses of the first step (43_shuffle.md R124). -/
theorem witness_shuffleBus :
    ∀ e ∈ [BusError.access 0x3000 1 .read, .access 0x3003 1 .read, .access 0x3000 1 .write, .access 0x3003 1 .write],
      (shuffleMeeting e).lat = some ⟨0x6, 0, 0x3000, 4⟩ ∧ memWf (shuffleMeeting e).mem = true ∧
      (shuffleMeeting e).ctx = some (.c256 .starStar s1234) ∧ wentOn (exec .shuffle8 (shuffleMeeting e)) = true ∧
      (ran (shuffleMeeting e)).lat = none ∧ (ran (shuffleMeeting e)).err = some .bus := by decide

/-- ErrorsAreReportedInTheirRegisters: BUS of CREATE, of SET_STATE and of GET_STATE. -/
theorem witness_wordBus :
    (ran (issue { starStar with busErrors := [.access 0x1008 8 .read] } 0x61 0 0x1000 64)).err = some .bus ∧
    (ran (issue { starStar with busErrors := [.access 0x1008 8 .read] } 0x5 0 0x1000 32)).err = some .bus ∧
    (ran (issue { starStar with busErrors := [.access 0x1008 8 .write] } 0x4 0 0x1000 0)).err = some .bus := by decide

/-- ShufflesOfTwoWidthsDrawAlike: SHUFFLE.8 and SHUFFLE.16 of two elements. -/
theorem witness_twoWidths :
    (issue starStar 0x6 0 0x3000 2).ctx = (issue starStar 0x106 0 0x4000 2).ctx ∧
    wentOn (exec .shuffle8 (issue starStar 0x6 0 0x3000 2)) = true ∧
    wentOn (exec .shuffle16 (issue starStar 0x106 0 0x4000 2)) = true ∧
    (goesTo starStar (exec .shuffle8 (issue starStar 0x6 0 0x3000 2))).lat = none ∧
    (goesTo starStar (exec .shuffle16 (issue starStar 0x106 0 0x4000 2))).lat = none ∧
    (goesTo starStar (exec .shuffle8 (issue starStar 0x6 0 0x3000 2))).err = none ∧
    (goesTo starStar (exec .shuffle16 (issue starStar 0x106 0 0x4000 2))).err = none := by decide

/-- ErrorsAreReportedInTheirRegisters (RANGE, and an error with no address) and ErrorsArePrecise. -/
theorem witness_errors :
    wentOn (exec .getState (issue starStar 0x4 0 0xFFFFFFE1 0)) = true ∧
    (goesTo starStar (exec .getState (issue starStar 0x4 0 0xFFFFFFE1 0))).lat = none ∧
    (goesTo starStar (exec .getState (issue starStar 0x4 0 0xFFFFFFE1 0))).err = some .range ∧
    (goesTo starStar (exec .roll (issue State.reset 0x3 0 0 0))).lat = none ∧
    (goesTo starStar (exec .roll (issue State.reset 0x3 0 0 0))).err = some .noHandle ∧
    (goesTo starStar (exec .setState (issue { starStar with busErrors := [.region 0 1 .read] } 0x5 0 0 32))).err =
      some .bus := by decide

/-- OnlyTheseEventsWriteTheContext: a reset and a RELEASE; NoStepChangesThePlatform has the same steps. -/
theorem witness_contextWrites :
    wentOn (step { starStar with script := [.reset] }) = true ∧
    (ran { starStar with script := [.reset] }).ctx ≠ starStar.ctx ∧
    wentOn (step (issue starStar 0x2 0 0 0)) = true ∧ (ran (issue starStar 0x2 0 0 0)).ctx ≠ starStar.ctx := by decide

/-- EngineTurnNeverStopsTheMachine: no device, under each script. -/
theorem witness_engineTurn :
    (issue starStar 0x9 0 0 0).devices = [] ∧ (issue starStar 0x9 0 0 0).script = [] ∧
    { issue starStar 0x9 0 0 0 with script := [.engine] }.script = .engine :: [] ∧
    { starStar with script := [.wait] }.script = .wait :: [] := by decide

/-- EveryStepKeepsTheInvariant: a busy engine with bytes in memory, and its step. -/
theorem witness_invariant :
    (issue (placed starStar 0x3000 [1, 2]) 0x6 0 0x3000 2).inv = true ∧
    wentOn (step (issue (placed starStar 0x3000 [1, 2]) 0x6 0 0x3000 2)) = true := by decide

/-- CanonicalMemoryIsItsBytes. -/
theorem witness_canonical :
    memWf [(5, 1#8)] = true ∧ memWf (writeByte [] 5 1#8) = true ∧
    ∀ x, readByte [(5, 1#8)] x = readByte (writeByte [] 5 1#8) x :=
  ⟨by decide, by decide, fun _ => rfl⟩

/-- RegisterOnlyCommandsFrame: a next state of each of the five. -/
theorem witness_registerFrame :
    ∀ i ∈ [Instr.nop, .release, .roll, .shufInit, .shufStep],
      wentOn (exec i (issue { starStar with shLen := 2 } 0 7 0 3)) = true := by decide

/-- CreateAndSetStateFrame: a next state of each of the seven, with success. -/
theorem witness_createFrame :
    ∀ i ∈ [Instr.setState, .create256p, .create256pp, .create256ss, .create512p, .create512pp, .create512ss],
      (i = .setState ∨ (createAlg i).isSome = true) ∧ wentOn (exec i (issue starStar 0 0 0x1000 64)) = true ∧
      (goesTo starStar (exec i (issue starStar 0 0 0x1000 64))).err = none := by decide

/-- GetStateFrame: a next state, with success. -/
theorem witness_getStateFrame :
    wentOn (exec .getState (issue starStar 0x4 0 0x2000 0)) = true ∧
    (goesTo starStar (exec .getState (issue starStar 0x4 0 0x2000 0))).err = none := by decide

/-- ShuffleFrame: a next state of each of the four, with success. -/
theorem witness_shuffleFrame :
    ∀ i ∈ [Instr.shuffle8, .shuffle16, .shuffle32, .shuffle64],
      (shuffleWidth i).isSome = true ∧ wentOn (exec i (issue starStar 0 0 0x3000 2)) = true ∧
      (goesTo starStar (exec i (issue starStar 0 0 0x3000 2))).err = none := by decide

end Sys2Proof.Tests
end

section
/-! PROOFS. What the host's register accesses leave unchanged, and that no step changes the platform
(00_scope.md R6). -/

namespace Sys2Proof.Machine

/-! ### The frames of the host's register accesses -/

/-- A register read writes only the host's record and the count of free values (10_state.md R23). -/
theorem State.hostRead_frame (s : State) (off : BitVec 8) :
    s.hostRead off = { s with seen := (s.hostRead off).seen, fresh := (s.hostRead off).fresh } := by
  unfold State.hostRead
  split
  · rfl
  · split <;> rfl

/-- A `CMD` write sets `OVR`, or latches the command and clears the last completion (10_state.md R28, R43). -/
theorem State.writeCmd_frame (s : State) (c : Word32) :
    s.writeCmd c = { s with
      done := (s.writeCmd c).done, ovr := (s.writeCmd c).ovr, err := (s.writeCmd c).err,
      lat := (s.writeCmd c).lat } := by
  unfold State.writeCmd
  split <;> rfl

/-- A register write reaches `CTRL`, `STATUS`, the latch and the argument registers only (10_state.md R23). -/
theorem State.hostWrite_frame (s : State) (off : BitVec 8) (v : Word32) :
    s.hostWrite off v = { s with
      ie := (s.hostWrite off v).ie, done := (s.hostWrite off v).done, ovr := (s.hostWrite off v).ovr,
      err := (s.hostWrite off v).err, lat := (s.hostWrite off v).lat, argK := (s.hostWrite off v).argK,
      addr := (s.hostWrite off v).addr, len := (s.hostWrite off v).len } := by
  unfold State.hostWrite
  split
  case h_3 => rw [State.writeCmd_frame]
  all_goals rfl

/-! ### The platform -/

/-- The platform of two states is the same: which accesses it answers (00_scope.md R6), and where its devices lie
(20_memory.md R48). -/
def samePlatform (s t : State) : Prop := t.busErrors = s.busErrors ∧ t.devices = s.devices

theorem samePlatform_refl (s : State) : samePlatform s s := ⟨rfl, rfl⟩

theorem samePlatform_hostRead (s : State) (off : BitVec 8) : samePlatform s (s.hostRead off) := by
  rw [State.hostRead_frame]
  exact ⟨rfl, rfl⟩

theorem samePlatform_hostWrite (s : State) (off : BitVec 8) (v : Word32) : samePlatform s (s.hostWrite off v) := by
  rw [State.hostWrite_frame]
  exact ⟨rfl, rfl⟩

/-- What commands write is no part of the platform. -/
theorem samePlatform_of_keepsRest {s u : State} (h : keepsRest s u) : samePlatform s u := by
  obtain ⟨hsame, -, -⟩ := h
  exact ⟨(congrArg State.busErrors hsame :), (congrArg State.devices hsame :)⟩

theorem samePlatform_engineTurn {s t : State} (h : engineTurn s = .next t) : samePlatform s t := by
  obtain rfl | ⟨-, u, hkeep, ht⟩ := engineTurn_next h
  · exact samePlatform_refl _
  · have hu : samePlatform s u := samePlatform_of_keepsRest hkeep
    obtain rfl | ⟨e, rfl⟩ := ht <;> exact hu

/-- Whoever's turn it is, the platform stays: taking a move from the script does not touch it, and neither does the
engine's turn, a host access or a reset. -/
theorem samePlatform_step {s t : State} (h : step s = .next t) : samePlatform s t := by
  obtain hturn | ⟨rest, -, hturn⟩ | ⟨rest, -, rfl⟩ | ⟨off, rest, -, rfl⟩ | ⟨off, v, rest, -, rfl⟩ |
    ⟨a, rest, -, rfl⟩ | ⟨a, b, rest, -, rfl⟩ | ⟨rest, -, rfl⟩ := step_cases h
  · exact samePlatform_engineTurn hturn
  · exact samePlatform_engineTurn (s := s.withScript rest) hturn
  · exact ⟨rfl, rfl⟩
  · exact samePlatform_hostRead (s.withScript rest) off
  · exact samePlatform_hostWrite (s.withScript rest) off v
  · exact ⟨rfl, rfl⟩
  · exact ⟨rfl, rfl⟩
  · exact ⟨rfl, rfl⟩

/-- Settles O51, by the cases of a step. -/
theorem noStepChangesThePlatform : Obligations.NoStepChangesThePlatform :=
  fun _ _ => samePlatform_step

end Sys2Proof.Machine
end

section
/-! PROOFS. What each register write does (10_state.md R23 to R31, R43), and that every step keeps the invariant:
memory canonical and in the memory space, and a busy engine free of completion and error (R41, R46). -/

namespace Sys2Proof.Machine

/-! ### Register writes -/

theorem State.hostWrite_cmd (s : State) (v : Word32) : s.hostWrite 0x10#8 v = s.writeCmd v := rfl

theorem State.hostWrite_argK (s : State) (v : Word32) : s.hostWrite 0x14#8 v = { s with argK := v } := rfl

theorem State.hostWrite_addr (s : State) (v : Word32) : s.hostWrite 0x18#8 v = { s with addr := v } := rfl

theorem State.hostWrite_len (s : State) (v : Word32) : s.hostWrite 0x1C#8 v = { s with len := v } := rfl

/-- A `CMD` write to a busy engine is rejected (60_exceptions.md R131). -/
theorem State.writeCmd_busy {s : State} (h : s.busy = true) (v : Word32) : s.writeCmd v = { s with ovr := true } :=
  if_pos h

/-- A `CMD` write to an idle engine is accepted (10_state.md R43). -/
theorem State.writeCmd_idle {s : State} (h : s.busy = false) (v : Word32) : s.writeCmd v = s.accept v := by
  simp [State.writeCmd, h]

/-- A register write that is not a command's reaches one field of the host's: `IE`, a W1C bit, or an argument
(10_state.md R23 to R31). -/
theorem State.hostWrite_of_ne_cmd (s : State) {off : BitVec 8} (v : Word32) (h : off ≠ 0x10#8) :
    s.hostWrite off v = { s with
      ie := if off = 0x04#8 then v.getLsbD 0 else s.ie
      done := if off = 0x08#8 then s.done && !v.getLsbD 1 else s.done
      ovr := if off = 0x08#8 then s.ovr && !v.getLsbD 3 else s.ovr
      argK := if off = 0x14#8 then v else s.argK
      addr := if off = 0x18#8 then v else s.addr
      len := if off = 0x1C#8 then v else s.len } := by
  unfold State.hostWrite
  split
  case h_3 => exact absurd rfl h
  case h_7 ctrl status _ argK addr len =>
    rw [if_neg ctrl, if_neg status, if_neg status, if_neg argK, if_neg addr, if_neg len]
  all_goals rfl

/-! ### The invariant -/

theorem State.inv_iff (s : State) :
    s.inv = true ↔
      memWf s.mem = true ∧ memInSpace s.mem = true ∧ (s.busy = true → s.done = false ∧ s.err = none) := by
  cases hb : s.busy <;> simp [State.inv, hb, and_assoc]

/-- An idle engine meets the invariant where its memory does. -/
theorem State.inv_of_idle {s : State} (hidle : s.busy = false) (hwf : memWf s.mem = true)
    (hspace : memInSpace s.mem = true) : s.inv = true :=
  (State.inv_iff s).2 ⟨hwf, hspace, by simp [hidle]⟩

/-- A command ends with the engine idle, and what commands write keeps memory in form. -/
theorem inv_engineTurn {s t : State} (hinv : s.inv = true) (h : engineTurn s = .next t) : t.inv = true := by
  obtain ⟨hwf, hspace, -⟩ := (State.inv_iff s).1 hinv
  obtain rfl | ⟨-, u, ⟨-, keepsWf, keepsSpace⟩, rfl | ⟨e, rfl⟩⟩ := engineTurn_next h
  · exact hinv
  · exact State.inv_of_idle rfl (keepsWf hwf) (keepsSpace hspace)
  · exact State.inv_of_idle rfl (keepsWf hwf) (keepsSpace hspace)

theorem inv_hostRead {s : State} (hinv : s.inv = true) (off : BitVec 8) : (s.hostRead off).inv = true := by
  rw [State.hostRead_frame]
  exact hinv

/-- An acceptance makes the engine busy and clears `DONE` and the error; a rejected `CMD` write touches neither. -/
theorem inv_writeCmd {s : State} (hinv : s.inv = true) (v : Word32) : (s.writeCmd v).inv = true := by
  obtain ⟨hwf, hspace, -⟩ := (State.inv_iff s).1 hinv
  cases hb : s.busy with
  | true =>
    rw [State.writeCmd_busy hb]
    exact hinv
  | false =>
    rw [State.writeCmd_idle hb]
    exact (State.inv_iff _).2 ⟨hwf, hspace, fun _ => ⟨rfl, rfl⟩⟩

/-- No register write but an acceptance makes the engine busy, and a write of `STATUS` only clears. -/
theorem inv_hostWrite {s : State} (hinv : s.inv = true) (off : BitVec 8) (v : Word32) :
    (s.hostWrite off v).inv = true := by
  by_cases hcmd : off = 0x10#8
  · subst hcmd
    exact inv_writeCmd hinv v
  · obtain ⟨hwf, hspace, hbusy⟩ := (State.inv_iff s).1 hinv
    rw [State.hostWrite_of_ne_cmd s v hcmd]
    refine (State.inv_iff _).2 ⟨hwf, hspace, fun hb => ?_⟩
    obtain ⟨hdone, herr⟩ := hbusy hb
    exact ⟨by simp [hdone], herr⟩

/-- A host's byte goes to an address of the memory space, since `ADDR` has 32 bits (20_memory.md R46). -/
theorem inv_store {s : State} (hinv : s.inv = true) (a : Word32) (b : Byte) :
    ({ s with mem := writeByte s.mem a.toNat b } : State).inv = true := by
  obtain ⟨hwf, hspace, hbusy⟩ := (State.inv_iff s).1 hinv
  exact (State.inv_iff _).2 ⟨memWf_writeByte hwf _ _, memInSpace_writeByte hspace a.isLt _, hbusy⟩

/-- Memory abandoned by a reset stays canonical and in the memory space: the free bytes are clipped at its top
(70_reset_and_hazards.md R145). -/
theorem State.abandon_mem {s : State} (hwf : memWf s.mem = true) (hspace : memInSpace s.mem = true) :
    memWf s.abandon.mem = true ∧ memInSpace s.abandon.mem = true := by
  unfold State.abandon
  split
  · exact ⟨hwf, hspace⟩
  · next base size _ =>
    refine ⟨State.scramble_wf hwf _ _, ?_⟩
    rcases Nat.le_total base Config.addressLimit with hle | hge
    · exact State.scramble_inSpace hspace (by omega)
    · rw [Nat.sub_eq_zero_of_le hge, Nat.min_zero]
      exact hspace

theorem inv_afterReset {s : State} (hinv : s.inv = true) : s.afterReset.inv = true := by
  obtain ⟨hwf, hspace, -⟩ := (State.inv_iff s).1 hinv
  obtain ⟨hwf', hspace'⟩ := State.abandon_mem hwf hspace
  exact State.inv_of_idle rfl hwf' hspace'

/-- Settles O53, by the cases of a step; taking a move from the script does not touch what the invariant speaks of. -/
theorem everyStepKeepsTheInvariant : Obligations.EveryStepKeepsTheInvariant := by
  intro s t hinv h
  have hscript : ∀ rest, (s.withScript rest).inv = true := fun _ => hinv
  obtain hturn | ⟨rest, -, hturn⟩ | ⟨rest, -, rfl⟩ | ⟨off, rest, -, rfl⟩ | ⟨off, v, rest, -, rfl⟩ |
    ⟨a, rest, -, rfl⟩ | ⟨a, b, rest, -, rfl⟩ | ⟨rest, -, rfl⟩ := step_cases h
  · exact inv_engineTurn hinv hturn
  · exact inv_engineTurn (hscript rest) hturn
  · exact hscript rest
  · exact inv_hostRead (hscript rest) off
  · exact inv_hostWrite (hscript rest) off v
  · exact hscript rest
  · exact inv_store (hscript rest) a b
  · exact inv_afterReset (hscript rest)

/-- Settles O54: no memory is listed and no command is latched. -/
theorem resetMeetsTheInvariant : Obligations.ResetMeetsTheInvariant :=
  State.inv_of_idle rfl rfl rfl

end Sys2Proof.Machine
end

section
/-! PROOFS. Whose turn a step is, and what the host's register accesses do there (10_state.md R15, R23, R27, R43, R45,
R131). -/

namespace Sys2Proof.Machine

/-! ### The engine's turn -/

/-- Settles O6, by the script's three turns of the engine. -/
theorem stepRunsTheDecodedCommand : Obligations.StepRunsTheDecodedCommand := by
  intro s rest
  constructor
  · intro l i hlat hdec
    have hbusy : s.busy = true := by simp [State.busy, hlat]
    have hrun : engineTurn s = exec i s := engineTurn_ok hlat hdec
    refine ⟨fun h => ?_, fun h => ?_, fun h => ?_⟩
    · rw [step_nil h, hrun]
    · rw [step_engine h]
      exact engineTurn_ok (s := s.withScript rest) hlat hdec
    · rw [step_wait_busy h hbusy, hrun]
  · intro hlat
    have hidle : s.busy = false := by simp [State.busy, hlat]
    refine ⟨fun h => ?_, fun h => ?_, fun h => ?_⟩
    · rw [step_nil h, engineTurn_idle hlat]
    · rw [step_engine h]
      exact engineTurn_idle (s := s.withScript rest) hlat
    · exact step_wait_idle h hidle

/-! ### Register writes -/

/-- Settles O8: an idle engine accepts the command and a busy one rejects it; the argument registers are not what was
latched. -/
theorem commandWriteIsAcceptedOrRejected : Obligations.CommandWriteIsAcceptedOrRejected := by
  intro s v rest
  refine ⟨fun h => ?_, fun h => ?_, fun h => ?_, fun h => ?_⟩ <;> rw [step_write h rfl]
  · rw [State.hostWrite_cmd]
    cases hlat : s.lat with
    | none =>
      rw [State.writeCmd_idle (by simp [State.busy, hlat])]
      rfl
    | some l =>
      rw [State.writeCmd_busy (by simp [State.busy, hlat])]
      simp [State.withScript, hlat]
  · rw [State.hostWrite_argK]; rfl
  · rw [State.hostWrite_addr]; rfl
  · rw [State.hostWrite_len]; rfl

/-- Settles O9, by what a register write that is not a command's does. -/
theorem registerWritesReachTheWritableFields : Obligations.RegisterWritesReachTheWritableFields := by
  intro s off v rest hscript hoff hcmd
  rw [step_write hscript hoff, State.hostWrite_of_ne_cmd _ v hcmd]
  rfl

/-! ### Accesses of another width or alignment -/

theorem alignedAccess_false {off : BitVec 8} {width : Nat} (h : width ≠ 4 ∨ off.toNat % 4 ≠ 0) :
    alignedAccess off width = false := by
  unfold alignedAccess
  rcases h with h | h <;> simp [h]

theorem step_read_unaligned {s : State} {off : BitVec 8} {width : Nat} {rest : List Move}
    (h : s.script = .read off width :: rest) (ha : alignedAccess off width = false) :
    step s = .refused .registerAccess := by simp [step, takeTurn, h, makeMove, ha]

theorem step_write_unaligned {s : State} {off : BitVec 8} {width : Nat} {v : Word32} {rest : List Move}
    (h : s.script = .write off width v :: rest) (ha : alignedAccess off width = false) :
    step s = .refused .registerAccess := by simp [step, takeTurn, h, makeMove, ha]

/-- Settles O15: neither a read nor a write gets past the alignment check. -/
theorem unalignedRegisterAccessIsRefused : Obligations.UnalignedRegisterAccessIsRefused :=
  fun _ _ _ _ _ h =>
    ⟨fun hread => step_read_unaligned hread (alignedAccess_false h),
      fun hwrite => step_write_unaligned hwrite (alignedAccess_false h)⟩

end Sys2Proof.Machine
end

section
/-! PROOFS. The fields of the status words, bit by bit (10_state.md R24 to R26, R37, R42). -/

namespace Sys2Proof.Machine

/-! ### STATUS -/

section Layout

variable (code : BitVec 4) (seqEnd swp ovr err done busy : Bool)

/-- Every bit of the layout of `STATUS` (10_state.md R25). -/
theorem statusLayout_getLsbD (i : Nat) :
    (statusLayout code seqEnd swp ovr err done busy).getLsbD i =
      if i = 0 then busy else if i = 1 then done else if i = 2 then err else if i = 3 then ovr
      else if i = 4 then swp else if i = 5 then seqEnd else if 8 ≤ i then code.getLsbD (i - 8) else false := by
  unfold statusLayout
  iterate 8 rw [BitVec.getLsbD_append]
  match i with
  | 0 | 1 | 2 | 3 | 4 | 5 => simp
  | 6 | 7 => simp
  | k + 8 =>
    by_cases hk : k < 4
    · simp [hk]
    · simp [hk, BitVec.getLsbD_of_ge code k (by omega)]

/-- The reserved bits between `SEQ_END` and `ERRCODE` are 0. -/
theorem statusLayout_reservedLow : (statusLayout code seqEnd swp ovr err done busy).extractLsb' 6 2 = 0#2 := by
  apply BitVec.eq_of_getLsbD_eq
  intro i hi
  rw [BitVec.getLsbD_extractLsb', statusLayout_getLsbD]
  interval_cases i <;> rfl

theorem statusLayout_errCode : (statusLayout code seqEnd swp ovr err done busy).extractLsb' 8 4 = code := by
  apply BitVec.eq_of_getLsbD_eq
  intro i hi
  rw [BitVec.getLsbD_extractLsb', statusLayout_getLsbD]
  interval_cases i <;> rfl

/-- No bit above `ERRCODE` is set. -/
theorem statusLayout_getLsbD_above {i : Nat} (h : 12 ≤ i) :
    (statusLayout code seqEnd swp ovr err done busy).getLsbD i = false := by
  rw [statusLayout_getLsbD]
  iterate 6 rw [if_neg (by omega)]
  rw [if_pos (by omega), BitVec.getLsbD_of_ge _ _ (by omega)]

/-- The reserved bits above `ERRCODE` are 0. -/
theorem statusLayout_reservedHigh : (statusLayout code seqEnd swp ovr err done busy).extractLsb' 12 20 = 0#20 := by
  apply BitVec.eq_of_getLsbD_eq
  intro i hi
  rw [BitVec.getLsbD_extractLsb', statusLayout_getLsbD_above _ _ _ _ _ _ _ (by omega), Bool.and_false,
    BitVec.getLsbD_zero]

end Layout

/-- Settles O12, by the layout of `STATUS`. -/
theorem statusFieldsStandWhereTheLayoutSays : Obligations.StatusFieldsStandWhereTheLayoutSays := by
  intro s
  have bit := statusLayout_getLsbD s.errCode s.seqEnd s.swp s.ovr s.err.isSome s.done s.busy
  have seqEnd : s.status.getLsbD 5 = s.seqEnd := bit 5
  have errCode : s.status.extractLsb' 8 4 = s.errCode := statusLayout_errCode ..
  refine ⟨bit 0, bit 1, bit 2, bit 3, bit 4, ?_, statusLayout_reservedLow .., ?_, statusLayout_reservedHigh ..⟩
  · rw [seqEnd]
    exact decide_eq_true_iff
  · rw [errCode]
    unfold State.errCode
    cases s.err with
    | none => rfl
    | some e => cases e <;> rfl

/-! ### HANDLE -/

theorem State.handle_none {s : State} (h : s.ctx = none) : s.handle = 0#32 := by simp [State.handle, h]

/-- `HANDLE` is made of the variant alone (10_state.md R26). -/
theorem State.handle_some {s : State} {c : Ctx} (h : s.ctx = some c) :
    s.handle = 0#20 ++ BitVec.ofNat 4 c.alg.wc ++ c.alg.code ++ 0#3 ++ 1#1 := by simp [State.handle, h]

/-- Settles O13, for no handle and for each of the six variants. -/
theorem handleFieldsStandWhereTheLayoutSays : Obligations.HandleFieldsStandWhereTheLayoutSays := by
  intro s
  refine ⟨State.handle_none, fun c hc => ?_⟩
  rw [State.handle_some hc]
  obtain ⟨family, scrambler⟩ := c.alg
  cases family <;> cases scrambler <;> decide

/-! ### Reset -/

/-- Settles O20: every register is one field of the state after reset. -/
theorem resetLeavesTheResetValues : Obligations.ResetLeavesTheResetValues :=
  ⟨rfl, rfl, rfl, rfl, rfl, rfl, rfl, rfl, rfl, rfl, rfl, rfl, rfl, rfl⟩

end Sys2Proof.Machine
end

section
/-! PROOFS. What register reads return (10_state.md R22 to R36, R41). -/

namespace Sys2Proof.Machine

/-! ### The values of the registers -/

theorem State.ctrl_eq (s : State) : s.ctrl = if s.ie then 1#32 else 0#32 := by
  unfold State.ctrl
  cases s.ie <;> rfl

theorem extractLsb'_low (x : Word64) : x.extractLsb' 0 32 = BitVec.ofNat 32 (x.toNat % 4294967296) := by
  apply BitVec.eq_of_toNat_eq
  simp [BitVec.extractLsb'_toNat]

theorem extractLsb'_high (x : Word64) : x.extractLsb' 32 32 = BitVec.ofNat 32 (x.toNat / 4294967296) := by
  apply BitVec.eq_of_toNat_eq
  simp [BitVec.extractLsb'_toNat, Nat.shiftRight_eq_div_pow]

/-- The register at each offset of the window (10_state.md R22); where there is none, 0 (R23). -/
theorem State.regValue_eq (s : State) (off : BitVec 8) :
    s.regValue off =
      if off = 0x00#8 then Config.idValue
      else if off = 0x04#8 then s.ctrl
      else if off = 0x08#8 then s.status
      else if off = 0x0C#8 then s.handle
      else if off = 0x14#8 then s.argK
      else if off = 0x18#8 then s.addr
      else if off = 0x1C#8 then s.len
      else if off = 0x20#8 then s.out
      else if off = 0x24#8 then s.outJ
      else if off = 0x28#8 then s.shLen
      else if off = 0x2C#8 then s.faultAddr
      else if off = 0x30#8 then s.adv.extractLsb' 0 32
      else if off = 0x34#8 then s.adv.extractLsb' 32 32
      else 0#32 := by
  unfold State.regValue
  split
  case h_14 id ctrl status handle argK addr len out outJ shLen faultAddr advLo advHi =>
    rw [if_neg id, if_neg ctrl, if_neg status, if_neg handle, if_neg argK, if_neg addr, if_neg len, if_neg out,
      if_neg outJ, if_neg shLen, if_neg faultAddr, if_neg advLo, if_neg advHi]
  all_goals rfl

/-- The window above `ADV_HI` is reserved space. -/
theorem State.regValue_reserved (s : State) {off : BitVec 8} (h : 0x38 ≤ off.toNat) : s.regValue off = 0#32 := by
  unfold State.regValue
  split
  case h_14 => rfl
  all_goals exact absurd h (by decide)

theorem resultRegister_reserved {off : BitVec 8} (h : 0x38 ≤ off.toNat) : resultRegister off = false := by
  rw [Bool.eq_false_iff]
  intro hres
  simp only [resultRegister, List.contains_iff_mem, List.mem_cons, List.not_mem_nil, or_false] at hres
  rcases hres with rfl | rfl | rfl | rfl | rfl | rfl | rfl <;> exact absurd h (by decide)

@[simp] theorem State.withScript_regValue (s : State) (moves : List Move) (off : BitVec 8) :
    (s.withScript moves).regValue off = s.regValue off := rfl

/-! ### A read -/

/-- An idle engine shows every register, and a busy one those that are neither results nor `STATUS`. -/
theorem State.hostRead_defined {s : State} {off : BitVec 8}
    (h : s.busy = false ∨ (resultRegister off = false ∧ off ≠ 0x08#8)) :
    s.hostRead off = s.sawReg off (s.regValue off) := by
  unfold State.hostRead
  rcases h with hidle | ⟨hres, hstatus⟩
  · simp [hidle]
  · simp [hres, hstatus]

/-- What a busy engine shows is its `STATUS`, but for the free bits, at `STATUS`; some value at a result register; and
the register everywhere else (10_state.md R41). -/
theorem State.hostRead_busy {s : State} (hb : s.busy = true) (off : BitVec 8) :
    ∃ (v : Word32) (n : Nat), s.hostRead off = { s with seen := .reg off v :: s.seen, fresh := n } ∧
      (off = 0x08#8 → ∃ free, v = s.busyStatus free) ∧
      (resultRegister off = false → off ≠ 0x08#8 → v = s.regValue off) := by
  by_cases hstatus : off = 0x08#8
  · subst hstatus
    refine ⟨s.busyStatus (Config.freeWord s.fresh), s.fresh + 1, ?_, fun _ => ⟨_, rfl⟩, fun _ h => absurd rfl h⟩
    simp [State.hostRead, hb, resultRegister, State.sawReg, State.tookFree]
  · cases hres : resultRegister off with
    | false =>
      exact ⟨s.regValue off, s.fresh, State.hostRead_defined (.inr ⟨hres, hstatus⟩), fun h => absurd h hstatus,
        fun _ _ => rfl⟩
    | true =>
      refine ⟨Config.freeWord s.fresh, s.fresh + 1, ?_, fun h => absurd h hstatus, nofun⟩
      simp [State.hostRead, hb, hres, State.sawReg, State.tookFree]

/-- Settles O10: an idle engine shows every register. -/
theorem idleReadsReturnTheRegisters : Obligations.IdleReadsReturnTheRegisters := by
  intro s off rest hscript hoff hlat
  have hidle : (s.withScript rest).busy = false := by simp [State.busy, hlat]
  have hvalue := s.regValue_eq off
  rw [State.ctrl_eq, extractLsb'_low, extractLsb'_high] at hvalue
  rw [step_read hscript hoff, State.hostRead_defined (.inl hidle), State.withScript_regValue, hvalue]
  rfl

/-- Settles O14: `ID` is no result register. -/
theorem idAlwaysReadsItsConstant : Obligations.IdAlwaysReadsItsConstant := by
  intro s rest hscript
  rw [step_read hscript rfl, State.hostRead_defined (.inr ⟨rfl, by decide⟩)]
  rfl

/-- Settles O11, by what a busy engine shows. -/
theorem busyReadsAreDefinedOrFree : Obligations.BusyReadsAreDefinedOrFree := by
  intro s l off rest hlat hscript hoff
  have hb : (s.withScript rest).busy = true := by simp [State.busy, hlat]
  obtain ⟨v, n, hread, hstatus, hdefined⟩ := State.hostRead_busy hb off
  refine ⟨v, n, ?_, fun h => ?_, fun h => ?_, fun h => ?_, fun h => ?_, fun h => ?_, fun h => ?_, fun h => ?_,
    fun h => ?_⟩
  · rw [step_read hscript hoff, hread]
    rfl
  · obtain ⟨free, rfl⟩ := hstatus h
    have bit := statusLayout_getLsbD s.errCode (free.getLsbD 5) (free.getLsbD 4) s.ovr s.err.isSome s.done s.busy
    refine ⟨(bit 0).trans hb, bit 1, bit 2, bit 3, statusLayout_reservedLow .., ?_, statusLayout_reservedHigh ..⟩
    exact (statusLayout_errCode ..).trans (statusLayout_errCode ..).symm
  · subst h; exact hdefined rfl (by decide)
  · subst h; exact (hdefined rfl (by decide)).trans s.ctrl_eq
  · subst h; exact hdefined rfl (by decide)
  · subst h; exact hdefined rfl (by decide)
  · subst h; exact hdefined rfl (by decide)
  · subst h; exact hdefined rfl (by decide)
  · have hne : off ≠ 0x08#8 := by rintro rfl; exact absurd h (by decide)
    exact (hdefined (resultRegister_reserved h) hne).trans (State.regValue_reserved _ h)

end Sys2Proof.Machine
end

section
/-! PROOFS. The commands without a handle (60_exceptions.md R129), and what writes the generator context (10_state.md
R19). -/

namespace Sys2Proof.Machine

/-! ### Without a handle -/

theorem release_none {s : State} (h : s.ctx = none) : release s = .raise .noHandle s := by simp [release, h]

theorem rollCommand_none {s : State} (h : s.ctx = none) : rollCommand s = .raise .noHandle s := by
  simp [rollCommand, h]

theorem shufInit_none {s : State} (h : s.ctx = none) : shufInit s = .raise .noHandle s := by simp [shufInit, h]

theorem shufStepCommand_none {s : State} (h : s.ctx = none) : shufStepCommand s = .raise .noHandle s := by
  simp [shufStepCommand, h]

/-- A rule that raises NO_HANDLE before any effect ends the command with that report only. -/
theorem finish_noHandle {s : State} {e : Ending} (h : e = .raise .noHandle s) :
    finish s e = .next { s with lat := none, done := true, err := some .noHandle } := by
  subst h
  rfl

/-- Settles O31: the rule of each of the ten checks for its handle first. -/
theorem commandsThatNeedAHandleReportItsAbsence : Obligations.CommandsThatNeedAHandleReportItsAbsence := by
  intro s i hctx hi
  cases i
  case release => exact finish_noHandle (release_none hctx)
  case roll => exact finish_noHandle (rollCommand_none hctx)
  case getState => exact finish_noHandle (getState_none hctx)
  case setState => exact finish_noHandle (setState_none hctx)
  case shuffle8 => exact finish_noHandle (shuffle_none 1 hctx)
  case shuffle16 => exact finish_noHandle (shuffle_none 2 hctx)
  case shuffle32 => exact finish_noHandle (shuffle_none 4 hctx)
  case shuffle64 => exact finish_noHandle (shuffle_none 8 hctx)
  case shufInit => exact finish_noHandle (shufInit_none hctx)
  case shufStep => exact finish_noHandle (shufStepCommand_none hctx)
  all_goals exact absurd hi (by decide)

/-! ### What leaves the context -/

/-- A command whose rule leaves the context, completed or failed, leaves it. -/
theorem finish_ctx {s t : State} {e : Ending} (h : finish s e = .next t)
    (keep : ∀ u, (e = .complete u ∨ ∃ err, e = .raise err u) → u.ctx = s.ctx) : t.ctx = s.ctx := by
  obtain ⟨u, he, rfl⟩ | ⟨err, u, he, rfl⟩ | ⟨-, rfl⟩ := finish_next h
  · exact keep u (.inl he)
  · exact keep u (.inr ⟨err, he⟩)
  · rfl

theorem getState_ctx {s u : State} (h : getState s = .complete u ∨ ∃ e, getState s = .raise e u) :
    u.ctx = s.ctx := by
  cases hc : s.ctx with
  | none =>
    rw [getState_none hc] at h
    rcases h with h | ⟨err, h⟩ <;> cases h
    exact hc
  | some c =>
    rcases getState_cases hc with ⟨-, e⟩ | ⟨-, -, e⟩ | ⟨-, -, ⟨j, -, -, -, e⟩ | ⟨-, e⟩⟩ <;>
      rw [e] at h <;> rcases h with h | ⟨err, h⟩ <;> cases h
    · exact hc
    · rw [State.scramble_eq]
      exact hc
    · exact hc

theorem shufInit_ctx {s u : State} (h : shufInit s = .complete u ∨ ∃ e, shufInit s = .raise e u) :
    u.ctx = s.ctx := by
  unfold shufInit at h
  split at h <;> rcases h with h | ⟨err, h⟩ <;> cases h <;> rfl

/-- NOP, GET_STATE and SHUF_INIT leave the context (41_generator.md R97, R103; 43_shuffle.md R120). -/
theorem exec_ctx {s t : State} {i : Instr} (hi : i ∈ [Instr.nop, .getState, .shufInit]) (h : exec i s = .next t) :
    t.ctx = s.ctx := by
  simp only [List.mem_cons, List.not_mem_nil, or_false] at hi
  rcases hi with rfl | rfl | rfl
  · refine finish_ctx (e := .complete s) h ?_
    rintro u (hu | ⟨err, hu⟩) <;> cases hu
    rfl
  · exact finish_ctx h fun _ => getState_ctx
  · exact finish_ctx h fun _ => shufInit_ctx

/-- A word that is no legal command completes with an error and no other effect (30_encoding.md R77). -/
theorem rejected_raises (r : Reject) (s : State) : ∃ e, rejected r s = .raise e s := by
  unfold rejected
  split
  · exact ⟨_, rfl⟩
  · exact ⟨_, rfl⟩
  · split <;> exact ⟨_, rfl⟩

/-- A turn of the engine that changes the context completes a command that writes it. -/
theorem engineTurn_writes_ctx {s t : State} (h : engineTurn s = .next t) (hne : t.ctx ≠ s.ctx) :
    ∃ l i, s.lat = some l ∧ decode l.cmd = .ok i ∧ t.lat = none ∧ i ∉ [Instr.nop, .getState, .shufInit] := by
  cases hlat : s.lat with
  | none =>
    rw [engineTurn_idle hlat] at h
    cases h
    exact absurd rfl hne
  | some l =>
    cases hdec : decode l.cmd with
    | error r =>
      obtain ⟨e, he⟩ := rejected_raises r s
      rw [engineTurn_rejected hlat hdec, he] at h
      cases h
      exact absurd rfl hne
    | ok i =>
      rw [engineTurn_ok hlat hdec] at h
      refine ⟨l, i, rfl, hdec, ?_, fun hi => hne (exec_ctx hi h)⟩
      obtain rfl | ⟨u, -, rfl | ⟨e, rfl⟩⟩ := exec_next h
      · exact absurd rfl hne
      · rfl
      · rfl

/-- Settles O50, by the cases of a step: no host access reaches the context. -/
theorem onlyTheseEventsWriteTheContext : Obligations.OnlyTheseEventsWriteTheContext := by
  intro s t h hne
  obtain hturn | ⟨rest, -, hturn⟩ | ⟨rest, -, rfl⟩ | ⟨off, rest, -, rfl⟩ | ⟨off, v, rest, -, rfl⟩ |
    ⟨a, rest, -, rfl⟩ | ⟨a, b, rest, -, rfl⟩ | ⟨rest, hscript, -⟩ := step_cases h
  · exact .inr (engineTurn_writes_ctx hturn hne)
  · exact .inr (engineTurn_writes_ctx (s := s.withScript rest) hturn hne)
  · exact absurd rfl hne
  · rw [State.hostRead_frame] at hne
    exact absurd rfl hne
  · rw [State.hostWrite_frame] at hne
    exact absurd rfl hne
  · exact absurd rfl hne
  · exact absurd rfl hne
  · exact .inl ⟨rest, hscript⟩

end Sys2Proof.Machine
end

section
/-! PROOFS. The host's accesses to memory (20_memory.md R48, R64), and memory in canonical form as its bytes (R46). -/

namespace Sys2Proof.Machine

/-! ### Canonical memory -/

theorem memWfFrom_cons {lo a : Nat} {b : Byte} {rest : List Host.Cell} :
    memWfFrom lo ((a, b) :: rest) = true ↔ lo ≤ a ∧ b ≠ 0#8 ∧ memWfFrom (a + 1) rest = true := by
  simp [memWfFrom, and_assoc]

@[simp] theorem readByte_nil (x : Nat) : readByte [] x = 0#8 := rfl

@[simp] theorem readByte_cons_same (a : Nat) (b : Byte) (rest : List Host.Cell) :
    readByte ((a, b) :: rest) a = b := by simp [readByte]

theorem readByte_cons_ne {a x : Nat} (h : x ≠ a) (b : Byte) (rest : List Host.Cell) :
    readByte ((a, b) :: rest) x = readByte rest x := by simp [readByte, h]

/-- The first address listed is the least one whose byte is not 0. -/
theorem head_le_of_readByte_ne_zero {lo a x : Nat} {b : Byte} {rest : List Host.Cell}
    (h : memWfFrom lo ((a, b) :: rest) = true) (hx : readByte ((a, b) :: rest) x ≠ 0#8) : a ≤ x := by
  obtain ⟨-, hb, hrest⟩ := memWfFrom_cons.1 h
  have hfrom : memWfFrom a ((a, b) :: rest) = true := memWfFrom_cons.2 ⟨le_rfl, hb, hrest⟩
  exact Nat.le_of_not_lt fun hlt => hx (readByte_below hfrom hlt)

/-- Canonical memories with the same bytes list the same first cell, so the bytes after it agree too. -/
theorem eq_of_readByte_eq {m m' : List Host.Cell} {lo : Nat} (h : memWfFrom lo m = true)
    (h' : memWfFrom lo m' = true) (hbytes : ∀ x, readByte m x = readByte m' x) : m = m' := by
  induction m generalizing m' lo with
  | nil =>
    cases m' with
    | nil => rfl
    | cons c' rest' =>
      obtain ⟨a', b'⟩ := c'
      obtain ⟨-, hb', -⟩ := memWfFrom_cons.1 h'
      exact absurd (by simpa using (hbytes a').symm) hb'
  | cons c rest ih =>
    obtain ⟨a, b⟩ := c
    obtain ⟨-, hb, hrest⟩ := memWfFrom_cons.1 h
    cases m' with
    | nil => exact absurd (by simpa using hbytes a) hb
    | cons c' rest' =>
      obtain ⟨a', b'⟩ := c'
      obtain ⟨-, hb', hrest'⟩ := memWfFrom_cons.1 h'
      have ha : a = a' := by
        apply Nat.le_antisymm
        · exact head_le_of_readByte_ne_zero h (by rw [hbytes a']; simpa using hb')
        · exact head_le_of_readByte_ne_zero h' (by rw [← hbytes a]; simpa using hb)
      subst ha
      have hhead : b = b' := by simpa using hbytes a
      have htail : ∀ x, readByte rest x = readByte rest' x := by
        intro x
        by_cases hx : x = a
        · rw [readByte_below hrest (by omega), readByte_below hrest' (by omega)]
        · simpa only [readByte_cons_ne hx] using hbytes x
      rw [hhead, ih hrest hrest' htail]

/-- Settles O55: the canonical form from address 0. -/
theorem canonicalMemoryIsItsBytes : Obligations.CanonicalMemoryIsItsBytes :=
  fun _ _ => eq_of_readByte_eq

/-! ### A host access to a byte -/

@[simp] theorem State.withScript_hostMemoryRefusal (s : State) (moves : List Move) :
    (s.withScript moves).hostMemoryRefusal = s.hostMemoryRefusal := rfl

theorem State.hostMemoryRefusal_busy {s : State} {a : Word32} (h : inRange s.busyRange a.toNat = true) :
    s.hostMemoryRefusal a = some .busyRange := by simp [State.hostMemoryRefusal, h]

theorem State.hostMemoryRefusal_none {s : State} {a : Word32} (hbusy : inRange s.busyRange a.toNat = false)
    (hdev : s.coversDevice a.toNat 1 = false) : s.hostMemoryRefusal a = none := by
  simp [State.hostMemoryRefusal, hbusy, hdev]

section
variable {s : State} {a : Word32} {b : Byte} {rest : List Move}

theorem step_load (h : s.script = .load a :: rest) (hok : s.hostMemoryRefusal a = none) :
    step s = .next { s with script := rest, seen := .byte a (readByte s.mem a.toNat) :: s.seen } := by
  simp [step, takeTurn, h, makeMove, hok]

theorem step_store (h : s.script = .store a b :: rest) (hok : s.hostMemoryRefusal a = none) :
    step s = .next { s with script := rest, mem := writeByte s.mem a.toNat b } := by
  simp [step, takeTurn, h, makeMove, hok]

theorem step_load_refused {r : Refusal} (h : s.script = .load a :: rest) (hr : s.hostMemoryRefusal a = some r) :
    step s = .refused r := by simp [step, takeTurn, h, makeMove, hr]

theorem step_store_refused {r : Refusal} (h : s.script = .store a b :: rest)
    (hr : s.hostMemoryRefusal a = some r) : step s = .refused r := by simp [step, takeTurn, h, makeMove, hr]

end

/-- Settles O17: no refusal applies, and a byte written to canonical memory is the only one that changes. -/
theorem hostMemoryAccessIsThatOfPlainMemory : Obligations.HostMemoryAccessIsThatOfPlainMemory := by
  intro s a b rest hwf hbusy hdev
  have hok := State.hostMemoryRefusal_none hbusy hdev
  refine ⟨fun h => step_load h hok, fun h => ⟨_, step_store h hok, ?_, fun x hx => ?_⟩⟩
  · exact readByte_writeByte_same hwf a.toNat b
  · exact readByte_writeByte_ne s.mem b hx

/-! ### The busy command's range -/

theorem State.busyRange_of_decode {s : State} {l : Latched} {i : Instr} (hlat : s.lat = some l)
    (hdec : decode l.cmd = .ok i) : s.busyRange = (s.writtenRange i).or (s.readRange i) := by
  simp [State.busyRange, hlat, hdec]

theorem State.ranges_create {i : Instr} {alg : Alg} (h : createAlg i = some alg) (s : State) :
    (s.writtenRange i).or (s.readRange i) = some (s.args.addr.toNat, alg.stateBytes) := by
  cases i <;> simp [createAlg] at h <;> subst h <;> rfl

theorem State.ranges_getState {s : State} {c : Ctx} (h : s.ctx = some c) :
    (s.writtenRange .getState).or (s.readRange .getState) = some (s.args.addr.toNat, c.alg.stateBytes) := by
  simp [State.writtenRange, h]

theorem State.ranges_setState {s : State} {c : Ctx} (h : s.ctx = some c) :
    (s.writtenRange .setState).or (s.readRange .setState) = some (s.args.addr.toNat, c.alg.stateBytes) := by
  simp [State.writtenRange, State.readRange, h]

theorem State.ranges_shuffle {i : Instr} {w : Nat} (h : shuffleWidth i = some w) (s : State) :
    (s.writtenRange i).or (s.readRange i) = some (s.args.addr.toNat, s.args.len.toNat * w) := by
  cases i <;> simp [shuffleWidth] at h <;> subst h <;> rfl

/-- Settles O16: each of the twelve commands has its range, and the refusal comes before the access. -/
theorem hostAccessToTheBusyRangeIsRefused : Obligations.HostAccessToTheBusyRangeIsRefused := by
  intro s l i size a b rest hlat hdec hsize hlo hhi
  have hrange : (s.writtenRange i).or (s.readRange i) = some (l.addr.toNat, size) := by
    rw [← State.args_of_lat hlat] at hsize ⊢
    obtain ⟨alg, hi, rfl⟩ | ⟨hi, c, hc, rfl⟩ | ⟨w, hi, rfl⟩ := hsize
    · exact State.ranges_create hi s
    · simp only [List.mem_cons, List.not_mem_nil, or_false] at hi
      rcases hi with rfl | rfl
      · exact State.ranges_getState hc
      · exact State.ranges_setState hc
    · exact State.ranges_shuffle hi s
  have hin : inRange s.busyRange a.toNat = true := by
    rw [State.busyRange_of_decode hlat hdec, hrange]
    simp [inRange, hlo, hhi]
  have hr := State.hostMemoryRefusal_busy hin
  exact ⟨fun h => step_load_refused h hr, fun h => step_store_refused h hr⟩

end Sys2Proof.Machine
end

section
/-! PROOFS. The check of a command's range against the top of memory and the devices (20_memory.md R48, R49), and what
the commands that access no memory leave unchanged (R47). -/

namespace Sys2Proof.Machine

/-! ### The rule of each command -/

theorem exec_release (s : State) : exec .release s = finish s (release s) := rfl

theorem exec_roll (s : State) : exec .roll s = finish s (rollCommand s) := rfl

theorem exec_getState (s : State) : exec .getState s = finish s (getState s) := rfl

theorem exec_setState (s : State) : exec .setState s = finish s (setState s) := rfl

theorem exec_shufInit (s : State) : exec .shufInit s = finish s (shufInit s) := rfl

theorem exec_shufStep (s : State) : exec .shufStep s = finish s (shufStepCommand s) := rfl

/-! ### The checks of a range -/

/-- The command accesses `size` bytes, and passes the checks that precede that of its range (60_exceptions.md R133). -/
def reachesRangeCheck (s : State) (i : Instr) (size : Nat) : Prop :=
  (∃ alg, createAlg i = some alg ∧ size = alg.stateBytes ∧ size ≤ s.args.len.toNat) ∨
  (i = .setState ∧ ∃ c, s.ctx = some c ∧ size = c.alg.stateBytes ∧ size ≤ s.args.len.toNat) ∨
  (i = .getState ∧ ∃ c, s.ctx = some c ∧ size = c.alg.stateBytes) ∨
  (∃ w, shuffleWidth i = some w ∧ s.ctx ≠ none ∧ size = s.args.len.toNat * w)

/-- The check of the range, for every command that makes it: past the top of memory it raises RANGE, and over a device
it refuses, unless the command is a SHUFFLE with nothing to exchange. -/
theorem exec_rangeCheck {s : State} {i : Instr} {size : Nat} (h : reachesRangeCheck s i size) :
    (Config.addressLimit < s.args.addr.toNat + size → exec i s = finish s (.raise (.range s.args.addr) s)) ∧
    (s.args.addr.toNat + size ≤ Config.addressLimit → s.coversDevice s.args.addr.toNat size = true →
      (shuffleWidth i ≠ none → 2 ≤ s.args.len.toNat) → exec i s = finish s (.refuse .deviceRange)) := by
  obtain ⟨alg, hi, rfl, hlen⟩ | ⟨rfl, c, hc, rfl, hlen⟩ | ⟨rfl, c, hc, rfl⟩ | ⟨w, hi, hctx, rfl⟩ := h
  · rw [exec_create hi]
    rcases create_cases alg s with ⟨hshort, -⟩ | ⟨-, hout, e⟩ | ⟨-, hfit, -, e⟩ | ⟨-, hfit, hdev, -⟩
    · omega
    · exact ⟨fun _ => by rw [e], by omega⟩
    · exact ⟨by omega, fun _ _ _ => by rw [e]⟩
    · exact ⟨by omega, by simp [hdev]⟩
  · rw [exec_setState]
    rcases setState_cases hc with ⟨hshort, -⟩ | ⟨-, hout, e⟩ | ⟨-, hfit, -, e⟩ | ⟨-, hfit, hdev, -⟩
    · omega
    · exact ⟨fun _ => by rw [e], by omega⟩
    · exact ⟨by omega, fun _ _ _ => by rw [e]⟩
    · exact ⟨by omega, by simp [hdev]⟩
  · rw [exec_getState]
    rcases getState_cases hc with ⟨hout, e⟩ | ⟨hfit, -, e⟩ | ⟨hfit, hdev, -⟩
    · exact ⟨fun _ => by rw [e], by omega⟩
    · exact ⟨by omega, fun _ _ _ => by rw [e]⟩
    · exact ⟨by omega, by simp [hdev]⟩
  · obtain ⟨c, hc⟩ := Option.ne_none_iff_exists'.1 hctx
    rw [exec_shuffle hi]
    rcases shuffle_cases w hc with ⟨hout, e⟩ | ⟨hfit, -, -, e⟩ | ⟨hfit, hdev, -⟩
    · exact ⟨fun _ => by rw [e], by omega⟩
    · exact ⟨by omega, fun _ _ _ => by rw [e]⟩
    · refine ⟨by omega, fun _ hcov htwo => ?_⟩
      have hlen : 2 ≤ s.args.len.toNat := htwo (by simp [hi])
      simp [hdev hlen] at hcov

/-- Settles O40, by the check that every command with a range makes. -/
theorem rangePastTheTopIsReportedBeforeAnyEffect : Obligations.RangePastTheTopIsReportedBeforeAnyEffect := by
  intro s l i size hlat hcmd hout
  rw [← State.args_of_lat hlat] at hcmd hout ⊢
  exact (exec_rangeCheck hcmd).1 hout

/-- Settles O18, by the check that every command with a range makes; a SHUFFLE here has two elements. -/
theorem commandsOverADeviceAreRefused : Obligations.CommandsOverADeviceAreRefused := by
  intro s l i size hlat hcmd hfit hdev
  rw [← State.args_of_lat hlat] at hcmd hfit hdev
  have hreach : reachesRangeCheck s i size := by
    obtain h | h | h | ⟨w, hi, hctx, -, hsize⟩ := hcmd
    · exact .inl h
    · exact .inr (.inl h)
    · exact .inr (.inr (.inl h))
    · exact .inr (.inr (.inr ⟨w, hi, hctx, hsize⟩))
  have htwo : shuffleWidth i ≠ none → 2 ≤ s.args.len.toNat := by
    intro hw
    obtain ⟨alg, hi, -⟩ | ⟨rfl, -⟩ | ⟨rfl, -⟩ | ⟨w, -, -, htwo, -⟩ := hcmd
    · cases i <;> simp [createAlg, shuffleWidth] at hi hw
    · exact absurd rfl hw
    · exact absurd rfl hw
    · exact htwo
  exact (exec_rangeCheck hreach).2 hfit hdev htwo

/-! ### The commands that access no memory -/

theorem release_some {s : State} {c : Ctx} (h : s.ctx = some c) :
    release s = .complete { s with ctx := none, shLen := 0#32, swp := false } := by simp [release, h]

theorem shufInit_some {s : State} {c : Ctx} (h : s.ctx = some c) :
    shufInit s = .complete { s with shLen := s.args.len, swp := false } := by simp [shufInit, h]

/-- All that ROLL's rule can do with a handle (42_sampler.md R111, R115). -/
theorem rollCommand_cases {s : State} {c : Ctx} (h : s.ctx = some c) :
    rollCommand s = .never ∨
    ∃ n, firstAccepted s.args.argK ⟨c, s.adv⟩ n ∧ rollCommand s = .complete { s with
      out := sample s.args.argK ((⟨c, s.adv⟩ : Gen).after n)
      ctx := some ((⟨c, s.adv⟩ : Gen).after (n + 1)).ctx
      adv := ((⟨c, s.adv⟩ : Gen).after (n + 1)).adv } := by
  cases hroll : roll s.args.argK ⟨c, s.adv⟩ with
  | none => exact .inl (by simp [rollCommand, h, hroll])
  | some p =>
    obtain ⟨r, g⟩ := p
    obtain ⟨n, hfirst, rfl, rfl⟩ := roll_some hroll
    exact .inr ⟨n, hfirst, by simp [rollCommand, h, hroll]⟩

section
variable {s t : State}

/-- NOP writes its completion only (41_generator.md R97). -/
theorem exec_nop_frame (h : exec .nop s = .next t) :
    ∃ lat done err, t = { s with lat := lat, done := done, err := err } := by
  cases h
  exact ⟨_, _, _, rfl⟩

/-- RELEASE writes the context and the shuffle only (41_generator.md R102). -/
theorem exec_release_frame (h : exec .release s = .next t) :
    ∃ lat done err ctx shLen swp,
      t = { s with lat := lat, done := done, err := err, ctx := ctx, shLen := shLen, swp := swp } := by
  rw [exec_release] at h
  obtain hc | ⟨c, hc⟩ := Option.eq_none_or_eq_some s.ctx
  · rw [release_none hc] at h
    cases h
    exact ⟨_, _, _, _, _, _, rfl⟩
  · rw [release_some hc] at h
    cases h
    exact ⟨_, _, _, _, _, _, rfl⟩

/-- ROLL writes the state words, the counter and `OUT` only (42_sampler.md R115). -/
theorem exec_roll_frame (h : exec .roll s = .next t) :
    ∃ lat done err ctx adv out, ctx.map Ctx.alg = s.ctx.map Ctx.alg ∧
      t = { s with lat := lat, done := done, err := err, ctx := ctx, adv := adv, out := out } := by
  rw [exec_roll] at h
  obtain hc | ⟨c, hc⟩ := Option.eq_none_or_eq_some s.ctx
  · rw [rollCommand_none hc] at h
    cases h
    exact ⟨_, _, _, s.ctx, _, _, rfl, rfl⟩
  · rcases rollCommand_cases hc with e | ⟨n, -, e⟩ <;> rw [e] at h <;> cases h
    · exact ⟨_, _, _, s.ctx, _, _, rfl, rfl⟩
    · refine ⟨_, _, _, _, _, _, ?_, rfl⟩
      rw [hc]
      exact congrArg some (Gen.after_alg _ _)

/-- SHUF_INIT writes the shuffle only (43_shuffle.md R120). -/
theorem exec_shufInit_frame (h : exec .shufInit s = .next t) :
    ∃ lat done err shLen swp, t = { s with lat := lat, done := done, err := err, shLen := shLen, swp := swp } := by
  rw [exec_shufInit] at h
  obtain hc | ⟨c, hc⟩ := Option.eq_none_or_eq_some s.ctx
  · rw [shufInit_none hc] at h
    cases h
    exact ⟨_, _, _, _, _, rfl⟩
  · rw [shufInit_some hc] at h
    cases h
    exact ⟨_, _, _, _, _, rfl⟩

/-- SHUF_STEP writes the state words, the counter, the results and the shuffle only (43_shuffle.md R119, R121). -/
theorem exec_shufStep_frame (h : exec .shufStep s = .next t) :
    ∃ lat done err ctx adv out outJ shLen swp, ctx.map Ctx.alg = s.ctx.map Ctx.alg ∧
      t = { s with lat := lat, done := done, err := err, ctx := ctx, adv := adv, out := out, outJ := outJ,
                   shLen := shLen, swp := swp } := by
  rw [exec_shufStep] at h
  obtain hc | ⟨c, hc⟩ := Option.eq_none_or_eq_some s.ctx
  · rw [shufStepCommand_none hc] at h
    cases h
    exact ⟨_, _, _, s.ctx, _, _, _, _, _, rfl, rfl⟩
  · rcases shufStepCommand_cases hc with ⟨-, e⟩ | ⟨-, -, e⟩ | ⟨c', u, -, hstep, e⟩ <;> rw [e] at h <;> cases h
    · exact ⟨_, _, _, s.ctx, _, _, _, _, _, rfl, rfl⟩
    · exact ⟨_, _, _, s.ctx, _, _, _, _, _, rfl, rfl⟩
    · obtain ⟨n, -, rfl, rfl⟩ := shufStep_some hstep
      refine ⟨_, _, _, _, _, _, _, _, _, ?_, rfl⟩
      rw [hc]
      exact congrArg some (Gen.after_alg _ _)

end

/-- Settles O56, from the frame of each of the five. -/
theorem registerOnlyCommandsFrame : Obligations.RegisterOnlyCommandsFrame := by
  intro s t i hi h
  simp only [List.mem_cons, List.not_mem_nil, or_false] at hi
  rcases hi with rfl | rfl | rfl | rfl | rfl
  · obtain ⟨lat, done, err, rfl⟩ := exec_nop_frame h
    simp
  · obtain ⟨lat, done, err, ctx, shLen, swp, rfl⟩ := exec_release_frame h
    simp
  · obtain ⟨lat, done, err, ctx, adv, out, halg, rfl⟩ := exec_roll_frame h
    simp [halg]
  · obtain ⟨lat, done, err, shLen, swp, rfl⟩ := exec_shufInit_frame h
    simp
  · obtain ⟨lat, done, err, ctx, adv, out, outJ, shLen, swp, halg, rfl⟩ := exec_shufStep_frame h
    simp [halg]

end Sys2Proof.Machine
end

section
/-! PROOFS. Fields and words are the same data; what the decoder answers for the fields of any word (30_encoding.md R70
to R76). -/

namespace Sys2Proof

/-! ### A word is its fields -/

@[simp] theorem wordOfFields_fieldsOf (c : Word32) : wordOfFields (fieldsOf c) = c := by
  calc wordOfFields (fieldsOf c)
    _ = c.extractLsb' 8 24 ++ c.extractLsb' 4 4 ++ c.extractLsb' 0 4 := by
      rw [← BitVec.extractLsb'_append_extractLsb'_eq_extractLsb' (start₁ := 8) (len₁ := 4) (len₂ := 20) rfl]
      rfl
    _ = c.extractLsb' 4 28 ++ c.extractLsb' 0 4 :=
      congrArg (· ++ c.extractLsb' 0 4) (BitVec.extractLsb'_append_extractLsb'_eq_extractLsb' rfl)
    _ = c := BitVec.extractLsb'_append_extractLsb'

@[simp] theorem fieldsOf_wordOfFields (f : CommandFields) : fieldsOf (wordOfFields f) = f := by
  obtain ⟨opc, alg, wcode, rsv⟩ := f
  have hopc : (rsv ++ wcode ++ alg ++ opc).extractLsb' 0 4 = opc := BitVec.extractLsb'_append_eq_right
  have halg : (rsv ++ wcode ++ alg ++ opc).extractLsb' 4 4 = alg := by
    rw [BitVec.extractLsb'_append_eq_of_le (by decide), BitVec.extractLsb'_append_eq_right]
  have hwcode : (rsv ++ wcode ++ alg ++ opc).extractLsb' 8 4 = wcode := by
    rw [BitVec.extractLsb'_append_eq_of_le (by decide), BitVec.extractLsb'_append_eq_of_le (by decide),
      BitVec.extractLsb'_append_eq_right]
  have hrsv : (rsv ++ wcode ++ alg ++ opc).extractLsb' 12 20 = rsv := by
    rw [BitVec.extractLsb'_append_eq_of_le (by decide), BitVec.extractLsb'_append_eq_of_le (by decide),
      BitVec.extractLsb'_append_eq_left]
  exact congr (congr (congr (congrArg CommandFields.mk hopc) halg) hwcode) hrsv

theorem eq_wordOfFields_iff {c : Word32} {f : CommandFields} : c = wordOfFields f ↔ fieldsOf c = f := by
  constructor
  · rintro rfl
    exact fieldsOf_wordOfFields f
  · rintro rfl
    exact (wordOfFields_fieldsOf c).symm

/-! ### The decoder's answer, whatever the fields -/

/-- The fields fail one of the four tests the decoder makes before it looks at the operation (30_encoding.md R76). -/
def CommandFields.illegal (f : CommandFields) : Prop :=
  f.rsv ≠ 0#20 ∨ 9 ≤ f.opc.toNat ∨ (f.opc ≠ 1#4 ∧ f.alg ≠ 0#4) ∨ (f.opc ≠ 6#4 ∧ f.wcode ≠ 0#4)

/-- The algorithm codes that name no variant (30_encoding.md R73). -/
def reservedAlgs : List (BitVec 4) := [0x3, 0x7, 0x8, 0x9, 0xA, 0xB, 0xC, 0xD, 0xE, 0xF]

/-- The element-width codes that name no width (30_encoding.md R74). -/
def reservedWidths : List (BitVec 4) := [0x4, 0x5, 0x6, 0x7, 0x8, 0x9, 0xA, 0xB, 0xC, 0xD, 0xE, 0xF]

theorem decodeFields_illegal {f : CommandFields} (h : f.illegal) : decodeFields f = .error .illegalCommand := by
  unfold decodeFields
  rcases h with h | h | h | h
  · rw [if_pos h]
  · have hopc : 0x9#4 ≤ f.opc := h
    simp [hopc]
  · simp [h]
  · simp [h]

theorem CommandFields.not_illegal_iff {f : CommandFields} :
    ¬ f.illegal ↔
      f.rsv = 0#20 ∧ f.opc < 0x9#4 ∧ (f.opc ≠ 1#4 → f.alg = 0#4) ∧ (f.opc ≠ 6#4 → f.wcode = 0#4) := by
  simp only [CommandFields.illegal, not_or, not_and, not_not, not_le]
  rfl

theorem decodeFields_of_not_illegal {f : CommandFields} (h : ¬ f.illegal) : decodeFields f = decodeCommand f := by
  obtain ⟨hrsv, hopc, halg, hwcode⟩ := CommandFields.not_illegal_iff.1 h
  unfold decodeFields
  rw [if_neg (by simp [hrsv]), if_neg (by simpa using hopc), if_neg (by simpa using halg),
    if_neg (by simpa using hwcode)]

theorem decodeCreate_cases (alg : BitVec 4) :
    (∃ i, ⟨1#4, alg, 0#4, 0#20⟩ = instrFields i ∧ decodeCreate alg = .ok i) ∨
    (alg ∈ reservedAlgs ∧ decodeCreate alg = .error .reservedAlg) := by
  unfold decodeCreate
  split
  case h_7 =>
    refine .inr ⟨?_, rfl⟩
    revert alg
    decide
  all_goals exact .inl ⟨_, rfl, rfl⟩

theorem decodeShuffle_cases (wcode : BitVec 4) :
    (∃ i, ⟨6#4, 0#4, wcode, 0#20⟩ = instrFields i ∧ decodeShuffle wcode = .ok i) ∨
    (wcode ∈ reservedWidths ∧ decodeShuffle wcode = .error .reservedWidth) := by
  unfold decodeShuffle
  split
  case h_5 =>
    refine .inr ⟨?_, rfl⟩
    revert wcode
    decide
  all_goals exact .inl ⟨_, rfl, rfl⟩

/-- Past the four tests, only CREATE and SHUFFLE look at a further field, and they reject its reserved codes. -/
theorem decodeCommand_cases {f : CommandFields} (h : ¬ f.illegal) :
    (∃ i, f = instrFields i ∧ decodeCommand f = .ok i) ∨
    (∃ alg ∈ reservedAlgs, f = ⟨1#4, alg, 0#4, 0#20⟩ ∧ decodeCommand f = .error .reservedAlg) ∨
    (∃ wcode ∈ reservedWidths, f = ⟨6#4, 0#4, wcode, 0#20⟩ ∧ decodeCommand f = .error .reservedWidth) := by
  obtain ⟨hrsv, hopc, halg, hwcode⟩ := CommandFields.not_illegal_iff.1 h
  clear h
  obtain ⟨opc, alg, wcode, rsv⟩ := f
  dsimp only at hrsv hopc halg hwcode
  subst hrsv
  unfold decodeCommand
  dsimp only
  split
  case h_2 =>
    obtain rfl := hwcode (by decide)
    rcases decodeCreate_cases alg with hok | ⟨hmem, herr⟩
    · exact .inl hok
    · exact .inr (.inl ⟨alg, hmem, rfl, herr⟩)
  case h_7 =>
    obtain rfl := halg (by decide)
    rcases decodeShuffle_cases wcode with hok | ⟨hmem, herr⟩
    · exact .inl hok
    · exact .inr (.inr ⟨wcode, hmem, rfl, herr⟩)
  case h_10 =>
    -- The nine codes below 9 are all taken.
    exfalso
    clear halg hwcode
    revert opc
    decide
  all_goals
    obtain rfl := halg (by decide)
    obtain rfl := hwcode (by decide)
    exact .inl ⟨_, rfl, rfl⟩

/-- The four answers of the decoder, and the fields that get each (30_encoding.md R76). -/
theorem decodeFields_cases (f : CommandFields) :
    (f.illegal ∧ decodeFields f = .error .illegalCommand) ∨
    (∃ i, f = instrFields i ∧ decodeFields f = .ok i) ∨
    (∃ alg ∈ reservedAlgs, f = ⟨1#4, alg, 0#4, 0#20⟩ ∧ decodeFields f = .error .reservedAlg) ∨
    (∃ wcode ∈ reservedWidths, f = ⟨6#4, 0#4, wcode, 0#20⟩ ∧ decodeFields f = .error .reservedWidth) := by
  by_cases hill : f.illegal
  · exact .inl ⟨hill, decodeFields_illegal hill⟩
  · rw [decodeFields_of_not_illegal hill]
    exact .inr (decodeCommand_cases hill)

@[simp] theorem decodeFields_instrFields (i : Instr) : decodeFields (instrFields i) = .ok i := by
  cases i <;> rfl

theorem decodeFields_ok_iff {f : CommandFields} {i : Instr} : decodeFields f = .ok i ↔ f = instrFields i := by
  constructor
  · intro h
    rcases decodeFields_cases f with ⟨-, e⟩ | ⟨j, hf, e⟩ | ⟨_, -, -, e⟩ | ⟨_, -, -, e⟩ <;> rw [e] at h <;> cases h
    exact hf
  · rintro rfl
    exact decodeFields_instrFields i

theorem decodeFields_illegal_iff {f : CommandFields} : decodeFields f = .error .illegalCommand ↔ f.illegal := by
  refine ⟨fun h => ?_, decodeFields_illegal⟩
  rcases decodeFields_cases f with ⟨hill, -⟩ | ⟨_, -, e⟩ | ⟨_, -, -, e⟩ | ⟨_, -, -, e⟩
  · exact hill
  all_goals rw [e] at h; cases h

theorem decodeFields_reservedAlg_iff {f : CommandFields} :
    decodeFields f = .error .reservedAlg ↔ ∃ alg ∈ reservedAlgs, f = ⟨1#4, alg, 0#4, 0#20⟩ := by
  constructor
  · intro h
    rcases decodeFields_cases f with ⟨-, e⟩ | ⟨_, -, e⟩ | ⟨alg, hmem, hf, -⟩ | ⟨_, -, -, e⟩
    case inr.inr.inl => exact ⟨alg, hmem, hf⟩
    all_goals rw [e] at h; cases h
  · rintro ⟨alg, hmem, rfl⟩
    revert alg
    decide

theorem decodeFields_reservedWidth_iff {f : CommandFields} :
    decodeFields f = .error .reservedWidth ↔ ∃ wcode ∈ reservedWidths, f = ⟨6#4, 0#4, wcode, 0#20⟩ := by
  constructor
  · intro h
    rcases decodeFields_cases f with ⟨-, e⟩ | ⟨_, -, e⟩ | ⟨_, -, -, e⟩ | ⟨wcode, hmem, hf, -⟩
    case inr.inr.inr => exact ⟨wcode, hmem, hf⟩
    all_goals rw [e] at h; cases h
  · rintro ⟨wcode, hmem, rfl⟩
    revert wcode
    decide

/-! ### Words -/

/-- Settles O1, by the fields: a word and its fields determine each other, and the decoder reads fields as a command
exactly where they are the command's. -/
theorem decodeAcceptsExactlyTheEncodedWords : Obligations.DecodeAcceptsExactlyTheEncodedWords := by
  intro c i
  rw [decode, decodeFields_ok_iff, encode, eq_wordOfFields_iff]

/-- Settles O2: each number of the table is the encoded word of its command. -/
theorem commandWordsOfTheTableDecode : Obligations.CommandWordsOfTheTableDecode := by
  refine ⟨?_, ?_, ?_, ?_, ?_, ?_, ?_, ?_, ?_, ?_, ?_, ?_, ?_, ?_, ?_, ?_, ?_⟩ <;>
    exact (decodeAcceptsExactlyTheEncodedWords _ _).2 rfl

/-- Settles O3: the four tests are those of the word's fields. -/
theorem illegalWordsAreExactlyThoseOfTheDecoder : Obligations.IllegalWordsAreExactlyThoseOfTheDecoder :=
  fun _ => decodeFields_illegal_iff

/-- The words of the fields in a list that a code makes. -/
theorem mem_map_wordOfFields {c : Word32} {codes : List (BitVec 4)} {mk : BitVec 4 → CommandFields} :
    c ∈ codes.map (fun code => wordOfFields (mk code)) ↔ ∃ code ∈ codes, fieldsOf c = mk code := by
  simp only [List.mem_map, eq_comm (b := c), eq_wordOfFields_iff]

/-- Settles O4: the ten and the twelve words are those of the reserved codes. -/
theorem reservedCodesAreExactlyTheseWords : Obligations.ReservedCodesAreExactlyTheseWords := by
  intro c
  constructor
  · exact decodeFields_reservedAlg_iff.trans
      (mem_map_wordOfFields (codes := reservedAlgs) (mk := fun alg => ⟨1#4, alg, 0#4, 0#20⟩)).symm
  · exact decodeFields_reservedWidth_iff.trans
      (mem_map_wordOfFields (codes := reservedWidths) (mk := fun wcode => ⟨6#4, 0#4, wcode, 0#20⟩)).symm

end Sys2Proof
end

section
/-! PROOFS. How the engine completes a word that is no legal command (30_encoding.md R77, 60_exceptions.md R133). -/

namespace Sys2Proof.Machine

/-- On each of its turns a busy engine takes its turn on the state it is given: the script without the move that gave
it the turn, or the script as it is (10_state.md R15). -/
theorem step_engineTurn {s u : State} {rest : List Move} (hbusy : s.busy = true)
    (hturn : (s.script = [] ∧ u = s) ∨ (s.script = .engine :: rest ∧ u = { s with script := rest }) ∨
      (s.script = .wait :: rest ∧ u = s)) :
    step s = engineTurn u ∧ u.lat = s.lat ∧ u.ctx = s.ctx := by
  obtain ⟨h, rfl⟩ | ⟨h, rfl⟩ | ⟨h, rfl⟩ := hturn
  · exact ⟨step_nil h, rfl, rfl⟩
  · exact ⟨step_engine h, rfl, rfl⟩
  · exact ⟨step_wait_busy h hbusy, rfl, rfl⟩

/-- The code a rejected word is reported with (30_encoding.md R77): a reserved lane width comes after the missing
handle. -/
def rejectCode (r : Reject) (ctx : Option Ctx) : ErrCode :=
  match r with
  | .illegalCommand => .illegalCommand
  | .reservedAlg => .unknownAlgorithm
  | .reservedWidth => if ctx = none then .noHandle else .invalidInput

theorem finish_rejected (r : Reject) (s : State) :
    finish s (rejected r s) = .next { s with lat := none, done := true, err := some (rejectCode r s.ctx) } := by
  cases r with
  | illegalCommand => rfl
  | reservedAlg => rfl
  | reservedWidth =>
    obtain ⟨ctx⟩ := s
    cases ctx with
    | none => rfl
    | some c => rfl

/-- Settles O5: on each turn the engine completes the word as its rejection is reported. -/
theorem rejectedWordsCompleteWithTheirError : Obligations.RejectedWordsCompleteWithTheirError := by
  intro s u l rest hlat hturn
  obtain ⟨hstep, hulat, huctx⟩ := step_engineTurn (by simp [State.busy, hlat]) hturn
  have hrejected : ∀ r, decode l.cmd = .error r →
      step s = .next { u with lat := none, done := true, err := some (rejectCode r s.ctx) } := by
    intro r hdec
    rw [hstep, engineTurn_rejected (hulat.trans hlat) hdec, finish_rejected, huctx]
  refine ⟨fun h => ?_, fun h => ?_, fun h => ?_⟩
  · exact hrejected _ ((illegalWordsAreExactlyThoseOfTheDecoder l.cmd).2 h)
  · exact hrejected _ ((reservedCodesAreExactlyTheseWords l.cmd).1.2 h)
  · exact hrejected _ ((reservedCodesAreExactlyTheseWords l.cmd).2.2 h)

end Sys2Proof.Machine
end

section
/-! PROOFS. The mixing step in closed form, what it makes of the all-zero state, and what the variants of a family
share (40_mixing.md R81 to R94). -/

namespace Sys2Proof.Machine

/-! ### The closed forms -/

/-- The two shifts of `rotl` are the library's rotation (00_scope.md R8). -/
theorem rotl_eq_rotateLeft (x : Word64) {n : Nat} (h : n < 64) : rotl x n = x.rotateLeft n := by
  rw [BitVec.rotateLeft_eq_rotateLeftAux_of_lt h, rotl, BitVec.rotateLeftAux]

/-- Settles O23: the rotations by 45, 23 and 7 are the library's, and the rest is what each scrambler computes. -/
theorem mixingStepOfTheSmallFamily : Obligations.MixingStepOfTheSmallFamily := by
  intro scr s0 s1 s2 s3 adv
  cases scr <;>
    simp only [mix, Gen.raw, Gen.advance, Ctx.output, Ctx.update, out256, upd256, low32, rotl_eq_rotateLeft,
      Nat.reduceLT]

/-- Settles O24: the rotations by 21, 17 and 7 are the library's, and the rest is what each scrambler computes. -/
theorem mixingStepOfTheLargeFamily : Obligations.MixingStepOfTheLargeFamily := by
  intro scr s0 s1 s2 s3 s4 s5 s6 s7 adv
  cases scr <;>
    simp only [mix, Gen.raw, Gen.advance, Ctx.output, Ctx.update, out512, upd512, low32, rotl_eq_rotateLeft,
      Nat.reduceLT]

/-! ### The all-zero state -/

/-- A context whose words are all 0 is its variant's context of so many zeros. -/
theorem Ctx.eq_ctxOfWords_zeros {c : Ctx} (h : ∀ w ∈ c.words, w = 0#64) :
    c = ctxOfWords c.alg (List.replicate c.alg.wc 0#64) := by
  rw [← List.eq_replicate_iff.2 ⟨c.words_length, h⟩, ctxOfWords_self]

theorem ctxOfWords_zeros_update (alg : Alg) :
    (ctxOfWords alg (List.replicate alg.wc 0#64)).update = ctxOfWords alg (List.replicate alg.wc 0#64) := by
  obtain ⟨fam, scr⟩ := alg
  cases fam <;> cases scr <;> decide

theorem ctxOfWords_zeros_output (alg : Alg) : (ctxOfWords alg (List.replicate alg.wc 0#64)).output = 0#64 := by
  obtain ⟨fam, scr⟩ := alg
  cases fam <;> cases scr <;> decide

/-- The update fixes the all-zero state (40_mixing.md R94). -/
theorem Ctx.update_of_words_zero {c : Ctx} (h : ∀ w ∈ c.words, w = 0#64) : c.update = c := by
  rw [c.eq_ctxOfWords_zeros h, ctxOfWords_zeros_update]

/-- The output of the all-zero state is 0 (40_mixing.md R94). -/
theorem Ctx.output_of_words_zero {c : Ctx} (h : ∀ w ∈ c.words, w = 0#64) : c.output = 0#64 := by
  rw [c.eq_ctxOfWords_zeros h, ctxOfWords_zeros_output]

/-- A context that the update fixes stays as it is, however often it is mixed. -/
theorem Gen.after_ctx_of_update_eq {g : Gen} (h : g.ctx.update = g.ctx) (n : Nat) : (g.after n).ctx = g.ctx := by
  induction n with
  | zero => rfl
  | succ m ih => rw [Gen.after_succ', Gen.advance, ih, h]

/-- Settles O25: the update fixes the all-zero state, so every later output is that state's. -/
theorem zeroStateIsAFixedPoint : Obligations.ZeroStateIsAFixedPoint := by
  intro c adv n h
  have hctx : (Gen.after n ⟨c, adv⟩).ctx = c := Gen.after_ctx_of_update_eq (Ctx.update_of_words_zero h) n
  have hout : c.output = 0#64 := Ctx.output_of_words_zero h
  refine ⟨hctx, hout, ?_, Gen.after_adv _ n⟩
  rw [Gen.raw, hctx, hout]
  rfl

/-! ### The variants of a family -/

/-- The update of the words a context is made of does not look at the scrambler (40_mixing.md R85). -/
theorem ctxOfWords_update_words {alg alg' : Alg} (h : alg.family = alg'.family) (ws : List Word64) :
    (ctxOfWords alg ws).update.words = (ctxOfWords alg' ws).update.words := by
  obtain ⟨fam, scr⟩ := alg
  obtain ⟨fam', scr'⟩ := alg'
  obtain rfl : fam = fam' := h
  cases fam <;> rfl

/-- The updated words are a function of the family and the words (40_mixing.md R85). -/
theorem Ctx.update_words_congr {c c' : Ctx} (hfam : c.alg.family = c'.alg.family) (hwords : c.words = c'.words) :
    c.update.words = c'.update.words := by
  have h := ctxOfWords_update_words hfam c.words
  rwa [ctxOfWords_self, hwords, ctxOfWords_self] at h

/-- Settles O26, by induction on the number of steps: each keeps the families and takes equal words to equal words. -/
theorem variantsOfAFamilyPassThroughTheSameStates : Obligations.VariantsOfAFamilyPassThroughTheSameStates := by
  intro c c' adv n hfam hwords
  induction n with
  | zero => exact hwords
  | succ m ih =>
    rw [Gen.after_succ', Gen.after_succ']
    exact Ctx.update_words_congr (by rw [Gen.after_alg, Gen.after_alg, hfam]) ih

end Sys2Proof.Machine
end

section
/-! PROOFS. The commands of the generator context (41_generator.md): what CREATE and SET_STATE read and leave, what
GET_STATE writes and leaves, and that the two directions are inverse. -/

namespace Sys2Proof.Machine

/-! ### NOP and RELEASE -/

/-- Settles O32: its rule completes with the state as it is. -/
theorem nopOnlyCompletes : Obligations.NopOnlyCompletes := fun _ => rfl

/-- Settles O35, by the two cases of its rule. -/
theorem releaseEndsTheHandle : Obligations.ReleaseEndsTheHandle := by
  intro s
  refine ⟨fun c hc => ?_, fun hc => finish_noHandle (release_none hc)⟩
  rw [exec_release, release_some hc]
  rfl

/-! ### A load of state words: what CREATE and SET_STATE share -/

/-- The first access that the platform refuses is one only (20_memory.md R56). -/
theorem firstRefused_unique {ok : Nat → Bool} {i j : Nat} (hi : ∀ m, m < i → ok m = true) (hri : ok i = false)
    (hj : ∀ m, m < j → ok m = true) (hrj : ok j = false) : i = j := by
  rcases Nat.lt_trichotomy i j with hlt | heq | hgt
  · simp [hj i hlt] at hri
  · exact heq
  · simp [hi j hgt] at hrj

/-- How a rule ends that loads the state words of a variant from `lat.ADDR`, as CREATE and SET_STATE do: the errors in
the order of 60_exceptions.md R133, over the state as it was, or the completion `u` (41_generator.md R98, R105). -/
def loadsState (alg : Alg) (s u : State) (e : Ending) : Prop :=
  (s.args.len.toNat < alg.stateBytes ∧ e = .raise .insufficientSeed s) ∨
  (alg.stateBytes ≤ s.args.len.toNat ∧ Config.addressLimit < s.args.addr.toNat + alg.stateBytes ∧
    e = .raise (.range s.args.addr) s) ∨
  (alg.stateBytes ≤ s.args.len.toNat ∧ s.args.addr.toNat + alg.stateBytes ≤ Config.addressLimit ∧
    s.coversDevice s.args.addr.toNat alg.stateBytes = true ∧ e = .refuse .deviceRange) ∨
  (alg.stateBytes ≤ s.args.len.toNat ∧ s.args.addr.toNat + alg.stateBytes ≤ Config.addressLimit ∧
    s.coversDevice s.args.addr.toNat alg.stateBytes = false ∧
    ((∃ j, j < alg.wc ∧ (∀ m, m < j → s.memOk (s.args.addr.toNat + 8 * m) 8 .read = true) ∧
        s.memOk (s.args.addr.toNat + 8 * j) 8 .read = false ∧
        e = .raise (.bus (BitVec.ofNat 32 (s.args.addr.toNat + 8 * j))) s) ∨
      ((∀ m, m < alg.wc → s.memOk (s.args.addr.toNat + 8 * m) 8 .read = true) ∧ e = .complete u)))

/-- The context that a load of a variant's words makes of memory (20_memory.md R50). -/
def loadedCtx (alg : Alg) (s : State) : Ctx := ctxOfWords alg (memWords s.mem s.args.addr.toNat alg.wc)

theorem create_loadsState (alg : Alg) (s : State) :
    loadsState alg s { s with ctx := some (loadedCtx alg s), adv := 0#64, shLen := 0#32, swp := false }
      (create alg s) := create_cases alg s

theorem setState_loadsState {s : State} {c : Ctx} (h : s.ctx = some c) :
    loadsState c.alg s { s with ctx := some (loadedCtx c.alg s) } (setState s) := setState_cases h

theorem loadedCtx_alg (alg : Alg) (s : State) : (loadedCtx alg s).alg = alg := ctxOfWords_alg _ _

theorem loadedCtx_words (alg : Alg) (s : State) :
    (loadedCtx alg s).words = memWords s.mem s.args.addr.toNat alg.wc := ctxOfWords_words (memWords_length _ _ _)

/-- Word `j` of a loaded context is the big-endian number of its eight bytes of memory (00_scope.md R12). -/
theorem loadedCtx_word (alg : Alg) (s : State) (j : Nat) (hj : j < alg.wc) :
    ∃ word, (loadedCtx alg s).words[j]? = some word ∧ word.toNat =
      ∑ p ∈ Finset.range 8, (readByte s.mem (s.args.addr.toNat + 8 * j + p)).toNat * 2 ^ (8 * (7 - p)) := by
  rw [loadedCtx_words]
  exact ⟨_, memWords_getElem? _ _ _ _ hj, be64_toNat _ _⟩

section
variable {alg : Alg} {s u t : State} {e : Ending} (h : loadsState alg s u e)
include h

theorem loadsState_complete (hlen : alg.stateBytes ≤ s.args.len.toNat)
    (hfit : s.args.addr.toNat + alg.stateBytes ≤ Config.addressLimit)
    (hdev : s.coversDevice s.args.addr.toNat alg.stateBytes = false)
    (hok : ∀ j, j < alg.wc → s.memOk (s.args.addr.toNat + 8 * j) 8 .read = true) :
    finish s e = .next u.completed := by
  rcases h with ⟨hshort, -⟩ | ⟨-, hout, -⟩ | ⟨-, -, hcov, -⟩ | ⟨-, -, -, ⟨j, hj, -, hbad, -⟩ | ⟨-, he⟩⟩
  · omega
  · omega
  · simp [hdev] at hcov
  · simp [hok j hj] at hbad
  · rw [he, finish]

theorem loadsState_short (hshort : s.args.len.toNat < alg.stateBytes) :
    finish s e = .next (s.raised .insufficientSeed) := by
  rcases h with ⟨-, he⟩ | ⟨hlen, -⟩ | ⟨hlen, -⟩ | ⟨hlen, -⟩
  · rw [he, finish]
  all_goals omega

theorem loadsState_pastTop (hlen : alg.stateBytes ≤ s.args.len.toNat)
    (hout : Config.addressLimit < s.args.addr.toNat + alg.stateBytes) :
    finish s e = .next (s.raised (.range s.args.addr)) := by
  rcases h with ⟨hshort, -⟩ | ⟨-, -, he⟩ | ⟨-, hfit, -⟩ | ⟨-, hfit, -⟩
  · omega
  · rw [he, finish]
  all_goals omega

theorem loadsState_bus (hlen : alg.stateBytes ≤ s.args.len.toNat)
    (hfit : s.args.addr.toNat + alg.stateBytes ≤ Config.addressLimit)
    (hdev : s.coversDevice s.args.addr.toNat alg.stateBytes = false) {j : Nat} (hj : j < alg.wc)
    (hok : ∀ m, m < j → s.memOk (s.args.addr.toNat + 8 * m) 8 .read = true)
    (hbad : s.memOk (s.args.addr.toNat + 8 * j) 8 .read = false) :
    finish s e = .next (s.raised (.bus (BitVec.ofNat 32 (s.args.addr.toNat + 8 * j)))) := by
  rcases h with ⟨hshort, -⟩ | ⟨-, hout, -⟩ | ⟨-, -, hcov, -⟩ | ⟨-, -, -, ⟨i, -, hoki, hbadi, he⟩ | ⟨hall, -⟩⟩
  · omega
  · omega
  · simp [hdev] at hcov
  · rw [he, firstRefused_unique hoki hbadi hok hbad, finish]
  · simp [hall j hj] at hbad

/-- A load that goes on has completed, or reports an error over the state as it was (60_exceptions.md R135). -/
theorem loadsState_next (ht : finish s e = .next t) : t = u.completed ∨ ∃ err, t = s.raised err := by
  rcases h with ⟨-, he⟩ | ⟨-, -, he⟩ | ⟨-, -, -, he⟩ | ⟨-, -, -, ⟨j, -, -, -, he⟩ | ⟨-, he⟩⟩ <;>
    rw [he] at ht <;> cases ht
  · exact .inr ⟨_, rfl⟩
  · exact .inr ⟨_, rfl⟩
  · exact .inr ⟨_, rfl⟩
  · exact .inl rfl

theorem loadsState_success (ht : finish s e = .next t) (herr : t.err = none) : t = u.completed := by
  obtain rfl | ⟨err, rfl⟩ := loadsState_next h ht
  · rfl
  · cases herr

end

/-- Settles O33, by the completion of a load. -/
theorem createMakesTheContextOfItsSeed : Obligations.CreateMakesTheContextOfItsSeed := by
  intro s l i alg hlat hi hlen hfit hdev hok
  obtain rfl := State.args_of_lat hlat
  rw [exec_create hi]
  exact ⟨loadedCtx alg s, loadsState_complete (create_loadsState alg s) hlen hfit hdev hok, loadedCtx_alg alg s,
    loadedCtx_word alg s⟩

/-- Settles O38, by the completion of a load. -/
theorem setStateOverwritesTheStateWords : Obligations.SetStateOverwritesTheStateWords := by
  intro s l c hlat hc hlen hfit hdev hok
  obtain rfl := State.args_of_lat hlat
  exact ⟨loadedCtx c.alg s, loadsState_complete (setState_loadsState hc) hlen hfit hdev hok, loadedCtx_alg c.alg s,
    loadedCtx_word c.alg s⟩

/-- Settles O34, by the three errors of a load. -/
theorem failedCreateLeavesTheOldHandle : Obligations.FailedCreateLeavesTheOldHandle := by
  intro s l i alg hlat hi
  obtain rfl := State.args_of_lat hlat
  have hload := create_loadsState alg s
  rw [exec_create hi]
  exact ⟨loadsState_short hload, loadsState_pastTop hload,
    fun hlen hfit hdev _ => loadsState_bus hload hlen hfit hdev⟩

/-- Settles O39, by the three errors of a load. -/
theorem failedSetStateLeavesTheState : Obligations.FailedSetStateLeavesTheState := by
  intro s l c hlat hc
  obtain rfl := State.args_of_lat hlat
  have hload := setState_loadsState hc
  exact ⟨loadsState_short hload, loadsState_pastTop hload,
    fun hlen hfit hdev _ => loadsState_bus hload hlen hfit hdev⟩

/-- Settles O57: an error leaves the state but for its report, and a completed load writes the context, for CREATE the
counter and the shuffle too. -/
theorem createAndSetStateFrame : Obligations.CreateAndSetStateFrame := by
  rintro s t i (rfl | hcreate) h
  · obtain hc | ⟨c, hc⟩ := Option.eq_none_or_eq_some s.ctx
    · rw [exec_setState, setState_none hc] at h
      cases h
      simp [faultAddrOf]
    · obtain rfl | ⟨err, rfl⟩ := loadsState_next (setState_loadsState hc) h
      · simp [hc, loadedCtx_alg]
      · simp
  · obtain ⟨alg, hi⟩ := Option.isSome_iff_exists.1 hcreate
    have hne : i ≠ .setState := by
      rintro rfl
      cases hi
    rw [exec_create hi] at h
    obtain rfl | ⟨err, rfl⟩ := loadsState_next (create_loadsState alg s) h
    · simp [hne]
    · simp [hne]

/-! ### GET_STATE -/

/-- Memory with the image of state words written from an address (20_memory.md R51). -/
def withImage (mem : List Host.Cell) (a : Nat) (ws : List Word64) : List Host.Cell :=
  writeBytes mem a (ws.flatMap beBytes)

/-- Byte `p` of word `j` of an image (00_scope.md R12). -/
theorem readByte_withImage {mem : List Host.Cell} (hwf : memWf mem = true) (a : Nat) {ws : List Word64} {j p : Nat}
    {word : Word64} (hj : ws[j]? = some word) (hp : p < 8) :
    (readByte (withImage mem a ws) (a + 8 * j + p)).toNat = word.toNat / 2 ^ (8 * (7 - p)) % 256 :=
  readByte_of_beBytes (readBytes_image hwf a hj) hp

theorem readByte_withImage_out (mem : List Host.Cell) {a x : Nat} {ws : List Word64}
    (hx : x < a ∨ a + ws.length * 8 ≤ x) : readByte (withImage mem a ws) x = readByte mem x :=
  readByte_writeBytes_out _ _ (by rwa [flatMap_beBytes_length])

/-- The state where the platform refused word `j` of an image: the words before `j` are written, and the bytes of word `j`
are free (41_generator.md R104). -/
def imageCutAt (s : State) (c : Ctx) (j : Nat) : State :=
  ({ s with mem := withImage s.mem s.args.addr.toNat (c.words.take j) } : State).scramble (s.args.addr.toNat + 8 * j) 8

/-- An image cut short writes memory and the count of free values only. -/
theorem imageCutAt_eq (s : State) (c : Ctx) (j : Nat) :
    imageCutAt s c j = { s with mem := (imageCutAt s c j).mem, fresh := s.fresh + 8 } := State.scramble_eq _ _ _

theorem readByte_imageCutAt {s : State} (hwf : memWf s.mem = true) {c : Ctx} {j k p : Nat} {word : Word64}
    (hk : k < j) (hword : c.words[k]? = some word) (hp : p < 8) :
    (readByte (imageCutAt s c j).mem (s.args.addr.toNat + 8 * k + p)).toNat = word.toNat / 2 ^ (8 * (7 - p)) % 256 := by
  rw [imageCutAt, State.scramble_out _ (by omega)]
  exact readByte_withImage hwf _ (by rw [List.getElem?_take_of_lt hk, hword]) hp

theorem readByte_imageCutAt_out (s : State) (c : Ctx) {j x : Nat}
    (hx : x < s.args.addr.toNat ∨ s.args.addr.toNat + 8 * j + 8 ≤ x) :
    readByte (imageCutAt s c j).mem x = readByte s.mem x := by
  rw [imageCutAt, State.scramble_out _ (by omega)]
  refine readByte_withImage_out _ ?_
  rw [List.length_take]
  omega

section
variable {s t : State} {c : Ctx} (hc : s.ctx = some c)
include hc

theorem getState_complete (hfit : s.args.addr.toNat + c.alg.stateBytes ≤ Config.addressLimit)
    (hdev : s.coversDevice s.args.addr.toNat c.alg.stateBytes = false)
    (hok : ∀ j, j < c.alg.wc → s.memOk (s.args.addr.toNat + 8 * j) 8 .write = true) :
    getState s = .complete { s with mem := withImage s.mem s.args.addr.toNat c.words } := by
  rcases getState_cases hc with ⟨hout, -⟩ | ⟨-, hcov, -⟩ | ⟨-, -, ⟨j, hj, -, hbad, -⟩ | ⟨-, e⟩⟩
  · omega
  · simp [hdev] at hcov
  · simp [hok j hj] at hbad
  · exact e

theorem getState_bus (hfit : s.args.addr.toNat + c.alg.stateBytes ≤ Config.addressLimit)
    (hdev : s.coversDevice s.args.addr.toNat c.alg.stateBytes = false) {j : Nat} (hj : j < c.alg.wc)
    (hok : ∀ m, m < j → s.memOk (s.args.addr.toNat + 8 * m) 8 .write = true)
    (hbad : s.memOk (s.args.addr.toNat + 8 * j) 8 .write = false) :
    getState s = .raise (.bus (BitVec.ofNat 32 (s.args.addr.toNat + 8 * j))) (imageCutAt s c j) := by
  rcases getState_cases hc with ⟨hout, -⟩ | ⟨-, hcov, -⟩ | ⟨-, -, ⟨i, -, hoki, hbadi, e⟩ | ⟨hall, -⟩⟩
  · omega
  · simp [hdev] at hcov
  · obtain rfl := firstRefused_unique hoki hbadi hok hbad
    exact e
  · simp [hall j hj] at hbad

/-- A GET_STATE that goes on with a handle reports RANGE over the state as it was, or BUS over an image cut short, or
has written the image (41_generator.md R103, R104). -/
theorem exec_getState_next (h : exec .getState s = .next t) :
    t = s.raised (.range s.args.addr) ∨ (∃ j a, j < c.alg.wc ∧ t = (imageCutAt s c j).raised (.bus a)) ∨
    t = ({ s with mem := withImage s.mem s.args.addr.toNat c.words } : State).completed := by
  rw [exec_getState] at h
  rcases getState_cases hc with ⟨-, e⟩ | ⟨-, -, e⟩ | ⟨-, -, ⟨j, hj, -, -, e⟩ | ⟨-, e⟩⟩ <;> rw [e] at h <;> cases h
  · exact .inl rfl
  · exact .inr (.inl ⟨j, _, hj, rfl⟩)
  · exact .inr (.inr rfl)

theorem exec_getState_success (h : exec .getState s = .next t) (herr : t.err = none) :
    t = ({ s with mem := withImage s.mem s.args.addr.toNat c.words } : State).completed := by
  obtain rfl | ⟨j, a, -, rfl⟩ | rfl := exec_getState_next hc h
  · cases herr
  · cases herr
  · rfl

end

/-- Settles O36, by what an image's bytes are. -/
theorem getStateWritesTheStateImage : Obligations.GetStateWritesTheStateImage := by
  intro s l c hlat hc hwf hfit hdev hok
  obtain rfl := State.args_of_lat hlat
  refine ⟨withImage s.mem s.args.addr.toNat c.words, ?_, fun j word p hj hp => readByte_withImage hwf _ hj hp,
    fun x hx => readByte_withImage_out _ (by rwa [Ctx.words_length])⟩
  rw [exec_getState, getState_complete hc hfit hdev hok]
  rfl

/-- Settles O37, by what the bytes of an image cut short are. -/
theorem getStateBusErrorLeavesTheEarlierWords : Obligations.GetStateBusErrorLeavesTheEarlierWords := by
  intro s l c j hlat hc hwf hfit hdev hj hok hbad
  obtain rfl := State.args_of_lat hlat
  refine ⟨(imageCutAt s c j).mem, s.fresh + 8, ?_, fun k word p hk hword hp => readByte_imageCutAt hwf hk hword hp,
    fun x hx => readByte_imageCutAt_out s c hx⟩
  rw [exec_getState, getState_bus hc hfit hdev hj hok hbad, imageCutAt_eq]
  rfl

/-- GET_STATE writes memory, its completion, and `FAULT_ADDR` and the count of free values with an error only; of
memory it writes its range only (41_generator.md R103, R104). -/
theorem exec_getState_frame {s t : State} (h : exec .getState s = .next t) :
    ∃ err faultAddr mem fresh,
      t = { s with lat := none, done := true, err := err, faultAddr := faultAddr, mem := mem, fresh := fresh } ∧
      (err = none → faultAddr = s.faultAddr ∧ fresh = s.fresh) ∧
      ∀ x, (∀ c, s.ctx = some c → x < s.args.addr.toNat ∨ s.args.addr.toNat + c.alg.wc * 8 ≤ x) →
        readByte mem x = readByte s.mem x := by
  obtain hc | ⟨c, hc⟩ := Option.eq_none_or_eq_some s.ctx
  · rw [exec_getState, getState_none hc] at h
    cases h
    exact ⟨_, _, _, _, rfl, nofun, fun _ _ => rfl⟩
  · obtain rfl | ⟨j, a, hj, rfl⟩ | rfl := exec_getState_next hc h
    · exact ⟨_, _, _, _, rfl, nofun, fun _ _ => rfl⟩
    · refine ⟨some .bus, a, (imageCutAt s c j).mem, s.fresh + 8, ?_, nofun, fun x hx => ?_⟩
      · rw [imageCutAt_eq]
        rfl
      · have hout := hx c hc
        exact readByte_imageCutAt_out s c (by omega)
    · refine ⟨_, _, _, _, rfl, fun _ => ⟨rfl, rfl⟩, fun x hx => readByte_withImage_out _ ?_⟩
      rw [Ctx.words_length]
      exact hx c hc

/-- Settles O58, from the frame of GET_STATE. -/
theorem getStateFrame : Obligations.GetStateFrame := by
  intro s t l hlat h
  obtain rfl := State.args_of_lat hlat
  obtain ⟨err, faultAddr, mem, fresh, rfl, hsuccess, hbytes⟩ := exec_getState_frame h
  simp only [true_and]
  exact ⟨hsuccess, hbytes⟩

/-! ### The two directions -/

/-- An image read back in one piece is the bytes of its words. -/
theorem readBytes_withImage {mem : List Host.Cell} (hwf : memWf mem = true) (a : Nat) (ws : List Word64) :
    readBytes (withImage mem a ws) a (ws.length * 8) = ws.flatMap beBytes := by
  rw [← flatMap_beBytes_length]
  exact readBytes_writeBytes_same hwf a _

/-- A SET_STATE from the image of the handle's own words loads the context it had (41_generator.md R106). -/
theorem exec_setState_of_image {s t : State} {mem : List Host.Cell} {c : Ctx}
    (h : exec .setState s = .next t) (herr : t.err = none) (hc : s.ctx = some c) (hwf : memWf mem = true)
    (hmem : s.mem = withImage mem s.args.addr.toNat c.words) : t.ctx = some c := by
  obtain rfl := loadsState_success (setState_loadsState hc) h herr
  have hload : loadedCtx c.alg s = c := by
    rw [loadedCtx, hmem, withImage, ← Ctx.words_length, memWords_image hwf, ctxOfWords_self]
  exact congrArg some hload

/-- The image of the context that CREATE made is the seed it was made of (41_generator.md R106). -/
theorem getState_after_create {s t t' : State} {l' : Latched} {i : Instr} {alg : Alg} (hwf : memWf s.mem = true)
    (hi : createAlg i = some alg) (hcreate : exec i s = .next t) (herr : t.err = none)
    (hget : exec .getState { t with lat := some l' } = .next t') (herr' : t'.err = none) :
    readBytes t'.mem l'.addr.toNat (alg.wc * 8) = readBytes s.mem s.args.addr.toNat (alg.wc * 8) := by
  rw [exec_create hi] at hcreate
  obtain rfl := loadsState_success (create_loadsState alg s) hcreate herr
  obtain rfl := exec_getState_success (c := loadedCtx alg s) rfl hget herr'
  have himage := readBytes_withImage hwf l'.addr.toNat (loadedCtx alg s).words
  rw [Ctx.words_length, loadedCtx_alg] at himage
  calc readBytes (withImage s.mem l'.addr.toNat (loadedCtx alg s).words) l'.addr.toNat (alg.wc * 8)
      = (loadedCtx alg s).words.flatMap beBytes := himage
    _ = readBytes s.mem s.args.addr.toNat (alg.wc * 8) := by rw [loadedCtx_words, flatMap_memWords]

/-- SET_STATE from what GET_STATE wrote loads the context it was written from (41_generator.md R106). -/
theorem setState_after_getState {s t t' : State} {l' : Latched} (hwf : memWf s.mem = true)
    (hget : exec .getState s = .next t) (herr : t.err = none) (haddr : l'.addr = s.args.addr)
    (hset : exec .setState { t with lat := some l' } = .next t') (herr' : t'.err = none) : t'.ctx = s.ctx := by
  obtain hc | ⟨c, hc⟩ := Option.eq_none_or_eq_some s.ctx
  · rw [exec_getState, getState_none hc] at hget
    cases hget
    cases herr
  · obtain rfl := exec_getState_success hc hget herr
    have himage : withImage s.mem s.args.addr.toNat c.words = withImage s.mem l'.addr.toNat c.words := by rw [haddr]
    rw [hc]
    exact exec_setState_of_image hset herr' hc hwf himage

/-- Settles O41, its two halves. -/
theorem stateImagesRoundTrip : Obligations.StateImagesRoundTrip := by
  refine ⟨fun s t t' l l' i alg hwf hlat hi hcreate herr hget herr' => ?_,
    fun s t t' l l' hwf hlat hget herr haddr hset herr' => ?_⟩
  · obtain rfl := State.args_of_lat hlat
    exact getState_after_create hwf hi hcreate herr hget herr'
  · obtain rfl := State.args_of_lat hlat
    exact setState_after_getState hwf hget herr haddr hset herr'

end Sys2Proof.Machine
end

section
/-! PROOFS. The sampler's bound, and what ROLL and a shuffle step make of the first accepted draw, or of none
(42_sampler.md R108 to R115). -/

namespace Sys2Proof.Machine

/-! ### The bound -/

theorem rollBound_add_mod (k : Word32) : rollBound k + 4294967296 % k.toNat = 4294967296 :=
  Nat.sub_add_cancel (Nat.mod_le _ _)

theorem rollBound_le (k : Word32) : rollBound k ≤ 4294967296 := Nat.sub_le _ _

/-- The bound is the quotient's multiple of `k` (42_sampler.md R110). -/
theorem rollBound_eq_mul_div (k : Word32) : rollBound k = k.toNat * (4294967296 / k.toNat) :=
  Nat.mul_div_self_eq_mod_sub_self.symm

theorem dvd_rollBound (k : Word32) : k.toNat ∣ rollBound k := Nat.dvd_sub_mod _

/-- No multiple of `k` up to `2^32` exceeds the bound (42_sampler.md R110). -/
theorem le_rollBound_of_dvd {k : Word32} {m : Nat} (hdvd : k.toNat ∣ m) (hle : m ≤ 4294967296) :
    m ≤ rollBound k := by
  obtain ⟨q, rfl⟩ := hdvd
  rw [rollBound_eq_mul_div]
  rcases Nat.eq_zero_or_pos k.toNat with h0 | hpos
  · simp [h0]
  · exact Nat.mul_le_mul_left _ ((Nat.le_div_iff_mul_le hpos).2 (Nat.mul_comm _ q ▸ hle))

theorem le_rollBound (k : Word32) : k.toNat ≤ rollBound k :=
  le_rollBound_of_dvd (Nat.dvd_refl _) k.isLt.le

/-- The multiple of `k` after the bound is past `2^32` (42_sampler.md R110). -/
theorem lt_rollBound_add {k : Word32} (hk : k ≠ 0#32) : 4294967296 < rollBound k + k.toNat := by
  have hmod : 4294967296 % k.toNat < k.toNat := Nat.mod_lt _ (BitVec.toNat_pos_of_ne_zero hk)
  have hbound := rollBound_add_mod k
  omega

/-- At least half of all draws are accepted (42_sampler.md R110). -/
theorem half_lt_rollBound {k : Word32} (hk : k ≠ 0#32) : 2147483648 < rollBound k := by
  have hnext := lt_rollBound_add hk
  have hfirst := le_rollBound k
  omega

theorem rollBound_of_two_pow {k : Word32} {j : Nat} (h : k.toNat = 2 ^ j) : rollBound k = 4294967296 := by
  have hj : j ≤ 32 := (Nat.pow_le_pow_iff_right Nat.one_lt_two).1 (h ▸ k.isLt.le)
  have hdvd : k.toNat ∣ 4294967296 := h ▸ Nat.pow_dvd_pow 2 hj
  exact Nat.le_antisymm (rollBound_le k) (le_rollBound_of_dvd hdvd (Nat.le_refl _))

/-- Above half of `2^32`, twice `k` is past it, so the bound is `k` (42_sampler.md R110). -/
theorem rollBound_of_half_lt {k : Word32} (h : 2147483648 < k.toNat) : rollBound k = k.toNat := by
  have hmod : 4294967296 % k.toNat = 4294967296 - k.toNat := by
    have hlt := k.isLt
    rw [Nat.mod_eq_sub_mod hlt.le, Nat.mod_eq_of_lt (by omega)]
  have hbound := rollBound_add_mod k
  omega

/-- Settles O27, from the bound as a multiple of `k` whose next multiple is past `2^32`. -/
theorem rollBoundIsTheLargestMultiple : Obligations.RollBoundIsTheLargestMultiple := fun k hk =>
  ⟨dvd_rollBound k, rollBound_le k, half_lt_rollBound hk, fun _ => le_rollBound_of_dvd,
    fun _ => rollBound_of_two_pow, rollBound_of_half_lt⟩

/-! ### The first accepted draw -/

/-- Some draw is the first accepted one, or none is ever accepted (42_sampler.md R112). -/
theorem firstAccepted_or_never (k : Word32) (g : Gen) :
    (∃ n, firstAccepted k g n) ∨ ∀ n, ¬ accepts k (g.after n) := by
  classical
  by_cases h : ∃ n, accepts k (g.after n)
  · exact .inl ⟨Nat.find h, fun _ => Nat.find_min h, Nat.find_spec h⟩
  · exact .inr (not_exists.1 h)

theorem firstAccepted_zero {k : Word32} {g : Gen} (h : accepts k g) : firstAccepted k g 0 :=
  ⟨fun _ hm => absurd hm (Nat.not_lt_zero _), h⟩

theorem sample_toNat {k : Word32} (hk : k ≠ 0#32) (g : Gen) : (sample k g).toNat = g.raw.toNat % k.toNat := by
  rw [sample_eq_umod hk, BitVec.toNat_umod]

/-- A power of two rejects no draw (42_sampler.md R110). -/
theorem accepts_of_two_pow {k : Word32} {j : Nat} (h : k.toNat = 2 ^ j) (g : Gen) : accepts k g := by
  refine .inr ?_
  rw [← rollBound, rollBound_of_two_pow h]
  exact g.raw.isLt

/-- A draw of 0 is never rejected (42_sampler.md R110, R113). -/
theorem accepts_of_raw_zero (k : Word32) {g : Gen} (h : g.raw = 0#32) : accepts k g := by
  by_cases hk : k = 0#32
  · exact .inl hk
  · rw [accepts_iff hk, h]
    exact Nat.zero_lt_of_lt (half_lt_rollBound hk)

theorem sample_of_raw_zero (k : Word32) {g : Gen} (h : g.raw = 0#32) : sample k g = 0#32 := by
  simp [sample, h]

/-- Above `2^31` an accepted draw is below `k`, and so its own sample (42_sampler.md R113). -/
theorem sample_of_half_lt {k : Word32} {g : Gen} (h : 2147483648 < k.toNat) (hacc : accepts k g) :
    sample k g = g.raw := by
  have hk : k ≠ 0#32 := by rintro rfl; simp at h
  have hlt : g.raw.toNat < k.toNat := rollBound_of_half_lt h ▸ (accepts_iff hk g).1 hacc
  exact BitVec.eq_of_toNat_eq ((sample_toNat hk g).trans (Nat.mod_eq_of_lt hlt))

/-! ### ROLL -/

/-- The state in which ROLL completes, its draw being the one after `n` rejected ones (42_sampler.md R115). -/
def rolled (s : State) (c : Ctx) (n : Nat) : State :=
  { s with
    lat := none
    done := true
    err := none
    out := sample s.args.argK (Gen.after n ⟨c, s.adv⟩)
    ctx := some (Gen.after (n + 1) ⟨c, s.adv⟩).ctx
    adv := s.adv + BitVec.ofNat 64 (n + 1) }

section
variable {s t : State} {c : Ctx} {n : Nat} (hc : s.ctx = some c)
include hc

/-- ROLL completes with its first accepted draw (42_sampler.md R111, R115). -/
theorem exec_roll_of_firstAccepted (h : firstAccepted s.args.argK ⟨c, s.adv⟩ n) :
    exec .roll s = .next (rolled s c n) := by
  have hrule : rollCommand s = .complete { s with
      out := sample s.args.argK (Gen.after n ⟨c, s.adv⟩)
      ctx := some (Gen.after (n + 1) ⟨c, s.adv⟩).ctx
      adv := (Gen.after (n + 1) ⟨c, s.adv⟩).adv } := by
    simp [rollCommand, hc, roll_of_firstAccepted h]
  rw [exec_roll, hrule, Gen.after_adv]
  rfl

/-- ROLL leaves the state as it is where no draw is ever accepted (42_sampler.md R112). -/
theorem exec_roll_of_never (h : ∀ n, ¬ accepts s.args.argK (Gen.after n ⟨c, s.adv⟩)) : exec .roll s = .next s := by
  have hrule : rollCommand s = .never := by simp [rollCommand, hc, roll_of_never h]
  rw [exec_roll, hrule]
  rfl

/-- A ROLL that has ended a latched command has completed at its first accepted draw (42_sampler.md R112, R115). -/
theorem exec_roll_ended (hbusy : s.lat ≠ none) (h : exec .roll s = .next t) (hend : t.lat = none) :
    ∃ n, firstAccepted s.args.argK ⟨c, s.adv⟩ n ∧ t = rolled s c n := by
  rcases firstAccepted_or_never s.args.argK ⟨c, s.adv⟩ with ⟨n, hfirst⟩ | hnever
  · rw [exec_roll_of_firstAccepted hc hfirst] at h
    cases h
    exact ⟨n, hfirst, rfl⟩
  · rw [exec_roll_of_never hc hnever] at h
    cases h
    exact absurd hend hbusy

/-- ROLL completes after one draw where it accepts the first (42_sampler.md R113). -/
theorem exec_roll_of_accepts (h : accepts s.args.argK ⟨c, s.adv⟩) :
    exec .roll s = .next (rolled s c 0) := exec_roll_of_firstAccepted hc (firstAccepted_zero h)

end

/-- Settles O28, by the rule with and without a handle. -/
theorem rollCompletesAtItsFirstAcceptedDraw : Obligations.RollCompletesAtItsFirstAcceptedDraw := by
  intro s l hlat
  obtain rfl := State.args_of_lat hlat
  exact ⟨fun hc => finish_noHandle (rollCommand_none hc), fun c n hc hfirst => exec_roll_of_firstAccepted hc hfirst⟩

/-- Settles O30: each clause is what the completed ROLL's sample is. -/
theorem rollResultsLieBelowTheBound : Obligations.RollResultsLieBelowTheBound := by
  intro s l c hlat hc
  obtain rfl := State.args_of_lat hlat
  have hbusy : s.lat ≠ none := by simp [hlat]
  refine ⟨fun t h hend hk => ?_, fun j hj => ?_, fun t h hend hlarge => ?_, fun hzero => ?_⟩
  · obtain ⟨n, -, rfl⟩ := exec_roll_ended hc hbusy h hend
    exact sample_lt hk _
  · have hk : s.args.argK ≠ 0#32 := fun h0 => (Nat.two_pow_pos j).ne (by rw [← hj, h0]; rfl)
    refine ⟨_, exec_roll_of_accepts hc (accepts_of_two_pow hj _), rfl, rfl, ?_⟩
    rw [← hj]
    exact sample_toNat hk _
  · obtain ⟨n, hfirst, rfl⟩ := exec_roll_ended hc hbusy h hend
    exact ⟨n, hfirst, sample_of_half_lt hlarge hfirst.2⟩
  · have hraw : Gen.raw ⟨c, s.adv⟩ = 0#32 := congrArg low32 (Ctx.output_of_words_zero hzero)
    exact ⟨_, exec_roll_of_accepts hc (accepts_of_raw_zero _ hraw), rfl, rfl, sample_of_raw_zero _ hraw⟩

/-! ### SHUF_STEP -/

section
variable {s : State} {c : Ctx} {n : Nat}

/-- A shuffle step is that of its first accepted draw (43_shuffle.md R119). -/
theorem shufStep_of_firstAccepted (h : firstAccepted s.shLen ⟨c, s.adv⟩ n) :
    shufStep c s = some ((Gen.after (n + 1) ⟨c, s.adv⟩).ctx, stepped s ⟨c, s.adv⟩ n) := by
  simp [shufStep, roll_of_firstAccepted h, stepped]

/-- A shuffle step has no end where no draw is ever accepted (42_sampler.md R112). -/
theorem shufStep_of_never (h : ∀ n, ¬ accepts s.shLen (Gen.after n ⟨c, s.adv⟩)) : shufStep c s = none := by
  simp [shufStep, roll_of_never h]

/-- SHUF_STEP at a length of at least 2 completes with its step's draw, at the length after it (43_shuffle.md R121). -/
theorem exec_shufStep_of_firstAccepted (hc : s.ctx = some c) (htwo : 2 ≤ s.shLen.toNat)
    (h : firstAccepted s.shLen ⟨c, s.adv⟩ n) :
    exec .shufStep s = .next
      ({ stepped s ⟨c, s.adv⟩ n with shLen := (stepped s ⟨c, s.adv⟩ n).outJ } : State).completed := by
  rw [exec_shufStep]
  rcases shufStepCommand_cases hc with ⟨hshort, -⟩ | ⟨-, hnone, -⟩ | ⟨c', u, -, hstep, hrule⟩
  · omega
  · simp [shufStep_of_firstAccepted h] at hnone
  · rw [shufStep_of_firstAccepted h] at hstep
    cases hstep
    rw [hrule, finish]

/-- SHUF_STEP at a length of at least 2 leaves the state as it is where no draw is ever accepted (42_sampler.md
R112). -/
theorem exec_shufStep_of_never (hc : s.ctx = some c) (htwo : 2 ≤ s.shLen.toNat)
    (h : ∀ n, ¬ accepts s.shLen (Gen.after n ⟨c, s.adv⟩)) : exec .shufStep s = .next s := by
  rw [exec_shufStep]
  rcases shufStepCommand_cases hc with ⟨hshort, -⟩ | ⟨-, -, hrule⟩ | ⟨c', u, -, hstep, -⟩
  · omega
  · rw [hrule, finish]
  · simp [shufStep_of_never h] at hstep

end

/-! ### Completion, or no accepted draw -/

/-- The loop has no value exactly where it rejects every draw of its fuel (notes/assumptions/6.md). -/
theorem rollLoop_eq_none_iff {k : Word32} (hk : k ≠ 0#32) (fuel : Nat) (g : Gen) :
    rollLoop fuel k g = none ↔ ∀ n, n < fuel → ¬ accepts k (g.after n) := by
  rcases rollLoop_cases hk fuel g with ⟨n, hn, hfirst, hsome⟩ | ⟨hall, hnone⟩
  · rw [hsome]
    exact iff_of_false (by simp) fun hall => hall n hn hfirst.2
  · exact iff_of_true hnone hall

/-- Settles O29: the draws have a first accepted one, or none. -/
theorem rollCompletesOrNeverAccepts : Obligations.RollCompletesOrNeverAccepts := by
  refine ⟨fun s l c hlat hc => ⟨?_, fun htwo => ?_⟩, fun fuel k g hk => rollLoop_eq_none_iff hk fuel g⟩
  · obtain rfl := State.args_of_lat hlat
    rcases firstAccepted_or_never s.args.argK ⟨c, s.adv⟩ with ⟨n, hfirst⟩ | hnever
    · exact .inl ⟨n, _, hfirst, exec_roll_of_firstAccepted hc hfirst, rfl, rfl⟩
    · exact .inr ⟨hnever, exec_roll_of_never hc hnever⟩
  · rcases firstAccepted_or_never s.shLen ⟨c, s.adv⟩ with ⟨n, hfirst⟩ | hnever
    · exact .inl ⟨n, _, hfirst, exec_shufStep_of_firstAccepted hc htwo hfirst, rfl, rfl⟩
    · exact .inr ⟨hnever, exec_shufStep_of_never hc htwo hnever⟩

end Sys2Proof.Machine
end

section
/-! PROOFS. The shuffle controller (43_shuffle.md): stream mode, and what a SHUFFLE leaves where it completes, where it
fails, and in every case. -/

namespace Sys2Proof.Machine

/-! ### Stream mode -/

/-- Settles O42, by the rule with and without a handle. -/
theorem shufInitLoadsTheLength : Obligations.ShufInitLoadsTheLength := by
  intro s l hlat
  obtain rfl := State.args_of_lat hlat
  refine ⟨fun c hc => ?_, fun hc => finish_noHandle (shufInit_none hc)⟩
  rw [exec_shufInit, shufInit_some hc]
  rfl

/-- SHUF_STEP below length 2 completes with `SWP` cleared (43_shuffle.md R121). -/
theorem exec_shufStep_short {s : State} {c : Ctx} (hc : s.ctx = some c) (hshort : s.shLen.toNat < 2) :
    exec .shufStep s = .next ({ s with swp := false } : State).completed := by
  rw [exec_shufStep]
  rcases shufStepCommand_cases hc with ⟨-, hrule⟩ | ⟨htwo, -⟩ | ⟨c', u, htwo, -⟩
  · rw [hrule, finish]
  all_goals omega

/-- Settles O43: no handle, a length below 2, and the step of the first accepted draw. -/
theorem shufStepReportsItsSwap : Obligations.ShufStepReportsItsSwap := by
  intro s
  refine ⟨fun hc => finish_noHandle (shufStepCommand_none hc), fun c hc => exec_shufStep_short hc,
    fun c n hc htwo hfirst => ?_⟩
  rw [exec_shufStep_of_firstAccepted hc htwo hfirst]
  simp only [stepped, State.completed, Gen.after_adv, bne, beq_eq_decide, decide_not, ne_eq]

/-! ### A round of SHUFFLE's loop -/

/-- The state in which a round of SHUFFLE's loop ends whose step makes the draw after `n` rejected ones and whose swap
leaves memory `mem` (43_shuffle.md R123). -/
def roundDone (s : State) (c : Ctx) (n : Nat) (mem : List Host.Cell) : State :=
  { stepped s ⟨c, s.adv⟩ n with mem := mem, shLen := s.shLen - 1#32 }

/-- SHUFFLE's loop below length 2 is over (43_shuffle.md R123). -/
theorem shuffleLoop_short (base w rounds : Nat) (c : Ctx) {s : State} (h : s.shLen.toNat < 2) :
    shuffleLoop base w rounds c s = .complete s := by
  cases rounds with
  | zero => rfl
  | succ n => exact if_pos h

/-- All that a loop that completes can do in its first round: nothing, below length 2; or the step of the first accepted
draw, which changes memory and no free value, and the rest of the loop (43_shuffle.md R123). -/
theorem shuffleLoop_complete_succ {base w rounds : Nat} {c : Ctx} {s u : State}
    (h : shuffleLoop base w (rounds + 1) c s = .complete u) :
    (s.shLen.toNat < 2 ∧ u = s) ∨
    (2 ≤ s.shLen.toNat ∧ ∃ n mem, firstAccepted s.shLen ⟨c, s.adv⟩ n ∧
      shuffleLoop base w rounds (Gen.after (n + 1) ⟨c, s.adv⟩).ctx (roundDone s c n mem) = .complete u) := by
  simp only [shuffleLoop] at h
  split at h
  · next hshort => cases h; exact .inl ⟨hshort, rfl⟩
  · next hlong =>
    refine .inr ⟨Nat.not_lt.1 hlong, ?_⟩
    split at h
    · cases h
    · next c' t hstep =>
      obtain ⟨n, hfirst, rfl, rfl⟩ := shufStep_stepped hstep
      split at h
      · exact ⟨n, s.mem, hfirst, h⟩
      · split at h
        · cases h
        · next v hswap =>
          obtain ⟨-, -, -, -, rfl⟩ := swap_ok hswap
          exact ⟨n, _, hfirst, h⟩

/-- A loop that completes takes no free value. -/
theorem shuffleLoop_complete_fresh {base w rounds : Nat} {c : Ctx} {s u : State}
    (h : shuffleLoop base w rounds c s = .complete u) : u.fresh = s.fresh := by
  induction rounds generalizing c s with
  | zero => cases h; rfl
  | succ k ih =>
    obtain ⟨-, rfl⟩ | ⟨-, n, mem, -, hrest⟩ := shuffleLoop_complete_succ h
    · rfl
    · exact (ih hrest :)

/-- Two states have the same generator, and report the same shuffle (10_state.md R32 to R35). -/
structure sameDraws (s s' : State) : Prop where
  ctx : s.ctx = s'.ctx
  adv : s.adv = s'.adv
  out : s.out = s'.out
  outJ : s.outJ = s'.outJ
  swp : s.swp = s'.swp
  shLen : s.shLen = s'.shLen

/-- One step from the same generator at the same length leaves the same draws (43_shuffle.md R119). -/
theorem sameDraws_roundDone {s s' : State} (hadv : s.adv = s'.adv) (hlen : s.shLen = s'.shLen) (c : Ctx) (n : Nat)
    (mem mem' : List Host.Cell) : sameDraws (roundDone s c n mem) (roundDone s' c n mem') := by
  constructor <;> simp only [roundDone, stepped, hadv, hlen]

/-- Two loops that complete draw and report alike, whatever buffers they work on: their draws do not depend on memory
(43_shuffle.md R127). -/
theorem shuffleLoop_sameDraws {base base' w w' rounds : Nat} {c : Ctx} {s s' u u' : State} (hsame : sameDraws s s')
    (h : shuffleLoop base w rounds c s = .complete u) (h' : shuffleLoop base' w' rounds c s' = .complete u') :
    sameDraws u u' := by
  induction rounds generalizing c s s' with
  | zero => cases h; cases h'; exact hsame
  | succ k ih =>
    have hcases' := shuffleLoop_complete_succ h'
    rw [← hsame.adv, ← hsame.shLen] at hcases'
    rcases shuffleLoop_complete_succ h with ⟨hshort, rfl⟩ | ⟨hlong, n, mem, hfirst, hrest⟩ <;>
      rcases hcases' with ⟨hshort', rfl⟩ | ⟨hlong', n', mem', hfirst', hrest'⟩
    · exact hsame
    · omega
    · omega
    · obtain rfl := firstAccepted_unique hfirst hfirst'
      exact ih (sameDraws_roundDone hsame.adv hsame.shLen c n mem mem') hrest hrest'

/-! ### How a SHUFFLE ends -/

/-- The state in which SHUFFLE's loop starts (43_shuffle.md R123). -/
def loopStart (s : State) : State := { s with shLen := s.args.len, swp := false }

/-- SHUFFLE's loop as the command runs it, its checks passed (43_shuffle.md R123). -/
def shuffleRun (w : Nat) (c : Ctx) (s : State) : Ending :=
  shuffleLoop s.args.addr.toNat w s.args.len.toNat c (loopStart s)

/-- A SHUFFLE whose checks pass is its loop (43_shuffle.md R123). -/
theorem exec_shuffle_run {s : State} {c : Ctx} {i : Instr} {w : Nat} (hi : shuffleWidth i = some w)
    (hc : s.ctx = some c) (hfit : s.args.addr.toNat + s.args.len.toNat * w ≤ Config.addressLimit)
    (hdev : 2 ≤ s.args.len.toNat → s.coversDevice s.args.addr.toNat (s.args.len.toNat * w) = false) :
    exec i s = finish s (shuffleRun w c s) := by
  rw [exec_shuffle hi]
  rcases shuffle_cases w hc with ⟨hout, -⟩ | ⟨-, htwo, hcov, -⟩ | ⟨-, -, hrule⟩
  · omega
  · simp [hdev htwo] at hcov
  · rw [hrule, shuffleRun, loopStart]

/-- All that a SHUFFLE that goes on can leave: itself, still busy, for ever; an error of its checks, over the state as it
was; or the completion or the bus error of its loop (43_shuffle.md R123, R125). -/
theorem exec_shuffle_next {s t : State} {i : Instr} {w : Nat} (hi : shuffleWidth i = some w)
    (h : exec i s = .next t) :
    t = s ∨ (∃ e, errCodeOf e ≠ .bus ∧ t = s.raised e) ∨
    ∃ c u, s.ctx = some c ∧ ((shuffleRun w c s = .complete u ∧ t = u.completed) ∨
      ∃ e, shuffleRun w c s = .raise e u ∧ t = u.raised e) := by
  rw [exec_shuffle hi] at h
  obtain hc | ⟨c, hc⟩ := Option.eq_none_or_eq_some s.ctx
  · rw [shuffle_none w hc] at h
    cases h
    exact .inr (.inl ⟨_, by decide, rfl⟩)
  · rcases shuffle_cases w hc with ⟨-, hrule⟩ | ⟨-, -, -, hrule⟩ | ⟨-, -, hrule⟩ <;> rw [hrule] at h
    · cases h
      exact .inr (.inl ⟨_, by simp [errCodeOf], rfl⟩)
    · cases h
    · obtain ⟨u, hrun, ht⟩ | ⟨e, u, hrun, ht⟩ | ⟨-, ht⟩ := finish_next h
      · exact .inr (.inr ⟨c, u, hc, .inl ⟨hrun, ht⟩⟩)
      · exact .inr (.inr ⟨c, u, hc, .inr ⟨e, hrun, ht⟩⟩)
      · exact .inl ht

section
variable {s u : State} {c : Ctx} {w : Nat} (hc : s.ctx = some c)
  (hrun : shuffleRun w c s = .complete u ∨ ∃ e, shuffleRun w c s = .raise e u)
include hc hrun

/-- A SHUFFLE's loop writes the shuffle and memory only (43_shuffle.md R123 to R125). -/
theorem shuffleRun_same : sameButShuffle s u := by
  obtain ⟨hsame, -⟩ := shuffleLoop_keeps (s := loopStart s) hc hrun
  exact sameButShuffle_trans (t := loopStart s) rfl hsame

/-- A SHUFFLE's loop keeps the variant. -/
theorem shuffleRun_alg : u.ctx.map Ctx.alg = s.ctx.map Ctx.alg := by
  obtain ⟨-, halg, -⟩ := shuffleLoop_keeps (s := loopStart s) hc hrun
  rw [halg, hc, Option.map_some]

/-- A SHUFFLE's loop leaves every byte outside the buffer (43_shuffle.md R123). -/
theorem shuffleRun_out (x : Nat) (hx : x < s.args.addr.toNat ∨ s.args.addr.toNat + s.args.len.toNat * w ≤ x) :
    readByte u.mem x = readByte s.mem x := by
  obtain ⟨-, -, -, hout, -⟩ := shuffleLoop_keeps (s := loopStart s) hc hrun
  exact hout x hx

end

/-- A SHUFFLE that has ended a latched command without an error has completed its loop. -/
theorem exec_shuffle_completed {s t : State} {i : Instr} {w : Nat} (hi : shuffleWidth i = some w)
    (hbusy : s.lat ≠ none) (h : exec i s = .next t) (hend : t.lat = none) (herr : t.err = none) :
    ∃ c u, s.ctx = some c ∧ shuffleRun w c s = .complete u ∧ t = u.completed := by
  obtain rfl | ⟨e, -, rfl⟩ | ⟨c, u, hc, ⟨hrun, ht⟩ | ⟨e, -, rfl⟩⟩ := exec_shuffle_next hi h
  · exact absurd hend hbusy
  · cases herr
  · exact ⟨c, u, hc, hrun, ht⟩
  · cases herr

/-- A SHUFFLE that has ended a latched command with BUS has failed in its loop. -/
theorem exec_shuffle_failed {s t : State} {i : Instr} {w : Nat} (hi : shuffleWidth i = some w)
    (hbusy : s.lat ≠ none) (h : exec i s = .next t) (hend : t.lat = none) (herr : t.err = some .bus) :
    ∃ c u e, s.ctx = some c ∧ shuffleRun w c s = .raise e u ∧ t = u.raised e := by
  obtain rfl | ⟨e, hne, rfl⟩ | ⟨c, u, hc, ⟨-, rfl⟩ | ⟨e, hrun, ht⟩⟩ := exec_shuffle_next hi h
  · exact absurd hend hbusy
  · exact absurd (Option.some.inj herr) hne
  · cases herr
  · exact ⟨c, u, e, hc, hrun, ht⟩

/-! ### Memory mode -/

/-- Settles O44: the loop is over before its first round. -/
theorem shortShuffleDrawsNothing : Obligations.ShortShuffleDrawsNothing := by
  intro s l c i w hlat hc hi hshort hfit
  obtain rfl := State.args_of_lat hlat
  rw [exec_shuffle_run hi hc hfit (by omega), shuffleRun, shuffleLoop_short _ _ _ _ hshort]
  rfl

/-- Settles O45: the loop against the shuffle of the elements. -/
theorem shuffleIsFisherYatesOnItsElements : Obligations.ShuffleIsFisherYatesOnItsElements := by
  intro s l c i w g q hlat hc hwf hi hfit hdev hok hshuffled
  obtain rfl := State.args_of_lat hlat
  obtain ⟨u, hrun, hctx, hadv, hlen, helems, hperm, hshort, hlong⟩ :=
    shuffleLoop_of_shuffled s.args.addr.toNat w s.args.len.toNat hshuffled (by omega) s.args.len.toNat
      (loopStart s) le_rfl le_rfl rfl hc rfl hwf rfl hok
  refine ⟨u.completed, ?_, rfl, rfl, rfl, hctx, hadv, hlen, helems, hperm,
    shuffleRun_out (u := u) hc (.inl hrun), hshort, hlong⟩
  rw [exec_shuffle_run hi hc hfit fun _ => hdev, shuffleRun, hrun, finish]

/-- Settles O46: the step in which the loop fails. -/
theorem shuffleBusErrorShowsItsStep : Obligations.ShuffleBusErrorShowsItsStep := by
  intro s t l c i w hlat hc hwf hi h hend herr
  obtain rfl := State.args_of_lat hlat
  obtain ⟨c', u, e, hc', hrun, rfl⟩ := exec_shuffle_failed hi (by simp [hlat]) h hend herr
  obtain rfl : c = c' := Option.some.inj (hc.symm.trans hc')
  obtain ⟨g, q, n, a, rfl, htwo, hle, hshuffled, hfirst, hctx, hadv, hout, houtJ, hlt, hswp, hswap⟩ :=
    shuffleLoop_raise s.args.addr.toNat w s.args.len.toNat (s := loopStart s) hc hwf le_rfl hrun
  exact ⟨g, q, n, a, htwo, hle, hshuffled, hfirst, hctx, hadv, hout, houtJ, hlt, hswp, rfl, hswap,
    shuffleRun_out (u := u) hc (.inr ⟨_, hrun⟩)⟩

/-- Settles O47: both have completed their loops, which draw alike. -/
theorem shufflesOfTwoWidthsDrawAlike : Obligations.ShufflesOfTwoWidthsDrawAlike := by
  intro s s' t t' l l' i i' w w' hlat hlat' hctx hadv hout houtJ hlen hi hi' h h' hend hend' herr herr'
  obtain rfl := State.args_of_lat hlat
  obtain rfl := State.args_of_lat hlat'
  obtain ⟨c, u, hc, hrun, rfl⟩ := exec_shuffle_completed hi (by simp [hlat]) h hend herr
  obtain ⟨c', u', hc', hrun', rfl⟩ := exec_shuffle_completed hi' (by simp [hlat']) h' hend' herr'
  obtain rfl : c = c' := Option.some.inj (hc.symm.trans (hctx.trans hc'))
  rw [shuffleRun] at hrun
  rw [shuffleRun, ← hlen] at hrun'
  have hstart : sameDraws (loopStart s) (loopStart s') := ⟨hctx, hadv, hout, houtJ, rfl, hlen⟩
  have hsame : sameDraws u u' := shuffleLoop_sameDraws hstart hrun hrun'
  exact ⟨hsame.ctx, hsame.adv, hsame.out, hsame.outJ, hsame.swp, hsame.shLen⟩

/-- Settles O59: an error of the checks leaves the state but for its report, and the loop writes the shuffle and the
buffer only. -/
theorem shuffleFrame : Obligations.ShuffleFrame := by
  intro s t l i w hlat hi h
  obtain rfl := State.args_of_lat hlat
  obtain rfl | ⟨e, -, rfl⟩ | ⟨c, u, hc, hends⟩ := exec_shuffle_next hi h
  · simp
  · simp
  · have hrun : shuffleRun w c s = .complete u ∨ ∃ e, shuffleRun w c s = .raise e u :=
      hends.imp And.left (Exists.imp fun _ => And.left)
    have hsame : u = _ := shuffleRun_same hc hrun
    have halg := shuffleRun_alg hc hrun
    have hout := shuffleRun_out hc hrun
    obtain ⟨hcomplete, rfl⟩ | ⟨e, -, rfl⟩ := hends
    · have hfresh : u.fresh = s.fresh := (shuffleLoop_complete_fresh hcomplete :)
      rw [hsame]
      simpa [hfresh, halg] using hout
    · rw [hsame]
      simpa [halg] using hout

end Sys2Proof.Machine
end

section
/-! PROOFS. How a command's rule can end (60_exceptions.md R129, R133 to R136), one lemma per rule, and what follows:
the report of an error (R134), precise errors (R99, R135), and that the engine's turn goes on (R136). -/

namespace Sys2Proof.Machine

/-! ### How a command's rule ends -/

/-- The command reads the state words of a variant from `lat.ADDR`: a CREATE of it, or a SET_STATE of a handle of it
(41_generator.md R98, R105). -/
def readsState (s : State) (i : Instr) (alg : Alg) : Prop :=
  createAlg i = some alg ∨ (i = .setState ∧ ∃ c, s.ctx = some c ∧ alg = c.alg)

/-- How the rule of command `i` can end in state `s`: it completes; it never ends; it is refused, over a device only; or
it raises an error, and then which effects stay and which of its own accesses the platform refused are fixed. -/
inductive commandEnds (s : State) (i : Instr) : Ending → Prop where
  /-- The command completes. -/
  | complete (u : State) : commandEnds s i (.complete u)
  /-- No draw is ever accepted (42_sampler.md R112). -/
  | never : commandEnds s i .never
  /-- There is a device in memory (20_memory.md R48). -/
  | refuse (r : Refusal) (hdev : s.devices ≠ []) : commandEnds s i (.refuse r)
  /-- A check that names no address fails, before any effect. -/
  | check (e : Err) (hrange : errCodeOf e ≠ .range) (hbus : errCodeOf e ≠ .bus) : commandEnds s i (.raise e s)
  /-- The range check fails, before any effect (20_memory.md R49). -/
  | range : commandEnds s i (.raise (.range s.args.addr) s)
  /-- CREATE or SET_STATE takes a bus error at a word it reads, before any effect (41_generator.md R99). -/
  | readBus (alg : Alg) (j : Nat) (hi : readsState s i alg) (hj : j < alg.wc)
      (hok : ∀ m, m < j → s.memOk (s.args.addr.toNat + 8 * m) 8 .read = true)
      (hbad : s.memOk (s.args.addr.toNat + 8 * j) 8 .read = false) :
      commandEnds s i (.raise (.bus (BitVec.ofNat 32 (s.args.addr.toNat + 8 * j))) s)
  /-- GET_STATE takes a bus error at a word it writes (41_generator.md R104). -/
  | writeBus (c : Ctx) (j : Nat) (hi : i = .getState) (hc : s.ctx = some c) (hj : j < c.alg.wc)
      (hok : ∀ m, m < j → s.memOk (s.args.addr.toNat + 8 * m) 8 .write = true)
      (hbad : s.memOk (s.args.addr.toNat + 8 * j) 8 .write = false) :
      commandEnds s i (.raise (.bus (BitVec.ofNat 32 (s.args.addr.toNat + 8 * j))) (imageCutAt s c j))
  /-- SHUFFLE takes a bus error at one of the two elements of a step (43_shuffle.md R124, R125). -/
  | swapBus (w : Nat) (u : State) (m : Word32) (d : Dir) (hi : shuffleWidth i = some w) (hsame : sameButShuffle s u)
      (halg : u.ctx.map Ctx.alg = s.ctx.map Ctx.alg) (hm : m = u.out ∨ m = u.outJ)
      (hlt : m.toNat < s.args.len.toNat) (hbad : s.memOk (s.args.addr.toNat + m.toNat * w) w d = false) :
      commandEnds s i (.raise (.bus (BitVec.ofNat 32 (s.args.addr.toNat + m.toNat * w))) u)

theorem State.devices_ne_nil {s : State} {a n : Nat} (h : s.coversDevice a n = true) : s.devices ≠ [] := by
  intro hnone
  simp [State.coversDevice, hnone] at h

section
variable {s : State} {i : Instr} {e : Ending}

/-- A rule that checks for a handle first ends with that check where there is none (60_exceptions.md R133). -/
theorem commandEnds_of_handle (hnone : s.ctx = none → e = .raise .noHandle s)
    (hsome : ∀ c, s.ctx = some c → commandEnds s i e) : commandEnds s i e := by
  obtain hc | ⟨c, hc⟩ := Option.eq_none_or_eq_some s.ctx
  · rw [hnone hc]
    exact .check _ nofun nofun
  · exact hsome c hc

/-- What CREATE and SET_STATE share: a load ends as one of its checks or reads, or completes. -/
theorem loadsState_ends {alg : Alg} {u : State} (hi : readsState s i alg) (h : loadsState alg s u e) :
    commandEnds s i e := by
  rcases h with ⟨-, rfl⟩ | ⟨-, -, rfl⟩ | ⟨-, -, hcov, rfl⟩ | ⟨-, -, -, ⟨j, hj, hok, hbad, rfl⟩ | ⟨-, rfl⟩⟩
  · exact .check _ nofun nofun
  · exact .range
  · exact .refuse _ (State.devices_ne_nil hcov)
  · exact .readBus alg j hi hj hok hbad
  · exact .complete u

end

section
variable (s : State)

theorem release_ends : commandEnds s .release (release s) := by
  refine commandEnds_of_handle release_none fun c hc => ?_
  rw [release_some hc]
  exact .complete _

theorem rollCommand_ends : commandEnds s .roll (rollCommand s) := by
  refine commandEnds_of_handle rollCommand_none fun c hc => ?_
  rcases rollCommand_cases hc with hrule | ⟨n, -, hrule⟩ <;> rw [hrule]
  · exact .never
  · exact .complete _

theorem setState_ends : commandEnds s .setState (setState s) :=
  commandEnds_of_handle setState_none fun c hc =>
    loadsState_ends (.inr ⟨rfl, c, hc, rfl⟩) (setState_loadsState hc)

theorem create_ends {i : Instr} {alg : Alg} (hi : createAlg i = some alg) : commandEnds s i (create alg s) :=
  loadsState_ends (.inl hi) (create_loadsState alg s)

theorem getState_ends : commandEnds s .getState (getState s) := by
  refine commandEnds_of_handle getState_none fun c hc => ?_
  rcases getState_cases hc with ⟨-, hrule⟩ | ⟨-, hcov, hrule⟩ | ⟨-, -, ⟨j, hj, hok, hbad, hrule⟩ | ⟨-, hrule⟩⟩ <;>
    rw [hrule]
  · exact .range
  · exact .refuse _ (State.devices_ne_nil hcov)
  · exact .writeBus c j rfl hc hj hok hbad
  · exact .complete _

theorem shufInit_ends : commandEnds s .shufInit (shufInit s) := by
  refine commandEnds_of_handle shufInit_none fun c hc => ?_
  rw [shufInit_some hc]
  exact .complete _

theorem shufStepCommand_ends : commandEnds s .shufStep (shufStepCommand s) := by
  refine commandEnds_of_handle shufStepCommand_none fun c hc => ?_
  rcases shufStepCommand_cases hc with ⟨-, hrule⟩ | ⟨-, -, hrule⟩ | ⟨c', u, -, -, hrule⟩ <;> rw [hrule]
  · exact .complete _
  · exact .never
  · exact .complete _

/-- SHUFFLE's loop refuses nothing, and raises a bus error at an element of its step only (43_shuffle.md R123 to
R125). -/
theorem shuffleRun_ends {c : Ctx} {i : Instr} {w : Nat} (hi : shuffleWidth i = some w) (hc : s.ctx = some c) :
    commandEnds s i (shuffleRun w c s) := by
  cases hrun : shuffleRun w c s with
  | complete u => exact .complete u
  | never => exact .never
  | refuse r => exact absurd hrun (shuffleLoop_not_refuse _ _ _ _ _ r)
  | raise e u =>
    have hraised : shuffleRun w c s = .complete u ∨ ∃ e, shuffleRun w c s = .raise e u := .inr ⟨e, hrun⟩
    obtain ⟨htwo, hle, houtJ, hout, m, d, hm, hbad, rfl⟩ := shuffleLoop_bus hrun
    have hlt : m.toNat < s.args.len.toNat := by
      have hpred := toNat_pred htwo
      have hstart : (loopStart s).shLen = s.args.len := rfl
      rw [hstart] at hle
      rw [houtJ] at hout
      rcases hm with rfl | rfl
      · omega
      · rw [houtJ]
        omega
    exact .swapBus w u m d hi (shuffleRun_same hc hraised) (shuffleRun_alg hc hraised) hm hlt hbad

theorem shuffle_ends {i : Instr} {w : Nat} (hi : shuffleWidth i = some w) : commandEnds s i (shuffle w s) := by
  refine commandEnds_of_handle (shuffle_none w) fun c hc => ?_
  rcases shuffle_cases w hc with ⟨-, hrule⟩ | ⟨-, -, hcov, hrule⟩ | ⟨-, -, hrule⟩ <;> rw [hrule]
  · exact .range
  · exact .refuse _ (State.devices_ne_nil hcov)
  · exact shuffleRun_ends s hi hc

/-- Every command is the completion step of a rule that ends in one of these ways. -/
theorem exec_ends (i : Instr) : ∃ e, exec i s = finish s e ∧ commandEnds s i e := by
  cases i
  case nop => exact ⟨_, rfl, .complete s⟩
  case release => exact ⟨_, rfl, release_ends s⟩
  case roll => exact ⟨_, rfl, rollCommand_ends s⟩
  case getState => exact ⟨_, rfl, getState_ends s⟩
  case setState => exact ⟨_, rfl, setState_ends s⟩
  case shufInit => exact ⟨_, rfl, shufInit_ends s⟩
  case shufStep => exact ⟨_, rfl, shufStepCommand_ends s⟩
  case shuffle8 | shuffle16 | shuffle32 | shuffle64 => exact ⟨_, rfl, shuffle_ends s rfl⟩
  all_goals exact ⟨_, rfl, create_ends s rfl⟩

end

/-! ### What an error reports and leaves -/

section
variable {s t u : State} {i : Instr} {err : Err}

/-- A latched command that has ended with an error has raised it. -/
theorem exec_error {e : ErrCode} (hbusy : s.lat ≠ none) (h : exec i s = .next t) (hend : t.lat = none)
    (herr : t.err = some e) : ∃ err u, commandEnds s i (.raise err u) ∧ t = u.raised err ∧ e = errCodeOf err := by
  obtain ⟨ending, hexec, hends⟩ := exec_ends s i
  rw [hexec] at h
  obtain ⟨u, -, rfl⟩ | ⟨err, u, rfl, rfl⟩ | ⟨-, rfl⟩ := finish_next h
  · cases herr
  · exact ⟨err, u, hends, rfl, (Option.some.inj herr).symm⟩
  · exact absurd hend hbusy

/-- `FAULT_ADDR` is written by RANGE and BUS only (60_exceptions.md R134). -/
theorem faultAddrOf_eq_old (hrange : errCodeOf err ≠ .range) (hbus : errCodeOf err ≠ .bus) (old : Word32) :
    faultAddrOf err old = old := by
  cases err with
  | range a => exact absurd rfl hrange
  | bus a => exact absurd rfl hbus
  | unknownAlgorithm | insufficientSeed | invalidInput | noHandle | illegalCommand => rfl

/-- `HANDLE` shows the variant only (10_state.md R26). -/
theorem State.handle_congr (h : u.ctx.map Ctx.alg = s.ctx.map Ctx.alg) : u.handle = s.handle := by
  obtain hc | ⟨c, hc⟩ := Option.eq_none_or_eq_some s.ctx
  · rw [State.handle_none hc, State.handle_none (by simpa [hc] using h)]
  · obtain ⟨c', hc', halg⟩ : ∃ c', u.ctx = some c' ∧ c'.alg = c.alg := by simpa [hc] using h
    rw [State.handle_some hc, State.handle_some hc', halg]

/-- The effects that stay with an error are on the shuffle and memory only, and keep the variant. -/
theorem commandEnds_raise_keeps (h : commandEnds s i (.raise err u)) :
    sameButShuffle s u ∧ u.ctx.map Ctx.alg = s.ctx.map Ctx.alg := by
  cases h with
  | check | range | readBus => exact ⟨sameButShuffle_refl s, rfl⟩
  | writeBus c j =>
    rw [imageCutAt_eq]
    exact ⟨rfl, rfl⟩
  | swapBus w u m d hi hsame halg => exact ⟨hsame, halg⟩

/-- No effect stays with an error other than BUS, nor with BUS of CREATE and SET_STATE (60_exceptions.md R135). -/
theorem commandEnds_raise_precise (h : commandEnds s i (.raise err u))
    (hprecise : errCodeOf err ≠ .bus ∨ i = .setState ∨ (createAlg i).isSome = true) : u = s := by
  cases h with
  | check | range | readBus => rfl
  | writeBus c j hi =>
    subst hi
    simp [errCodeOf, createAlg] at hprecise
  | swapBus w u m d hi =>
    obtain hcode | rfl | hcreate := hprecise
    · exact absurd rfl hcode
    · cases hi
    · cases i <;> simp [shuffleWidth, createAlg] at hi hcreate

end

/-- Settles O48: what stays with an error keeps the host's registers and the variant, and each way to raise one fixes
its report. -/
theorem errorsAreReportedInTheirRegisters : Obligations.ErrorsAreReportedInTheirRegisters := by
  intro s t l i e hlat h hend herr
  obtain rfl := State.args_of_lat hlat
  obtain ⟨err, u, hends, rfl, rfl⟩ := exec_error (by simp [hlat]) h hend herr
  obtain ⟨hsame, halg⟩ := commandEnds_raise_keeps hends
  refine ⟨rfl, (congrArg State.argK hsame :), (congrArg State.addr hsame :), (congrArg State.len hsame :),
    State.handle_congr (u := u) halg, ?_⟩
  cases hends with
  | check err hrange hbus =>
    exact ⟨fun h => absurd h hrange, fun h => absurd h hbus, fun _ _ => faultAddrOf_eq_old hrange hbus _⟩
  | range => exact ⟨fun _ => rfl, nofun, fun hne => absurd rfl hne⟩
  | readBus alg j hi hj hok hbad =>
    refine ⟨nofun, fun _ => .inl ⟨alg.wc, j, .read, ?_, hj, hok, hbad, rfl⟩, fun _ hne => absurd rfl hne⟩
    obtain hcreate | ⟨hset, c, hc, rfl⟩ := hi
    · exact .inl ⟨alg, hcreate, rfl, rfl⟩
    · exact .inr (.inl ⟨hset, c, hc, rfl, rfl⟩)
  | writeBus c j hi hc hj hok hbad =>
    exact ⟨nofun, fun _ => .inl ⟨c.alg.wc, j, .write, .inr (.inr ⟨hi, c, hc, rfl, rfl⟩), hj, hok, hbad, rfl⟩,
      fun _ hne => absurd rfl hne⟩
  | swapBus w u m d hi _ _ hm hlt hbad =>
    exact ⟨nofun, fun _ => .inr ⟨w, m, d, hi, hm, hlt, hbad, rfl⟩, fun _ hne => absurd rfl hne⟩

/-- Settles O49: an error over the state as it was writes its report only. -/
theorem errorsArePrecise : Obligations.ErrorsArePrecise := by
  intro s t l i e hlat h hend herr hprecise
  obtain ⟨err, u, hends, rfl, rfl⟩ := exec_error (by simp [hlat]) h hend herr
  obtain rfl := commandEnds_raise_precise hends hprecise
  rfl

/-! ### The engine's turn goes on -/

/-- With no device in memory a command has no refusal (20_memory.md R48). -/
theorem exec_goesOn {s : State} (hdev : s.devices = []) (i : Instr) : ∃ t, exec i s = .next t := by
  obtain ⟨e, hexec, hends⟩ := exec_ends s i
  rw [hexec]
  cases e with
  | complete u => exact ⟨_, rfl⟩
  | raise err u => exact ⟨_, rfl⟩
  | never => exact ⟨_, rfl⟩
  | refuse r =>
    cases hends with
    | refuse _ hne => exact absurd hdev hne

/-- With no device in memory the engine completes whatever word is latched (60_exceptions.md R136). -/
theorem engineTurn_goesOn {s : State} (hdev : s.devices = []) : ∃ t, engineTurn s = .next t := by
  cases hlat : s.lat with
  | none => exact ⟨s, engineTurn_idle hlat⟩
  | some l =>
    cases hdec : decode l.cmd with
    | ok i =>
      rw [engineTurn_ok hlat hdec]
      exact exec_goesOn hdev i
    | error r =>
      rw [engineTurn_rejected hlat hdec, finish_rejected]
      exact ⟨_, rfl⟩

/-- Where the script is empty or begins with the engine's turn or a wait, the step is the engine's turn, or the end of an
idle engine's wait (10_state.md R15). -/
theorem step_turn {s : State} {rest : List Move}
    (hturn : s.script = [] ∨ s.script = .engine :: rest ∨ s.script = .wait :: rest) :
    ∃ moves, step s = engineTurn (s.withScript moves) ∨ (s.busy = false ∧ step s = .next (s.withScript moves)) := by
  obtain h | h | h := hturn
  · exact ⟨s.script, .inl (step_nil h)⟩
  · exact ⟨rest, .inl (step_engine h)⟩
  · cases hb : s.busy with
    | true => exact ⟨s.script, .inl (step_wait_busy h hb)⟩
    | false => exact ⟨rest, .inr ⟨rfl, step_wait_idle h hb⟩⟩

/-- Settles O52, by the engine's turn; the end of a wait stops nothing. -/
theorem engineTurnNeverStopsTheMachine : Obligations.EngineTurnNeverStopsTheMachine := by
  intro s rest hdev hturn
  obtain ⟨moves, h | ⟨-, h⟩⟩ := step_turn hturn
  · rw [h]
    exact engineTurn_goesOn hdev
  · exact ⟨_, h⟩

end Sys2Proof.Machine
end

section
/-! PROOFS. The interrupt line (60_exceptions.md R132). -/

namespace Sys2Proof.Machine

section
variable {s t : State} {rest : List Move}

/-- A turn of the engine that ends a command raises `DONE`, and leaves `IE` (10_state.md R45). -/
theorem engineTurn_ended_irq (hbusy : s.busy = true) (h : engineTurn s = .next t) (hend : t.lat = none) :
    t.irq = s.ie := by
  obtain rfl | ⟨-, u, ⟨hsame, -⟩, ht⟩ := engineTurn_next h
  · simp [State.busy, hend] at hbusy
  · have hie : u.ie = s.ie := (congrArg State.ie hsame :)
    obtain rfl | ⟨e, rfl⟩ := ht <;> simp [State.irq, hie]

theorem step_ended_irq (hbusy : s.busy = true)
    (hturn : s.script = [] ∨ s.script = .engine :: rest ∨ s.script = .wait :: rest) (h : step s = .next t)
    (hend : t.lat = none) : t.irq = s.ie := by
  obtain ⟨moves, hstep | ⟨hidle, -⟩⟩ := step_turn hturn
  · rw [hstep] at h
    exact engineTurn_ended_irq (s := s.withScript moves) hbusy h hend
  · simp [hbusy] at hidle

/-- A register write is the whole of its step (10_state.md R15). -/
theorem step_write_next {off : BitVec 8} {v : Word32} (hscript : s.script = .write off 4 v :: rest)
    (ha : off.toNat % 4 = 0) (h : step s = .next t) : t = (s.withScript rest).hostWrite off v := by
  rw [step_write hscript ha] at h
  cases h
  rfl

end

/-- An acceptance clears `DONE` (10_state.md R43). -/
theorem State.irq_writeCmd_idle {s : State} (h : s.busy = false) (v : Word32) : (s.writeCmd v).irq = false := by
  rw [State.writeCmd_idle h]
  simp [State.irq]

/-- A rejected `CMD` write sets `OVR` only (60_exceptions.md R131). -/
theorem State.irq_writeCmd_busy {s : State} (h : s.busy = true) (v : Word32) : (s.writeCmd v).irq = s.irq := by
  rw [State.writeCmd_busy h]
  rfl

/-- A write of `STATUS` clears `DONE` by its bit 1 (10_state.md R25). -/
theorem State.irq_writeStatus (s : State) (v : Word32) : (s.writeStatus v).irq = (s.irq && !v.getLsbD 1) :=
  (Bool.and_assoc ..).symm

/-- Settles O19, by the event of each clause. -/
theorem interruptFollowsDoneAndEnable : Obligations.InterruptFollowsDoneAndEnable := by
  intro s t v rest h
  refine ⟨rfl, fun hbusy hturn => step_ended_irq hbusy hturn h, fun hw hidle => ?_, fun hw hbusy => ?_, fun hw => ?_,
    fun hw => ?_, fun hreset => ?_⟩
  · obtain rfl := step_write_next hw rfl h
    exact State.irq_writeCmd_idle (s := s.withScript rest) (by simp [State.busy, hidle]) v
  · obtain rfl := step_write_next hw rfl h
    exact State.irq_writeCmd_busy (s := s.withScript rest) hbusy v
  · obtain rfl := step_write_next hw rfl h
    exact State.irq_writeStatus (s.withScript rest) v
  · obtain rfl := step_write_next hw rfl h
    rfl
  · rw [step_reset hreset] at h
    cases h
    rfl

end Sys2Proof.Machine
end

section
/-! PROOFS. What a reset leaves of the machine, and of the range a busy command was to write (70_reset_and_hazards.md
R144, R145). -/

namespace Sys2Proof.Machine

/-! ### The range a busy command was to write -/

section
variable {s : State} {l : Latched} {i : Instr}

theorem State.busyWrittenRange_idle (hlat : s.lat = none) : s.busyWrittenRange = none := by
  simp [State.busyWrittenRange, hlat]

theorem State.busyWrittenRange_rejected {r : Reject} (hlat : s.lat = some l) (hdec : decode l.cmd = .error r) :
    s.busyWrittenRange = none := by
  simp [State.busyWrittenRange, hlat, hdec]

theorem State.busyWrittenRange_of_decode (hlat : s.lat = some l) (hdec : decode l.cmd = .ok i) :
    s.busyWrittenRange = s.writtenRange i := by
  simp [State.busyWrittenRange, hlat, hdec]

theorem State.writtenRange_getState {c : Ctx} (hc : s.ctx = some c) :
    s.writtenRange .getState = some (s.args.addr.toNat, c.alg.stateBytes) := by
  simp [State.writtenRange, hc]

theorem State.writtenRange_getState_none (hc : s.ctx = none) : s.writtenRange .getState = none := by
  simp [State.writtenRange, hc]

theorem State.writtenRange_shuffle {w : Nat} (hi : shuffleWidth i = some w) (s : State) :
    s.writtenRange i = some (s.args.addr.toNat, s.args.len.toNat * w) := by
  cases i with
  | shuffle8 | shuffle16 | shuffle32 | shuffle64 => cases hi; rfl
  | _ => cases hi

/-- Only GET_STATE and SHUFFLE write memory (20_memory.md R47). -/
theorem State.writtenRange_none (hget : i ≠ .getState) (hi : shuffleWidth i = none) (s : State) :
    s.writtenRange i = none := by
  cases i with
  | getState => exact absurd rfl hget
  | shuffle8 | shuffle16 | shuffle32 | shuffle64 => cases hi
  | _ => rfl

theorem inRange_some_eq_false_iff {base size x : Nat} :
    inRange (some (base, size)) x = false ↔ x < base ∨ base + size ≤ x := by
  simp only [inRange, Bool.and_eq_false_iff, decide_eq_false_iff_not, Nat.not_le, Nat.not_lt]

/-- An address outside the image of a GET_STATE and outside the buffer of a SHUFFLE is one the command does not
write. -/
theorem State.not_inRange_writtenRange {x : Nat}
    (hget : ∀ c, i = .getState → s.ctx = some c →
      x < s.args.addr.toNat ∨ s.args.addr.toNat + c.alg.wc * 8 ≤ x)
    (hshuffle : ∀ w, shuffleWidth i = some w →
      x < s.args.addr.toNat ∨ s.args.addr.toNat + s.args.len.toNat * w ≤ x) :
    inRange (s.writtenRange i) x = false := by
  by_cases hi : i = .getState
  · subst hi
    cases hc : s.ctx with
    | none => rw [State.writtenRange_getState_none hc]; rfl
    | some c => rw [State.writtenRange_getState hc, inRange_some_eq_false_iff]; exact hget c rfl hc
  · cases hw : shuffleWidth i with
    | none => rw [State.writtenRange_none hi hw]; rfl
    | some w => rw [State.writtenRange_shuffle hw, inRange_some_eq_false_iff]; exact hshuffle w hw

end

/-! ### Memory as a reset leaves it -/

theorem State.abandon_of_noRange {s : State} (h : s.busyWrittenRange = none) : s.abandon = s := by
  simp [State.abandon, h]

/-- The free values of a reset stay in the busy command's range (70_reset_and_hazards.md R145). -/
theorem State.abandon_out {s : State} {x : Nat} (h : inRange s.busyWrittenRange x = false) :
    readByte s.abandon.mem x = readByte s.mem x := by
  unfold State.abandon
  split
  · rfl
  · next base size hrange =>
    rw [hrange, inRange_some_eq_false_iff] at h
    exact State.scramble_out s (by omega)

/-! ### The step of a reset -/

/-- Settles O21: the state after reset, and where no command was latched no range is abandoned. -/
theorem resetGivesEveryRegisterItsResetValue : Obligations.ResetGivesEveryRegisterItsResetValue := by
  intro s rest hscript
  refine ⟨_, _, _, step_reset hscript, rfl, rfl, fun hidle => ?_⟩
  rw [State.abandon_of_noRange (State.busyWrittenRange_idle (s := s.withScript rest) hidle)]
  exact ⟨rfl, rfl⟩

/-- Settles O22: what is abandoned is the range the latched command was to write, and an address outside it keeps its
byte. -/
theorem resetWhileBusyKeepsTheRestOfMemory : Obligations.ResetWhileBusyKeepsTheRestOfMemory := by
  intro s l rest hlat hscript
  have hlat' : (s.withScript rest).lat = some l := hlat
  refine ⟨_, _, _, step_reset hscript, rfl, rfl, rfl, rfl, fun r hdec => ?_, fun i hdec => ⟨fun hget hi => ?_,
    fun x hget hshuffle => ?_⟩⟩
  · rw [State.abandon_of_noRange (State.busyWrittenRange_rejected hlat' hdec)]
    exact ⟨rfl, rfl⟩
  · have hrange := State.busyWrittenRange_of_decode hlat' hdec
    rw [State.writtenRange_none hget hi] at hrange
    rw [State.abandon_of_noRange hrange]
    exact ⟨rfl, rfl⟩
  · rw [← State.args_of_lat hlat'] at hget hshuffle
    have hout := State.not_inRange_writtenRange (s := s.withScript rest) hget hshuffle
    rw [← State.busyWrittenRange_of_decode hlat' hdec] at hout
    exact State.abandon_out hout

end Sys2Proof.Machine
end

section
/-! PROOFS. What a command word placed to run next stands for (notes/assumptions/4.md): the acceptance of that word
(10_state.md R43) before the engine's turn. -/

namespace Sys2Proof.Machine

/-- A word's number has no bits past its 32, so what is accepted is the word itself. -/
theorem State.withFetchWord_toNat (s : State) (c : Word32) :
    s.withFetchWord 32 c.toNat = (s.accept c).withScript (.engine :: s.script) := by
  have hword : BitVec.ofNat 32 (c.toNat % 2 ^ 32) = c := by
    rw [Nat.mod_eq_of_lt c.isLt, BitVec.ofNat_toNat, BitVec.setWidth_eq]
  rw [State.withFetchWord, hword]
  rfl

/-- Settles O7: the engine's turn comes next, and the word it decodes is the one accepted. -/
theorem placedCommandIsTheOneCompleted : Obligations.PlacedCommandIsTheOneCompleted := by
  intro s i
  have hdec : decode (encode i) = .ok i := (decodeAcceptsExactlyTheEncodedWords _ i).2 rfl
  rw [State.withFetchWord_toNat, step_engine (State.withScript_script _ _)]
  exact engineTurn_ok (s := s.accept (encode i)) (State.accept_lat s _) hdec

end Sys2Proof.Machine
end
